-- ==== Sys2Proof/Word.lean ====
section
/-! DEFINITION. The word types of the block (00_scope.md R10, 20_memory.md R66). -/

namespace Sys2Proof

/-- One byte: an index, a suffix, a byte of the compressed stream. -/
abbrev Byte := BitVec 8

/-- One 32-bit word: a host-visible register or a packed color. -/
abbrev Word := BitVec 32

end Sys2Proof
end

