-- ==== Sys2Proof/Config.lean ====
section
/-! DEFINITION. What is fixed for every machine of this kind (00_scope.md R7), and the values the spec leaves free: opaque constants,
so that no proof can see one (00_scope.md R9; the assumption log's entries 5 to 8). -/

namespace Sys2Proof.Config

/-- MAX_CODES: table entries, codes 0..4095 (R7). -/
def maxCodes : Nat := 4096

/-- MAX_CODE_SIZE: the widest code, in bits (R7). -/
def maxCodeSize : Nat := 12

/-- STACK_CAP: entries of the pixel stack (R7). -/
def stackCap : Nat := 4097

/-- The largest legal minimum code size (R7). -/
def maxMcs : Nat := 8

/-- TABLE_INIT for PREFIX (R9, R48): what entry `c` holds in the draw numbered `draw`, until a rule writes it. -/
opaque tableInitPrefix (draw c : Nat) : BitVec 12

/-- TABLE_INIT for SUFFIX (R9, R48). -/
opaque tableInitSuffix (draw c : Nat) : Byte

/-- BUSY_READ (R9, R22, R121): what the draw numbered `draw` gives a read while BUSY = 1. -/
opaque busyRead (draw : Nat) : Word

/-- What the host reads from a unit of IDX or PIX while BUSY = 1 (40_commands.md R129: any value); a byte of IDX takes its low 8 bits. -/
opaque busyBuffer (draw : Nat) : Word

/-- RESET_PARTIAL (R9, R261): in the draw numbered `draw`, whether the `i`-th buffer write of the aborted command, counted from the newest
of those it would have made by its end, is lost. -/
opaque resetPartial (draw i : Nat) : Bool

end Sys2Proof.Config
end

