-- ==== Sys2Proof/Syntax.lean ====
section
/-! DEFINITION. The instructions: one constructor for every row of spec/opcode_table.json, and the words they are read from. -/

namespace Sys2Proof

/-- One constructor per row of the opcode table. The rows have five formats: CMD (30_encoding.md R96), BUS (R97), CODE (R92 to R95),
STREAM (R90) and INDEX (R98). -/
inductive Instr where
  /-- DECODE, CMD word 0x00000001 (40_commands.md R123). -/
  | decode
  /-- COMPOSITE, CMD word 0x00000002 (R124). -/
  | composite
  /-- DECODE_COMPOSITE, CMD word 0x00000003 (R125). -/
  | decodeComposite
  /-- BAD_CMD, every other CMD word (R126). -/
  | badCmd (w : Word)
  /-- WR, a host register write (R120). -/
  | wr (offset : BitVec 8) (data : Word)
  /-- RD, a host register read (R121). -/
  | rd (offset : BitVec 8)
  /-- CLEAR, the clear code (41_lzw_decoder.md R160). -/
  | clear (code : BitVec 12)
  /-- END, the end code (R161). -/
  | endCode (code : BitVec 12)
  /-- RANGE, an out-of-range code (R162). -/
  | range (code : BitVec 12)
  /-- FIRST, the first code after the start or a clear (R163). -/
  | first (code : BitVec 12)
  /-- DEFINED, a code already in the table (R164). -/
  | defined (code : BitVec 12)
  /-- KWKWK, the code that equals AVAIL (R165). -/
  | kwkwk (code : BitVec 12)
  /-- BLOCK_HEADER, a sub-block length byte (R156). -/
  | blockHeader (len : Byte)
  /-- DATA_BYTE, a data byte of a sub-block (R157). -/
  | dataByte (byte : Byte)
  /-- TRANSPARENT, a transparent index (42_compositor.md R207). -/
  | transparent (v : Byte)
  /-- CT_RANGE, an index beyond the color table (R209). -/
  | ctRange (v : Byte)
  /-- WRITE, an opaque index (R208). -/
  | write (v : Byte)
deriving DecidableEq, Repr

/-- The five formats of 30_encoding.md. -/
inductive Format where
  | cmd | bus | code | stream | index
deriving DecidableEq, Repr

/-- The format the opcode table gives each row. -/
def Instr.format : Instr → Format
  | .decode => .cmd
  | .composite => .cmd
  | .decodeComposite => .cmd
  | .badCmd _ => .cmd
  | .wr _ _ => .bus
  | .rd _ => .bus
  | .clear _ => .code
  | .endCode _ => .code
  | .range _ => .code
  | .first _ => .code
  | .defined _ => .code
  | .kwkwk _ => .code
  | .blockHeader _ => .stream
  | .dataByte _ => .stream
  | .transparent _ => .index
  | .ctRange _ => .index
  | .write _ => .index

/-- The direction of a host register access (R97). -/
inductive Dir where
  | read | write
deriving DecidableEq, Repr

/-- A host register access as it stands on the bus: a direction, a byte offset, a width in bytes and, for a write, the data. R97 and
20_memory.md R68 allow 4 bytes at a multiple of 4 in 0x00..0xFC; the decoder refuses every other shape. -/
structure BusAccess where
  dir    : Dir
  offset : Nat
  size   : Nat
  data   : Word
deriving DecidableEq, Repr

/-- `W <offset> <data>` of the notation (R97). -/
def BusAccess.wr (offset : Nat) (data : Word) : BusAccess := ⟨.write, offset, 4, data⟩

/-- `R <offset>` of the notation (R97). -/
def BusAccess.rd (offset : Nat) : BusAccess := ⟨.read, offset, 4, 0⟩

/-- The word the block decodes, in one of the five formats. The bits of a code stand bit 0 first (R92). -/
inductive Raw where
  | cmd (w : Word)
  | bus (a : BusAccess)
  | code (bits : List Bool)
  | stream (b : Byte)
  | index (v : Byte)
deriving DecidableEq, Repr

/-- The format of a word. -/
def Raw.format : Raw → Format
  | .cmd _ => .cmd
  | .bus _ => .bus
  | .code _ => .code
  | .stream _ => .stream
  | .index _ => .index

/-- The decoder state that a word's meaning depends on: CLEAR, END, AVAIL, PREV_V and CSIZE for a code (R94), BREM for a stream byte
(R156, R157), TRANSP and CT_LEN for an index byte (R98). -/
structure Ctx where
  clear   : Nat
  endCode : Nat
  avail   : Nat
  prevV   : Bool
  csize   : Nat
  brem    : Nat
  ten     : Bool
  tindex  : Byte
  ctLen   : Nat
deriving DecidableEq, Repr

end Sys2Proof
end

