-- ==== Sys2Proof/WellFormed.lean ====
section
/-! DEFINITION. Which instructions are well formed: the operand values an encoding admits, and the class conditions the opcode table
gives a row against the decoder state. -/

namespace Sys2Proof

/-- A byte offset of the register window: a multiple of 4 in 0x00..0xFC (R97). -/
def regOffset (offset : BitVec 8) : Bool := offset.toNat % 4 == 0

/-- A CMD word with OP = 0 or a reserved bit set (R96, R126). -/
def reservedCmd (w : Word) : Bool := w.extractLsb' 0 2 == 0 || w.extractLsb' 2 30 != 0

/-- A value CLEAR can have: 1 << MCS for MCS in 0..8 (R152). -/
def clearValue (c : Nat) : Bool := (List.range (Config.maxMcs + 1)).any fun m => c == 2 ^ m

/-- The operands are values some word of the format holds. -/
def Instr.wellFormed : Instr → Bool
  | .decode => true
  | .composite => true
  | .decodeComposite => true
  | .badCmd w => reservedCmd w
  | .wr offset _ => regOffset offset
  | .rd offset => regOffset offset
  | .clear code => clearValue code.toNat
  | .endCode code => 1 ≤ code.toNat && clearValue (code.toNat - 1)
  | .range code => 4 ≤ code.toNat
  | .first _ => true
  | .defined _ => true
  | .kwkwk code => 3 ≤ code.toNat
  | .blockHeader _ => true
  | .dataByte _ => true
  | .transparent _ => true
  | .ctRange _ => true
  | .write _ => true

/-- `code` can stand in a field of the current width CSIZE, itself 1..12 (R92, R93). -/
def Ctx.holdsCode (ctx : Ctx) (code : BitVec 12) : Bool :=
  1 ≤ ctx.csize && ctx.csize ≤ Config.maxCodeSize && code.toNat < 2 ^ ctx.csize

/-- `code` is neither CLEAR nor END nor above AVAIL: rows 1 to 3 of R94 do not match. -/
def Ctx.inTable (ctx : Ctx) (code : BitVec 12) : Bool :=
  code.toNat != ctx.clear && code.toNat != ctx.endCode && code.toNat ≤ ctx.avail

/-- The index byte is not transparent: row 1 of R98 does not match. -/
def Ctx.opaqueIndex (ctx : Ctx) (v : Byte) : Bool := !(ctx.ten && v == ctx.tindex)

/-- The class condition of the row against the decoder state, with the rows that come before it excluded (R94, R98). -/
def Instr.fits (ctx : Ctx) : Instr → Bool
  | .decode => true
  | .composite => true
  | .decodeComposite => true
  | .badCmd _ => true
  | .wr _ _ => true
  | .rd _ => true
  | .clear code => ctx.holdsCode code && code.toNat == ctx.clear
  | .endCode code => ctx.holdsCode code && code.toNat != ctx.clear && code.toNat == ctx.endCode
  | .range code => ctx.holdsCode code && code.toNat != ctx.clear && code.toNat != ctx.endCode && ctx.avail < code.toNat
  | .first code => ctx.holdsCode code && ctx.inTable code && !ctx.prevV
  | .defined code => ctx.holdsCode code && ctx.inTable code && ctx.prevV && code.toNat < ctx.avail
  | .kwkwk code => ctx.holdsCode code && ctx.inTable code && ctx.prevV && code.toNat == ctx.avail
  | .blockHeader _ => ctx.brem == 0
  | .dataByte _ => ctx.brem != 0
  | .transparent v => ctx.ten && v == ctx.tindex
  | .ctRange v => ctx.opaqueIndex v && ctx.ctLen ≤ v.toNat
  | .write v => ctx.opaqueIndex v && v.toNat < ctx.ctLen

/-- The values the decoder state takes in a decode (10_state.md R42): CLEAR a power of two up to 256, END the next value, AVAIL at
least two above CLEAR. -/
def Ctx.legal (ctx : Ctx) : Bool :=
  clearValue ctx.clear && ctx.endCode == ctx.clear + 1 && ctx.clear + 2 ≤ ctx.avail

end Sys2Proof
end

