-- ==== Sys2Proof/Decode.lean ====
section
/-! DEFINITION. The decoder, total on every word of every format and rejecting by name; after it the encoder, the bytes of a CODES
listing (30_encoding.md R102), and the opcode table's own numbering of a word's bits. -/

namespace Sys2Proof

/-- The value of a list of bits, bit 0 first (00_scope.md R10; 30_encoding.md R92: the natural sum over i of bit i times 2^i). -/
def ofBits : List Bool → Nat
  | [] => 0
  | b :: bs => b.toNat + 2 * ofBits bs

/-- The low `n` bits of `v`, bit 0 first: the inverse of `ofBits` on `n` bits. -/
def toBits : Nat → Nat → List Bool
  | 0, _ => []
  | n + 1, v => (v % 2 == 1) :: toBits n (v / 2)

/-- Why a word decodes to no instruction. -/
inductive Reject where
  /-- A host access that is not 4 bytes wide (20_memory.md R68). -/
  | busWidth
  /-- A host access at an offset that is not a multiple of 4 (R68). -/
  | busAlignment
  /-- A host access outside 0x00..0xFC (R97). -/
  | busOffset
  /-- A code field whose width is not CSIZE, or a CSIZE outside 1..12 (R92, R93). -/
  | codeWidth
deriving DecidableEq, Repr

/-- A CMD word by its fields OP = bits[1:0] and RSV = bits[31:2] (R96). -/
def decodeCmd (w : Word) : Instr :=
  if w.extractLsb' 2 30 != 0 then .badCmd w
  else if w.extractLsb' 0 2 == 1#2 then .decode
  else if w.extractLsb' 0 2 == 2#2 then .composite
  else if w.extractLsb' 0 2 == 3#2 then .decodeComposite
  else .badCmd w

/-- A host register access (R97); any other shape is refused (R68). -/
def decodeBus (a : BusAccess) : Except Reject Instr :=
  if a.size != 4 then .error .busWidth
  else if a.offset % 4 != 0 then .error .busAlignment
  else if 0xFC < a.offset then .error .busOffset
  else match a.dir with
    | .write => .ok (.wr (BitVec.ofNat 8 a.offset) a.data)
    | .read => .ok (.rd (BitVec.ofNat 8 a.offset))

/-- The class of a code value, testing the rows of the code map in its order (R94). -/
def classifyCode (ctx : Ctx) (code : BitVec 12) : Instr :=
  if code.toNat = ctx.clear then .clear code
  else if code.toNat = ctx.endCode then .endCode code
  else if ctx.avail < code.toNat then .range code
  else if ctx.prevV = false then .first code
  else if code.toNat < ctx.avail then .defined code
  else .kwkwk code

/-- A code field of CSIZE bits (R92, R93). -/
def decodeCode (ctx : Ctx) (bits : List Bool) : Except Reject Instr :=
  if bits.length ≠ ctx.csize ∨ ctx.csize = 0 ∨ Config.maxCodeSize < ctx.csize then .error .codeWidth
  else .ok (classifyCode ctx (BitVec.ofNat 12 (ofBits bits)))

/-- A byte of IN: a length byte when the current sub-block has no bytes left, else a data byte (R90, R156). -/
def decodeStream (ctx : Ctx) (b : Byte) : Instr :=
  if ctx.brem = 0 then .blockHeader b else .dataByte b

/-- The class of an index byte, testing the rows in the order of R98. -/
def classifyIndex (ctx : Ctx) (v : Byte) : Instr :=
  if ctx.ten = true ∧ v = ctx.tindex then .transparent v
  else if ctx.ctLen ≤ v.toNat then .ctRange v
  else .write v

/-- The decoder. -/
def decode (ctx : Ctx) : Raw → Except Reject Instr
  | .cmd w => .ok (decodeCmd w)
  | .bus a => decodeBus a
  | .code bits => decodeCode ctx bits
  | .stream b => .ok (decodeStream ctx b)
  | .index v => .ok (classifyIndex ctx v)

/-- The bits of a code at the current width (R92). -/
def encodeCode (ctx : Ctx) (code : BitVec 12) : Raw := .code (toBits ctx.csize code.toNat)

/-- The encoder: the word of an instruction, from the tables of 30_encoding.md. -/
def encode (ctx : Ctx) : Instr → Raw
  | .decode => .cmd 0x00000001#32
  | .composite => .cmd 0x00000002#32
  | .decodeComposite => .cmd 0x00000003#32
  | .badCmd w => .cmd w
  | .wr offset data => .bus (.wr offset.toNat data)
  | .rd offset => .bus (.rd offset.toNat)
  | .clear code => encodeCode ctx code
  | .endCode code => encodeCode ctx code
  | .range code => encodeCode ctx code
  | .first code => encodeCode ctx code
  | .defined code => encodeCode ctx code
  | .kwkwk code => encodeCode ctx code
  | .blockHeader len => .stream len
  | .dataByte byte => .stream byte
  | .transparent v => .index v
  | .ctRange v => .index v
  | .write v => .index v

/-! ## Whole streams: the CODES listing -/

/-- One item `c/w` of a listing: a code value and the bits it is written in (R102). -/
structure CodeItem where
  code  : Nat
  width : Nat
deriving DecidableEq, Repr

/-- The codes packed LSB first in listing order (R91, R102). DESIGN CHOICE, where R102 does not say what an item stands for (the assumption
log's entry 25): of a code value that does not fit its width the low bits are packed. -/
def listingBits (items : List CodeItem) : List Bool := items.flatMap fun i => toBits i.width i.code

/-- The bit string cut into `n` bytes; past its end the bits are 0 (R102: zero-padded to a whole byte). -/
def packBytes : Nat → List Bool → List Byte
  | 0, _ => []
  | n + 1, bits => BitVec.ofNat 8 (ofBits (bits.take 8)) :: packBytes n (bits.drop 8)

/-- The bytes cut into sub-blocks of 255 and one final shorter one, each preceded by its length byte (R102). `fuel` bounds their number. -/
def fullBlocks : Nat → List Byte → List Byte
  | 0, _ => []
  | _ + 1, [] => []
  | fuel + 1, b :: bytes =>
    let block := (b :: bytes).take 255
    BitVec.ofNat 8 block.length :: block ++ fullBlocks fuel ((b :: bytes).drop 255)

/-- The bytes cut into sub-blocks of the listed sizes, each preceded by its length byte; a listed size 0 is a zero-length sub-block, wherever
it stands (R102). DESIGN CHOICE, where R102 does not say what a listing stands for (the assumption log's entry 25): a size larger than the
bytes left is shortened to them, length byte and all, and makes no sub-block when none are left; a size above 255 counts as 255; bytes left
over after the last size are cut as with no sizes. -/
def subBlocks : List Nat → List Byte → List Byte
  | [], bytes => fullBlocks bytes.length bytes
  | size :: sizes, bytes =>
    if size ≠ 0 ∧ bytes = [] then subBlocks sizes bytes
    else
      let block := bytes.take (min size 255)
      BitVec.ofNat 8 block.length :: block ++ subBlocks sizes (bytes.drop (min size 255))

/-- The bytes of `CODES mcs=M [sizes=...]: c1/w1 c2/w2 ...` (R102): the content of IN. -/
def codesListing (mcs : Byte) (sizes : List Nat) (items : List CodeItem) : List Byte :=
  let bits := listingBits items
  mcs :: subBlocks sizes (packBytes ((bits.length + 7) / 8) bits)

/-! ## The opcode table's numbering -/

/-- Byte lane `j` of a register word: bits [8j+7:8j] (20_memory.md R66). -/
def laneByte (w : Word) (j : Nat) : Byte := w.extractLsb' (8 * j) 8

/-- The register word of four byte lanes, lane 0 the lowest bits (R66). -/
def wordOfLanes (b0 b1 b2 b3 : Byte) : Word := b3 ++ b2 ++ b1 ++ b0

/-- The command word whose bits are `w`, laid out in byte lanes as a platform that numbers bytes stores it, and read back (R66). -/
def tableCmdWord (w : Nat) : Word :=
  let v := BitVec.ofNat 32 w
  wordOfLanes (laneByte v 0) (laneByte v 1) (laneByte v 2) (laneByte v 3)

/-- A decoder state for words whose format does not depend on it. -/
def Ctx.none : Ctx := ⟨1, 2, 3, false, 1, 0, false, 0, 0⟩

/-- The instruction the decoder reads from the opcode table's word `w` of `nbits` bits. Only the CMD rows have words of bits there,
32 each (R96); the bits above `nbits` are 0. A longer word is no word of this hardware (R100). -/
def decodeTableWord (nbits w : Nat) : Option Instr :=
  if nbits ≤ 32 then (decode Ctx.none (.cmd (tableCmdWord (w % 2 ^ nbits)))).toOption else Option.none

end Sys2Proof
end

