-- ==== Sys2Proof/Machine/State.lean ====
section
/-! DEFINITION. The state of the block: everything 10_state.md gives it, the four buffers of 20_memory.md R60, and the moves the host
and the platform still make (the assumption log's entry 2). Plain data; what reset leaves is at the end (R50). -/

namespace Sys2Proof.Machine

/-- The bytes of a buffer by byte offset, in rising order; an offset not listed reads as `Memory.unlisted`. -/
abbrev Memory := List Host.Cell

/-- The listed entries of a code-table array by code, in rising order; an entry not listed reads as the draw TABLE_INIT (R48). -/
abbrev Table (α : Type) := List (Nat × α)

/-- The sequencer's position (10_state.md R40). -/
inductive Seq where
  | idle | decode | composite
deriving DecidableEq, Repr

/-- The command a legal CMD word starts (30_encoding.md R96). -/
inductive Command where
  | decode | composite | decodeComposite
deriving DecidableEq, Repr

/-- STATUS.DEC_STOP (10_state.md R23): only the values 0..6 are ever produced. -/
inductive DecStop where
  | none | count | endCode | codeRange | stackOverflow | inExhausted | zeroBlock
deriving DecidableEq, Repr

/-- STATUS.ERR_CODE (R24): only the values 0..5 are ever produced. -/
inductive ErrCode where
  | none | badCmd | badMcs | idxRange | pixRange | ctRange
deriving DecidableEq, Repr

/-- The fields of STATUS that are stored (R22); ERR is computed from ERR_CODE (R24). -/
structure Status where
  busy    : Bool
  done    : Bool
  wbusy   : Bool
  decStop : DecStop
  errCode : ErrCode
deriving DecidableEq, Repr

/-- The configuration registers, with their defined bits only (R25 to R33): reserved bits read 0. -/
structure Regs where
  interlaced : Bool
  irqEn      : Bool
  tindex     : Byte
  ten        : Bool
  inLen      : Word
  pixelCount : Word
  idxLen     : Word
  ctLen      : BitVec 9
  imgW       : BitVec 16
  imgH       : BitVec 16
  frameW     : BitVec 16
  frameH     : BitVec 16
  offX       : BitVec 16
  offY       : BitVec 16
deriving DecidableEq, Repr

/-- The result registers OUT_COUNT, IN_POS, CMP_COUNT and PIX_WRITTEN (R34 to R37). -/
structure Results where
  outCount   : Word
  inPos      : Word
  cmpCount   : Word
  pixWritten : Word
deriving DecidableEq, Repr

/-- The datapath registers of the LZW Decoder (R42), the arrays PREFIX (`pfx`), SUFFIX (`sfx`) and STACK (R44 to R46), and the number of
the TABLE_INIT draw that unlisted table entries read (R48). -/
structure Decoder where
  mcs       : BitVec 4
  clear     : BitVec 9
  endCode   : BitVec 9
  csize     : BitVec 4
  mask      : BitVec 12
  avail     : BitVec 13
  prev      : BitVec 12
  prevV     : Bool
  first     : BitVec 12
  acc       : Word
  nbits     : BitVec 5
  brem      : Byte
  ipos      : Word
  ocnt      : Word
  npix      : Word
  top       : BitVec 13
  pfx       : Table (BitVec 12)
  sfx       : Table Byte
  stack     : Memory
  tableDraw : Nat
deriving DecidableEq, Repr

/-- The datapath registers of the Pixel Compositor (R43). -/
structure Compositor where
  cpos : Word
  pwr  : Word
deriving DecidableEq, Repr

/-- The four buffer spaces (20_memory.md R60), each by byte offset; word `k` of CT and PIX stands at bytes 4k..4k+3 (R67). -/
structure Buffers where
  inp : Memory
  idx : Memory
  ct  : Memory
  pix : Memory
deriving DecidableEq, Repr

/-- The name of a buffer space (R60). -/
inductive Space where
  | inp | idx | ct | pix
deriving DecidableEq, Repr

/-- A move of the host or the platform (20_memory.md R74, 30_encoding.md R101, 70_reset_and_hazards.md R260). -/
inductive HostMove where
  /-- One register access. -/
  | access (a : BusAccess)
  /-- The host waits for one step of the sequencer. -/
  | tick
  /-- WAIT: repeat RD STATUS until DONE = 1 (R101). -/
  | wait
  /-- The platform asserts reset and releases it, at once (R260; DESIGN CHOICE, the assumption log's entry 23). -/
  | reset
  /-- The host writes unit `k` of a buffer: a byte of IN or IDX, a word of CT or PIX. -/
  | put (sp : Space) (k : Nat) (v : Word)
  /-- The host reads unit `k` of a buffer. -/
  | get (sp : Space) (k : Nat)
deriving DecidableEq, Repr

/-- The MODEL's own fields: the host's script, what its last read returned, the counter of free values, and what each buffer write of
the running command overwrote, newest first (byte offset of IDX, word index of PIX). -/
structure Env where
  host   : List HostMove
  rdata  : Word
  draws  : Nat
  idxLog : List (Nat × Byte)
  pixLog : List (Nat × Word)
deriving DecidableEq, Repr

/-- The machine. `op` is the command that runs; it means something only while SEQ is not IDLE. -/
structure State where
  seq     : Seq
  op      : Command
  status  : Status
  regs    : Regs
  results : Results
  dec     : Decoder
  cmp     : Compositor
  buf     : Buffers
  env     : Env
deriving DecidableEq, Repr

/-- Why a step stops with a fault. -/
inductive Fault where
  /-- Raised by a host buffer move at a unit no register setting makes part of that buffer (20_memory.md R60). Safe: the model stops. -/
  | bufferOffset
deriving DecidableEq, Repr

/-- Why a step is refused. -/
inductive Refusal where
  /-- An instruction that has no meaning yet. Safe. -/
  | notModelled (mnemonic : String)
  /-- Raised by WR, RD and the decoder: a register access that is not 32 bits wide at a multiple of 4 in 0x00..0xFC (20_memory.md R68,
  "a model refuses it"). Safe. -/
  | registerAccess
  /-- Raised by a host write to IN, CT or IDX, or to a PIX word the command may write, while BUSY = 1 (20_memory.md R78,
  70_reset_and_hazards.md R266: "A model gives the host no such move"). Safe. -/
  | bufferWhileBusy
  /-- Raised by the decoder: CSIZE outside 1..12, which no run reaches (10_state.md R55). Safe. -/
  | codeWidth
deriving DecidableEq, Repr

namespace State

/-! The updates of one group. -/

def withSeq (s : State) (x : Seq) : State := { s with seq := x }
def withOp (s : State) (x : Command) : State := { s with op := x }
def withStatus (s : State) (x : Status) : State := { s with status := x }
def withRegs (s : State) (x : Regs) : State := { s with regs := x }
def withResults (s : State) (x : Results) : State := { s with results := x }
def withDec (s : State) (x : Decoder) : State := { s with dec := x }
def withCmp (s : State) (x : Compositor) : State := { s with cmp := x }
def withBuf (s : State) (x : Buffers) : State := { s with buf := x }
def withEnv (s : State) (x : Env) : State := { s with env := x }

end State

/-- STATUS after reset: 0x00000000 (R50). -/
def Status.reset : Status := ⟨false, false, false, .none, .none⟩

/-- The configuration registers after reset: all 0 (R50). -/
def Regs.reset : Regs := ⟨false, false, 0, false, 0, 0, 0, 0, 0, 0, 0, 0, 0, 0⟩

/-- The result registers after reset: all 0 (R50). -/
def Results.reset : Results := ⟨0, 0, 0, 0⟩

/-- The decoder's datapath after reset: the spec gives no value (R50); the model names 0 for each register and lists no table entry
(DESIGN CHOICE, the assumption log's entry 9). -/
def Decoder.reset : Decoder :=
  ⟨0, 0, 0, 0, 0, 0, 0, false, 0, 0, 0, 0, 0, 0, 0, 0, [], [], [], 0⟩

/-- The compositor's datapath after reset (DESIGN CHOICE 0, entry 9). -/
def Compositor.reset : Compositor := ⟨0, 0⟩

/-- The machine right after reset (R50, R260): IDLE, every host-visible register 0, nothing listed in any buffer, no move to make. -/
def State.reset : State :=
  { seq := .idle, op := .decode, status := Status.reset, regs := Regs.reset, results := Results.reset, dec := Decoder.reset,
    cmp := Compositor.reset, buf := ⟨[], [], [], []⟩, env := ⟨[], 0, 1, [], []⟩ }

end Sys2Proof.Machine
end

