-- ==== Sys2Proof/Machine/Memory.lean ====
section
/-! DEFINITION. Reading and writing the buffers, the pixel stack and the code table (00_scope.md R12, 20_memory.md R60 to R67). -/

namespace Sys2Proof.Machine

/-! ## Lists of entries in rising order -/

/-- The entry listed at `a`, if any. -/
def Table.find {α : Type} : Table α → Nat → Option α
  | [], _ => none
  | (k, v) :: t, a => if k = a then some v else Table.find t a

/-- The list with entry `a` set, kept in rising order. -/
def Table.put {α : Type} : Table α → Nat → α → Table α
  | [], a, v => [(a, v)]
  | (k, w) :: t, a, v =>
    if a < k then (a, v) :: (k, w) :: t
    else if a = k then (a, v) :: t
    else (k, w) :: Table.put t a v

/-- The list without entry `a`. -/
def Table.erase {α : Type} : Table α → Nat → Table α
  | [], _ => []
  | (k, w) :: t, a => if k = a then t else (k, w) :: Table.erase t a

/-- The keys rise strictly. -/
abbrev Table.rising {α : Type} (t : Table α) : Prop := t.Pairwise fun c d => c.1 < d.1

/-! ## Bytes -/

/-- What a byte of a buffer that nothing has written reads as. DESIGN CHOICE: the spec gives the buffers no contents (00_scope.md R9,
BUF_*); unsafe, the assumption log's entry 3. -/
def Memory.unlisted : Byte := 0

/-- MemRead(S, a, 1) (R12). -/
def Memory.read (m : Memory) (a : Nat) : Byte := (Table.find m a).getD Memory.unlisted

/-- MemWrite(S, a, 1, v) (R12). A byte equal to what an unlisted offset reads as is taken out of the list. -/
def Memory.write (m : Memory) (a : Nat) (v : Byte) : Memory :=
  if v = Memory.unlisted then Table.erase m a else Table.put m a v

/-- The canonical form: offsets rise strictly and no entry equals what an unlisted offset reads as. -/
abbrev Memory.wf (m : Memory) : Prop := Table.rising m ∧ ∀ c ∈ m, c.2 ≠ Memory.unlisted

/-! ## Words: CT and PIX are accessed by word index (R67) -/

/-- MemRead(S, k, 4) at word index `k`: the bytes at 4k..4k+3. DESIGN CHOICE: lane j of the word at byte 4k + j (entry 4). -/
def Memory.readWord (m : Memory) (k : Nat) : Word :=
  wordOfLanes (Memory.read m (4 * k)) (Memory.read m (4 * k + 1)) (Memory.read m (4 * k + 2)) (Memory.read m (4 * k + 3))

/-- MemWrite(S, k, 4, v) at word index `k`. -/
def Memory.writeWord (m : Memory) (k : Nat) (v : Word) : Memory :=
  Memory.write (Memory.write (Memory.write (Memory.write m (4 * k) (laneByte v 0)) (4 * k + 1) (laneByte v 1))
    (4 * k + 2) (laneByte v 2)) (4 * k + 3) (laneByte v 3)

/-! ## The code table and the pixel stack -/

/-- PREFIX[c] (10_state.md R44, R48). -/
def Decoder.prefixAt (d : Decoder) (c : Nat) : BitVec 12 := (Table.find d.pfx c).getD (Config.tableInitPrefix d.tableDraw c)

/-- SUFFIX[c] (R45, R48). -/
def Decoder.suffixAt (d : Decoder) (c : Nat) : Byte := (Table.find d.sfx c).getD (Config.tableInitSuffix d.tableDraw c)

/-- TOP <- 0: the stack is empty at the start of every code's expansion (R46). -/
def Decoder.emptyStack (d : Decoder) : Decoder := { d with top := 0#13 }

/-- Push: STACK[TOP] <- v, then TOP goes up by one (R46). -/
def Decoder.push (d : Decoder) (v : Byte) : Decoder :=
  { d with stack := Memory.write d.stack d.top.toNat v, top := d.top + 1#13 }

/-- Pop: TOP goes down by one; the byte popped is then `poppedByte` (R46). -/
def Decoder.pop (d : Decoder) : Decoder := { d with top := d.top - 1#13 }

/-- STACK[TOP] (R46), the byte a pop reads after TOP has gone down. -/
def Decoder.poppedByte (d : Decoder) : Byte := Memory.read d.stack d.top.toNat

end Sys2Proof.Machine
end

