-- ==== Sys2Proof/Machine/Operands.lean ====
section
/-! DEFINITION. Every operand form: the register window (10_state.md R20 to R38), the code field of the accumulator (41_lzw_decoder.md
R158), and the coordinates and destination of an index position (42_compositor.md R203 to R206). -/

namespace Sys2Proof.Machine

/-! ## The register window -/

/-- The names of the register map (R20). -/
inductive RegName where
  | cmd | status | mode | transp | inLen | pixelCount | idxLen | ctLen | imgW | imgH | frameW | frameH | offX | offY
  | outCount | inPos | cmpCount | pixWritten | reserved
deriving DecidableEq, Repr

/-- The register at a byte offset of the window (R20). -/
def regAt (offset : BitVec 8) : RegName :=
  match offset.toNat / 4 with
  | 0 => .cmd
  | 1 => .status
  | 2 => .mode
  | 3 => .transp
  | 4 => .inLen
  | 5 => .pixelCount
  | 6 => .idxLen
  | 7 => .ctLen
  | 8 => .imgW
  | 9 => .imgH
  | 10 => .frameW
  | 11 => .frameH
  | 12 => .offX
  | 13 => .offY
  | 14 => .outCount
  | 15 => .inPos
  | 16 => .cmpCount
  | 17 => .pixWritten
  | _ => .reserved

/-- A configuration register: one the host writes and only the host changes (40_commands.md R128). -/
def RegName.isConfig : RegName → Bool
  | .mode | .transp | .inLen | .pixelCount | .idxLen | .ctLen | .imgW | .imgH | .frameW | .frameH | .offX | .offY => true
  | _ => false

/-- What CT_LEN stores of a written value: min(v, 256) (R30). -/
def legalCtLen (v : Word) : BitVec 9 := BitVec.ofNat 9 (min v.toNat 256)

/-- `REG <- legalise(REG, DATA)` (R120; R25 to R33): the defined bits are stored, reserved bits are dropped. -/
def Regs.store (r : Regs) (n : RegName) (v : Word) : Regs :=
  match n with
  | .mode => { r with interlaced := v.getLsbD 0, irqEn := v.getLsbD 1 }
  | .transp => { r with tindex := v.extractLsb' 0 8, ten := v.getLsbD 8 }
  | .inLen => { r with inLen := v }
  | .pixelCount => { r with pixelCount := v }
  | .idxLen => { r with idxLen := v }
  | .ctLen => { r with ctLen := legalCtLen v }
  | .imgW => { r with imgW := v.extractLsb' 0 16 }
  | .imgH => { r with imgH := v.extractLsb' 0 16 }
  | .frameW => { r with frameW := v.extractLsb' 0 16 }
  | .frameH => { r with frameH := v.extractLsb' 0 16 }
  | .offX => { r with offX := v.extractLsb' 0 16 }
  | .offY => { r with offY := v.extractLsb' 0 16 }
  | _ => r

/-- A one-bit field at bit `n` of a word. -/
def bitAt (b : Bool) (n : Nat) : Word := BitVec.ofNat 32 (b.toNat * 2 ^ n)

/-- What a configuration register reads as, reserved bits 0 (R25 to R33, R121). -/
def Regs.load (r : Regs) (n : RegName) : Word :=
  match n with
  | .mode => bitAt r.interlaced 0 ||| bitAt r.irqEn 1
  | .transp => r.tindex.setWidth 32 ||| bitAt r.ten 8
  | .inLen => r.inLen
  | .pixelCount => r.pixelCount
  | .idxLen => r.idxLen
  | .ctLen => r.ctLen.setWidth 32
  | .imgW => r.imgW.setWidth 32
  | .imgH => r.imgH.setWidth 32
  | .frameW => r.frameW.setWidth 32
  | .frameH => r.frameH.setWidth 32
  | .offX => r.offX.setWidth 32
  | .offY => r.offY.setWidth 32
  | _ => 0

/-- The access names no register word: its offset is not a multiple of 4 (20_memory.md R68). -/
def misaligned (offset : BitVec 8) : Bool := offset.toNat % 4 != 0

/-! ## The code field -/

/-- (1 << CSIZE) - 1, the value MASK takes (R152, R169). -/
def maskOf (csize : BitVec 4) : BitVec 12 := BitVec.ofNat 12 (2 ^ csize.toNat - 1)

/-- The bits ACC[CSIZE-1:0], bit 0 first (R92, R158). -/
def Decoder.codeBits (d : Decoder) : List Bool := toBits d.csize.toNat d.acc.toNat

/-- `extract` (R158): the accumulator shifted right by CSIZE, the bit count down by CSIZE. -/
def Decoder.consume (d : Decoder) : Decoder :=
  { d with acc := d.acc >>> d.csize.toNat, nbits := BitVec.ofNat 5 (d.nbits.toNat - d.csize.toNat) }

/-- The decoder state a word's class depends on (30_encoding.md R94, R98; R156). -/
def State.ctx (s : State) : Ctx :=
  { clear := s.dec.clear.toNat, endCode := s.dec.endCode.toNat, avail := s.dec.avail.toNat, prevV := s.dec.prevV,
    csize := s.dec.csize.toNat, brem := s.dec.brem.toNat, ten := s.regs.ten, tindex := s.regs.tindex, ctLen := s.regs.ctLen.toNat }

/-! ## Geometry: exact arithmetic on naturals (92_eei_decisions.md D39) -/

/-- The number of index positions N = FRAME_W * FRAME_H (R200). -/
def Regs.positions (r : Regs) : Nat := r.frameW.toNat * r.frameH.toNat

/-- The number of words of PIX, IMG_W * IMG_H (R60). -/
def Regs.canvas (r : Regs) : Nat := r.imgW.toNat * r.imgH.toNat

/-- rowmap(r, FH): the display row of source row `r` of an interlaced frame of `fh` rows (R205). -/
def rowmap (r fh : Nat) : Nat :=
  let n0 := (fh + 7) / 8
  let n1 := (fh + 3) / 8
  let n2 := (fh + 1) / 4
  if r < n0 then 8 * r
  else if r < n0 + n1 then 8 * (r - n0) + 4
  else if r < n0 + n1 + n2 then 4 * (r - n0 - n1) + 2
  else 2 * (r - n0 - n1 - n2) + 1

/-- The destination row of source row `r` (R204, R205). -/
def Regs.displayRow (g : Regs) (r : Nat) : Nat := if g.interlaced then rowmap r g.frameH.toNat else r

/-- dest(x, y): the destination word offset (R206). -/
def Regs.dest (g : Regs) (x y : Nat) : Nat := (y + g.offY.toNat) * g.imgW.toNat + g.offX.toNat + x

/-- coords(i) and dest together: the destination of index position `i` (R203, R206). -/
def Regs.destOf (g : Regs) (i : Nat) : Nat := g.dest (i % g.frameW.toNat) (g.displayRow (i / g.frameW.toNat))

/-- geometry_ok(): the largest destination lies inside PIX, or nothing will be written (R201). -/
def Regs.geometryOk (g : Regs) : Bool :=
  g.frameW == 0 || g.frameH == 0 ||
    decide ((g.offY.toNat + g.frameH.toNat - 1) * g.imgW.toNat + g.offX.toNat + g.frameW.toNat - 1 < g.canvas)

/-- Word `d` of PIX is one the compositor may write: it lies in the run of FRAME_W words of some frame row (R214). -/
def Regs.inFootprint (g : Regs) (d : Nat) : Bool :=
  (List.range g.frameH.toNat).any fun y => decide (g.dest 0 y ≤ d ∧ d < g.dest 0 y + g.frameW.toNat)

end Sys2Proof.Machine
end

