-- ==== Sys2Proof/Machine/Flags.lean ====
section
/-! DEFINITION. Every flag computation: the STATUS word, its write, the interrupt line (10_state.md R22 to R24, R39; 40_commands.md R130;
60_exceptions.md R235). -/

namespace Sys2Proof.Machine

/-- The number of a DEC_STOP value (R23). -/
def DecStop.code : DecStop → Nat
  | .none => 0
  | .count => 1
  | .endCode => 2
  | .codeRange => 3
  | .stackOverflow => 4
  | .inExhausted => 5
  | .zeroBlock => 6

/-- The number of an ERR_CODE value (R24). -/
def ErrCode.code : ErrCode → Nat
  | .none => 0
  | .badCmd => 1
  | .badMcs => 2
  | .idxRange => 3
  | .pixRange => 4
  | .ctRange => 5

/-- STATUS.ERR = (ERR_CODE != 0) (R24). -/
def Status.err (t : Status) : Bool := t.errCode != .none

/-- The STATUS word of its fields, reserved bits 0 (R22). -/
def statusBits (busy done err wbusy : Bool) (decStop errCode : Nat) : Word :=
  bitAt busy 0 ||| bitAt done 1 ||| bitAt err 2 ||| bitAt wbusy 4 ||| BitVec.ofNat 32 (decStop * 2 ^ 8)
    ||| BitVec.ofNat 32 (errCode * 2 ^ 16)

/-- What a read of STATUS returns (R22). While BUSY = 1, DONE reads 0 and ERR, DEC_STOP and ERR_CODE are the fields of the draw
`draw` of BUSY_READ. -/
def Status.word (t : Status) (draw : Nat) : Word :=
  if t.busy then
    let d := Config.busyRead draw
    statusBits true false (d.getLsbD 2) t.wbusy (d.extractLsb' 8 4).toNat (d.extractLsb' 16 4).toNat
  else statusBits false t.done t.err t.wbusy t.decStop.code t.errCode.code

/-- DONE as a read of STATUS shows it (R22). -/
def Status.doneSeen (t : Status) : Bool := !t.busy && t.done

/-- write_status(D): bit 1 clears DONE, bit 4 clears WBUSY, nothing else changes (R130). -/
def Status.acknowledge (t : Status) (v : Word) : Status :=
  { t with done := t.done && !v.getLsbD 1, wbusy := t.wbusy && !v.getLsbD 4 }

/-- The interrupt line: IRQ = STATUS.DONE AND MODE.IRQ_EN, as a level (R235). -/
def State.irq (s : State) : Bool := s.status.done && s.regs.irqEn

end Sys2Proof.Machine
end

