-- ==== Sys2Proof/Machine/Ops.lean ====
section
/-! DEFINITION. The shared operations: how a command starts and ends (40_commands.md R122, R127), how a decode stops and an error is
raised (00_scope.md R13, 60_exceptions.md R230, R231; the block has no trap, R233), the two phases' entries, the decoder's primitives
(41_lzw_decoder.md R150 to R179) and the compositor's (42_compositor.md R200 to R210). -/

namespace Sys2Proof.Machine

/-! ## The end of a command -/

/-- finish(): the counters are latched, BUSY <- 0, DONE <- 1, SEQ <- IDLE (R127). -/
def finish (s : State) : State :=
  ((s.withResults ⟨s.dec.ocnt, s.dec.ipos, s.cmp.cpos, s.cmp.pwr⟩).withStatus
    { s.status with busy := false, done := true }).withSeq .idle

/-- raise Error(code): ERR_CODE is recorded and the command ends (R13, R127, R231). -/
def raiseError (e : ErrCode) (s : State) : State := finish (s.withStatus { s.status with errCode := e })

/-- run_composite: its checks, then the start of the position walk (R200 to R202). -/
def runComposite (s : State) : State :=
  if s.regs.idxLen.toNat < s.regs.positions then raiseError .idxRange s
  else if s.regs.geometryOk = false then raiseError .pixRange s
  else (s.withCmp { s.cmp with cpos := 0#32 }).withSeq .composite

/-- stop_decode(reason): DEC_STOP is recorded; DECODE finishes, DECODE_COMPOSITE goes on to the composite phase (R171). -/
def stopDecode (r : DecStop) (s : State) : State :=
  let t := s.withStatus { s.status with decStop := r }
  match s.op with
  | .decodeComposite => runComposite t
  | _ => finish t

/-! ## The start of a command -/

/-- OCNT <- 0; IPOS <- 0 (R122). -/
def Decoder.resetCursors (d : Decoder) : Decoder := { d with ocnt := 0#32, ipos := 0#32 }

/-- IPOS <- v (R151). -/
def Decoder.withIpos (d : Decoder) (v : Word) : Decoder := { d with ipos := v }

/-- NPIX <- v (R123, R125). -/
def Decoder.withNpix (d : Decoder) (v : Word) : Decoder := { d with npix := v }

/-- What every CMD write while BUSY = 0 does first (R122; the result registers are zeroed, 92_eei_decisions.md D38). -/
def beginCommand (s : State) : State :=
  (((((s.withStatus { s.status with done := false, errCode := .none, decStop := .none }).withResults Results.reset).withDec
    s.dec.resetCursors).withCmp ⟨0#32, 0#32⟩).withEnv { s.env with idxLog := [], pixLog := [] })

/-- The start of a legal command: BUSY <- 1 (R122), and the sequencer knows which command it runs. -/
def startLegal (op : Command) (s : State) : State :=
  let t := beginCommand s
  (t.withStatus { t.status with busy := true }).withOp op

/-- PREFIX after init_table: 0 for each root code, every other entry the draw (R153). -/
def rootPrefixes (clear : Nat) : Table (BitVec 12) := (List.range clear).map fun c => (c, 0)

/-- SUFFIX after init_table: c[7:0] for each root code, every other entry the draw (R153). -/
def rootSuffixes (clear : Nat) : Table Byte := (List.range clear).map fun c => (c, BitVec.ofNat 8 c)

/-- init_codes, init_table and init_state for the minimum code size `m` (R151 to R154); `draw` is the TABLE_INIT of this decode. -/
def Decoder.start (d : Decoder) (m : Byte) (draw : Nat) : Decoder :=
  { d with
    mcs := m.setWidth 4
    clear := BitVec.ofNat 9 (2 ^ m.toNat)
    endCode := BitVec.ofNat 9 (2 ^ m.toNat + 1)
    csize := m.setWidth 4 + 1#4
    mask := maskOf (m.setWidth 4 + 1#4)
    pfx := rootPrefixes (2 ^ m.toNat)
    sfx := rootSuffixes (2 ^ m.toNat)
    tableDraw := draw
    avail := BitVec.ofNat 13 (2 ^ m.toNat + 2)
    prevV := false
    prev := 0#12
    first := 0#12
    acc := 0#32
    nbits := 0#5
    brem := 0#8
    ocnt := 0#32
    top := 0#13 }

/-- run_decode up to its loop: read_mcs (R151), then the initialisation (R150, R152 to R154). -/
def runDecode (s : State) : State :=
  if s.regs.inLen = 0 then stopDecode .inExhausted s
  else
    let m := Memory.read s.buf.inp 0
    let t := s.withDec (s.dec.withIpos 1#32)
    if Config.maxMcs < m.toNat then raiseError .badMcs t
    else ((t.withDec (t.dec.start m s.env.draws)).withEnv { t.env with draws := s.env.draws + 1 }).withSeq .decode

/-- The body of DECODE (R123). -/
def commandDecode (s : State) : State :=
  let t := s.withDec (s.dec.withNpix s.regs.pixelCount)
  if t.regs.idxLen.toNat < t.dec.npix.toNat then raiseError .idxRange t else runDecode t

/-- The body of COMPOSITE (R124). -/
def commandComposite (s : State) : State := runComposite s

/-- The body of DECODE_COMPOSITE (R125). -/
def commandDecodeComposite (s : State) : State :=
  if s.regs.idxLen.toNat < s.regs.positions then raiseError .idxRange s
  else if s.regs.geometryOk = false then raiseError .pixRange s
  else runDecode (s.withDec (s.dec.withNpix (BitVec.ofNat 32 s.regs.positions)))

/-- A write that BUSY = 1 turns away: it is ignored and sets WBUSY (R128). -/
def busyWrite (s : State) : State := s.withStatus { s.status with wbusy := true }

/-- A CMD write: turned away while BUSY = 1 (R128), else the command `body` after R122's start. -/
def cmdWrite (body : State → State) (s : State) : State := if s.status.busy then busyWrite s else body s

/-- BAD_CMD: the start of R122, then ERR_CODE <- BAD_CMD and finish; BUSY is never 1 (R126). -/
def startBad (s : State) : State := raiseError .badCmd (beginCommand s)

/-- start_command(W) (R122), by the fields OP and RSV of W (30_encoding.md R96). -/
def startCommand (w : Word) (s : State) : State :=
  if w.extractLsb' 2 30 != 0 then startBad s
  else if w.extractLsb' 0 2 == 1#2 then commandDecode (startLegal .decode s)
  else if w.extractLsb' 0 2 == 2#2 then commandComposite (startLegal .composite s)
  else if w.extractLsb' 0 2 == 3#2 then commandDecodeComposite (startLegal .decodeComposite s)
  else startBad s

/-! ## The decoder -/

/-- emit(v): IDX[OCNT] <- v, OCNT up by one (R179). The byte overwritten is logged for RESET_PARTIAL. -/
def emit (v : Byte) (s : State) : State :=
  ((s.withBuf { s.buf with idx := Memory.write s.buf.idx s.dec.ocnt.toNat v }).withDec
    { s.dec with ocnt := s.dec.ocnt + 1#32 }).withEnv
    { s.env with idxLog := (s.dec.ocnt.toNat, Memory.read s.buf.idx s.dec.ocnt.toNat) :: s.env.idxLog }

/-- How a trie walk ends. -/
inductive Walk where
  /-- At the root code `r`. -/
  | root (r : BitVec 12) (d : Decoder)
  /-- At a push with TOP = 4097. -/
  | overflow (d : Decoder)
deriving DecidableEq, Repr

/-- expand(c): push SUFFIX along the PREFIX chain until a root code (R166). `fuel` is at least the pushes still possible. -/
def expand : Nat → BitVec 12 → Decoder → Walk
  | fuel, c, d =>
    if c.toNat < d.clear.toNat then .root c d
    else match fuel with
      | 0 => .overflow d
      | n + 1 =>
        if d.top.toNat = Config.stackCap then .overflow d
        else expand n (d.prefixAt c.toNat) (d.push (d.suffixAt c.toNat))

/-- Pop and emit the stack in LIFO order, at most `n` entries; `true` when OCNT reached NPIX (R167). -/
def popAll : Nat → State → State × Bool
  | 0, s => (s, false)
  | n + 1, s =>
    let d := s.dec.pop
    let t := emit d.poppedByte (s.withDec d)
    if t.dec.ocnt = t.dec.npix then (t, true) else popAll n t

/-- emit_expansion(): FIRST[7:0], then the whole stack, with the count stop after every byte (R167). -/
def emitExpansion (s : State) : State × Bool :=
  let t := emit (s.dec.first.setWidth 8) s
  if t.dec.ocnt = t.dec.npix then (t, true) else popAll t.dec.top.toNat t

/-- widen(): CSIZE grows by one when AVAIL > MASK and AVAIL < 4096 (R169). -/
def Decoder.widen (d : Decoder) : Decoder :=
  if d.mask.toNat < d.avail.toNat ∧ d.avail.toNat < Config.maxCodes then
    { d with csize := d.csize + 1#4, mask := maskOf (d.csize + 1#4) }
  else d

/-- define(): the entry at AVAIL, while AVAIL < 4096 (R168). -/
def Decoder.define (d : Decoder) : Decoder :=
  if d.avail.toNat < Config.maxCodes then
    Decoder.widen
      { d with
        pfx := Table.put d.pfx d.avail.toNat d.prev
        sfx := Table.put d.sfx d.avail.toNat (d.first.setWidth 8)
        avail := d.avail + 1#13 }
  else d

/-- FIRST <- v (R164, R165). -/
def Decoder.withFirst (d : Decoder) (v : BitVec 12) : Decoder := { d with first := v }

/-- PREV <- INCODE (R170). -/
def Decoder.withPrev (d : Decoder) (incode : BitVec 12) : Decoder := { d with prev := incode }

/-- The common part of DEFINED and KWKWK: walk from `start`, set FIRST, emit, define, and PREV <- INCODE (R164, R165, R170). -/
def expandCode (start incode : BitVec 12) (s : State) : State :=
  match expand Config.stackCap start s.dec with
  | .overflow d => stopDecode .stackOverflow (s.withDec d)
  | .root r d =>
    match emitExpansion (s.withDec (d.withFirst ((d.suffixAt r.toNat).setWidth 12))) with
    | (t, true) => stopDecode .count t
    | (t, false) => t.withDec (t.dec.define.withPrev incode)

/-! ## The compositor -/

/-- The step from one index position to the next: CPOS up by one (R202). -/
def nextPosition (s : State) : State := s.withCmp { s.cmp with cpos := s.cmp.cpos + 1#32 }

/-- PIX[d] <- c, PWR up by one (R208). The word overwritten is logged for RESET_PARTIAL. -/
def writePixel (d : Nat) (c : Word) (s : State) : State :=
  ((s.withBuf { s.buf with pix := Memory.writeWord s.buf.pix d c }).withCmp { s.cmp with pwr := s.cmp.pwr + 1#32 }).withEnv
    { s.env with pixLog := (d, Memory.readWord s.buf.pix d) :: s.env.pixLog }

end Sys2Proof.Machine
end

