-- ==== Sys2Proof/Machine/Bus.lean ====
section
/-! DEFINITION. The meanings of the BUS rows: host register writes and reads (40_commands.md R120, R121). -/

namespace Sys2Proof.Machine

/-- A write to a configuration register: stored while BUSY = 0, else ignored with WBUSY set (R120, R128). -/
def configWrite (n : RegName) (data : Word) (s : State) : State :=
  if s.status.busy then busyWrite s else s.withRegs (s.regs.store n data)

/-- The effect of an aligned register write, by register (R120). -/
def writeRegister (n : RegName) (data : Word) (s : State) : State :=
  match n with
  | .cmd => cmdWrite (startCommand data) s
  | .status => s.withStatus (s.status.acknowledge data)
  | .mode => configWrite .mode data s
  | .transp => configWrite .transp data s
  | .inLen => configWrite .inLen data s
  | .pixelCount => configWrite .pixelCount data s
  | .idxLen => configWrite .idxLen data s
  | .ctLen => configWrite .ctLen data s
  | .imgW => configWrite .imgW data s
  | .imgH => configWrite .imgH data s
  | .frameW => configWrite .frameW data s
  | .frameH => configWrite .frameH data s
  | .offX => configWrite .offX data s
  | .offY => configWrite .offY data s
  | .outCount => s
  | .inPos => s
  | .cmpCount => s
  | .pixWritten => s
  | .reserved => s

/-- WR (R120); an unaligned offset is refused (20_memory.md R68). -/
def execWr (offset : BitVec 8) (data : Word) (s : State) : Host.Outcome State Fault Refusal :=
  if misaligned offset then .refused .registerAccess else .next (writeRegister (regAt offset) data s)

/-- A result register as it reads: the latched value while BUSY = 0, the draw BUSY_READ while BUSY = 1 (R121). -/
def resultRead (value : Word) (s : State) : Word := if s.status.busy then Config.busyRead s.env.draws else value

/-- What a read of a register returns (R121). -/
def readRegister (n : RegName) (s : State) : Word :=
  match n with
  | .cmd => 0
  | .status => s.status.word s.env.draws
  | .outCount => resultRead s.results.outCount s
  | .inPos => resultRead s.results.inPos s
  | .cmpCount => resultRead s.results.cmpCount s
  | .pixWritten => resultRead s.results.pixWritten s
  | .reserved => 0
  | .mode => s.regs.load .mode
  | .transp => s.regs.load .transp
  | .inLen => s.regs.load .inLen
  | .pixelCount => s.regs.load .pixelCount
  | .idxLen => s.regs.load .idxLen
  | .ctLen => s.regs.load .ctLen
  | .imgW => s.regs.load .imgW
  | .imgH => s.regs.load .imgH
  | .frameW => s.regs.load .frameW
  | .frameH => s.regs.load .frameH
  | .offX => s.regs.load .offX
  | .offY => s.regs.load .offY

/-- The value goes to the host; every read takes a draw of its own (R121, BUSY_READ is any value per read). -/
def answerRead (v : Word) (s : State) : State := s.withEnv { s.env with rdata := v, draws := s.env.draws + 1 }

/-- RD (R121); an unaligned offset is refused (20_memory.md R68). The block's own state does not change (R70). -/
def execRd (offset : BitVec 8) (s : State) : Host.Outcome State Fault Refusal :=
  if misaligned offset then .refused .registerAccess else .next (answerRead (readRegister (regAt offset) s) s)

end Sys2Proof.Machine
end

