-- ==== Sys2Proof/Machine/Codes.lean ====
section
/-! DEFINITION. The meanings of the CODE rows (41_lzw_decoder.md R160 to R165). The code has been extracted before (R150, R158). -/

namespace Sys2Proof.Machine

/-- CLEAR (R160): code width, mask, AVAIL and the previous code start again; the accumulator and the table stay (C4, 10_state.md R47). -/
def execClear (_code : BitVec 12) (s : State) : Host.Outcome State Fault Refusal :=
  .next (s.withDec
    { s.dec with
      csize := s.dec.mcs + 1#4
      mask := maskOf (s.dec.mcs + 1#4)
      avail := BitVec.ofNat 13 (s.dec.clear.toNat + 2)
      prevV := false })

/-- END (R161). -/
def execEnd (_code : BitVec 12) (s : State) : Host.Outcome State Fault Refusal := .next (stopDecode .endCode s)

/-- RANGE (R162). -/
def execRange (_code : BitVec 12) (s : State) : Host.Outcome State Fault Refusal := .next (stopDecode .codeRange s)

/-- FIRST (R163): SUFFIX[code] is emitted; the code is remembered as the previous code and as FIRST. -/
def execFirst (code : BitVec 12) (s : State) : Host.Outcome State Fault Refusal :=
  let t := emit (s.dec.suffixAt code.toNat) s
  .next (t.withDec { t.dec with prev := code, prevV := true, first := code })

/-- DEFINED (R164). -/
def execDefined (code : BitVec 12) (s : State) : Host.Outcome State Fault Refusal :=
  .next (expandCode code code (s.withDec s.dec.emptyStack))

/-- KWKWK (R165): FIRST[7:0] is pushed before the walk, which starts at the previous code. -/
def execKwkwk (code : BitVec 12) (s : State) : Host.Outcome State Fault Refusal :=
  .next (expandCode s.dec.prev code
    (s.withDec (Decoder.push s.dec.emptyStack (s.dec.first.setWidth 8))))

end Sys2Proof.Machine
end

