-- ==== Sys2Proof/Machine/Commands.lean ====
section
/-! DEFINITION. The meanings of the CMD rows (40_commands.md R123 to R126, R128). -/

namespace Sys2Proof.Machine

/-- DECODE (R122, R123). -/
def execDecode (s : State) : Host.Outcome State Fault Refusal :=
  .next (cmdWrite (fun t => commandDecode (startLegal .decode t)) s)

/-- COMPOSITE (R122, R124). -/
def execComposite (s : State) : Host.Outcome State Fault Refusal :=
  .next (cmdWrite (fun t => commandComposite (startLegal .composite t)) s)

/-- DECODE_COMPOSITE (R122, R125). -/
def execDecodeComposite (s : State) : Host.Outcome State Fault Refusal :=
  .next (cmdWrite (fun t => commandDecodeComposite (startLegal .decodeComposite t)) s)

/-- BAD_CMD (R126): every reserved word has the same effect. -/
def execBadCmd (_w : Word) (s : State) : Host.Outcome State Fault Refusal :=
  .next (cmdWrite startBad s)

end Sys2Proof.Machine
end

