-- ==== Sys2Proof/Machine/Index.lean ====
section
/-! DEFINITION. The meanings of the INDEX rows (42_compositor.md R207 to R209), each with the step to the next position (R202). -/

namespace Sys2Proof.Machine

/-- TRANSPARENT (R207): no PIX write. -/
def execTransparent (_v : Byte) (s : State) : Host.Outcome State Fault Refusal := .next (nextPosition s)

/-- CT_RANGE (R209): the command ends with CPOS at the failing position. -/
def execCtRange (_v : Byte) (s : State) : Host.Outcome State Fault Refusal := .next (raiseError .ctRange s)

/-- WRITE (R208): CT word `v` is copied unchanged to the destination of position CPOS. -/
def execWrite (v : Byte) (s : State) : Host.Outcome State Fault Refusal :=
  .next (nextPosition (writePixel (s.regs.destOf s.cmp.cpos.toNat) (Memory.readWord s.buf.ct v.toNat) s))

end Sys2Proof.Machine
end

