-- ==== Sys2Proof/Machine/Stream.lean ====
section
/-! DEFINITION. The meanings of the STREAM rows: the two byte fetches of the bit accumulator (41_lzw_decoder.md R156, R157). -/

namespace Sys2Proof.Machine

/-- A byte of IN is taken: at or beyond IN_LEN the decode stops with IN_EXHAUSTED instead (R156, R157). -/
def takeByte (effect : State → State) (s : State) : State :=
  if s.regs.inLen.toNat ≤ s.dec.ipos.toNat then stopDecode .inExhausted s else effect s

/-- BLOCK_HEADER (R156): the length byte becomes BREM; a zero length stops the decode. -/
def execBlockHeader (len : Byte) (s : State) : Host.Outcome State Fault Refusal :=
  .next (takeByte (fun t =>
    let u := t.withDec { t.dec with brem := len, ipos := t.dec.ipos + 1#32 }
    if len = 0 then stopDecode .zeroBlock u else u) s)

/-- DATA_BYTE (R157): the byte is ORed into ACC at bit NBITS. -/
def execDataByte (byte : Byte) (s : State) : Host.Outcome State Fault Refusal :=
  .next (takeByte (fun t => t.withDec
    { t.dec with
      acc := t.dec.acc ||| (byte.setWidth 32 <<< t.dec.nbits.toNat)
      ipos := t.dec.ipos + 1#32
      brem := t.dec.brem - 1#8
      nbits := t.dec.nbits + 8#5 }) s)

end Sys2Proof.Machine
end

