-- ==== Sys2Proof/Machine/Dispatch.lean ====
section
/-! DEFINITION. The dispatch: one arm per row of the opcode table. -/

namespace Sys2Proof.Machine

def exec (i : Instr) (s : State) : Host.Outcome State Fault Refusal :=
  match i with
  -- format CMD (30_encoding.md R96)
  | .decode => Sys2Proof.Machine.execDecode s
  | .composite => Sys2Proof.Machine.execComposite s
  | .decodeComposite => Sys2Proof.Machine.execDecodeComposite s
  | .badCmd w => Sys2Proof.Machine.execBadCmd w s
  -- format BUS (R97)
  | .wr offset data => Sys2Proof.Machine.execWr offset data s
  | .rd offset => Sys2Proof.Machine.execRd offset s
  -- format CODE (R94)
  | .clear code => Sys2Proof.Machine.execClear code s
  | .endCode code => Sys2Proof.Machine.execEnd code s
  | .range code => Sys2Proof.Machine.execRange code s
  | .first code => Sys2Proof.Machine.execFirst code s
  | .defined code => Sys2Proof.Machine.execDefined code s
  | .kwkwk code => Sys2Proof.Machine.execKwkwk code s
  -- format STREAM (R90)
  | .blockHeader len => Sys2Proof.Machine.execBlockHeader len s
  | .dataByte byte => Sys2Proof.Machine.execDataByte byte s
  -- format INDEX (R98)
  | .transparent v => Sys2Proof.Machine.execTransparent v s
  | .ctRange v => Sys2Proof.Machine.execCtRange v s
  | .write v => Sys2Proof.Machine.execWrite v s

end Sys2Proof.Machine
end

