-- ==== Sys2Proof/Machine/Sequencer.lean ====
section
/-! DEFINITION. The sequencer: which word it takes next, and what becomes of a word (40_commands.md R131; 41_lzw_decoder.md R150, R155;
42_compositor.md R202). -/

namespace Sys2Proof.Machine

/-- The next thing to happen. -/
inductive Fetched where
  /-- A word to decode, and the state after it has been taken. -/
  | word (raw : Raw) (s : State)
  /-- A move that runs no instruction: the end of a phase, a buffer access, reset, or waiting. -/
  | move (s : State)
  | fault (r : Fault)
  | refused (r : Refusal)
deriving DecidableEq, Repr

/-- The sequencer's next step: nothing when IDLE (70_reset_and_hazards.md R263); in the decode phase the count stop at the loop top
(R155), the byte refill needs (R156, R157), or the next code (R158); in the composite phase its end (R210) or the next index byte
(R202). -/
def sequencer (s : State) : Fetched :=
  match s.seq with
  | .idle => .move s
  | .decode =>
    if s.dec.npix.toNat ≤ s.dec.ocnt.toNat then .move (stopDecode .count s)
    else if s.dec.nbits.toNat < s.dec.csize.toNat then
      if s.regs.inLen.toNat ≤ s.dec.ipos.toNat then .move (stopDecode .inExhausted s)
      else .word (.stream (Memory.read s.buf.inp s.dec.ipos.toNat)) s
    else .word (.code s.dec.codeBits) (s.withDec s.dec.consume)
  | .composite =>
    if s.regs.positions ≤ s.cmp.cpos.toNat then .move (finish s)
    else .word (.index (Memory.read s.buf.idx s.cmp.cpos.toNat)) s

/-- The refusal of a word that decodes to no instruction. -/
def rejected : Reject → Refusal
  | .busWidth => .registerAccess
  | .busAlignment => .registerAccess
  | .busOffset => .registerAccess
  | .codeWidth => .codeWidth

/-- What becomes of the next thing to happen: a move is made, a word runs as the instruction it decodes to in the decoder state `ctx`. -/
def perform (ctx : Ctx) (f : Fetched) : Host.Outcome State Fault Refusal :=
  match f with
  | .move t => .next t
  | .fault r => .fault r
  | .refused r => .refused r
  | .word raw t =>
    match decode ctx raw with
    | .ok i => exec i t
    | .error e => .refused (rejected e)

end Sys2Proof.Machine
end

