-- ==== Sys2Proof/Machine/Reset.lean ====
section
/-! DEFINITION. Reset (70_reset_and_hazards.md R260 to R262), and what it leaves of a command it aborts (R261, RESET_PARTIAL; the assumption
log's entry 8). -/

namespace Sys2Proof.Machine

/-! ## The rest of a command -/

/-- The state after the sequencer's next step; the state itself where that step answers none. -/
def advance (s : State) : State :=
  match perform s.ctx (sequencer s) with
  | .next t => t
  | .fault _ => s
  | .refused _ => s

/-- At most `n` steps of the sequencer, until the command has ended. -/
def runOut : Nat → State → State
  | 0, s => s
  | n + 1, s => if s.seq = .idle then s else runOut n (advance s)

/-- An upper bound of the sequencer's steps to the end of the running command (R269). -/
def State.work (s : State) : Nat :=
  match s.seq with
  | .idle => 0
  | .decode => 9 * (s.regs.inLen.toNat - s.dec.ipos.toNat) + s.dec.nbits.toNat + s.regs.positions + 2
  | .composite => s.regs.positions - s.cmp.cpos.toNat + 1

/-- The running command brought to its end, with every write it makes logged. -/
def completed (s : State) : State := runOut s.work s

/-! ## What an abort leaves -/

/-- IDX after a reset that aborts a command: each write, newest first, is lost or not as the draw says (R261, RESET_PARTIAL). -/
def rollBackIdx (draw : Nat) : Nat → List (Nat × Byte) → Memory → Memory
  | _, [], m => m
  | i, (a, old) :: log, m => rollBackIdx draw (i + 1) log (if Config.resetPartial draw i then Memory.write m a old else m)

/-- PIX after a reset that aborts a command (R261). -/
def rollBackPix (draw : Nat) : Nat → List (Nat × Word) → Memory → Memory
  | _, [], m => m
  | i, (k, old) :: log, m => rollBackPix draw (i + 1) log (if Config.resetPartial draw i then Memory.writeWord m k old else m)

/-- The buffers a reset leaves. An idle block's are unchanged (R50). While a command runs, each location of IDX and PIX that it writes, from
its start to the end it would have come to, holds its value before the command or one the command writes there, as the draw says (R261). IN
and CT are never changed. -/
def buffersAfterReset (s : State) : Buffers :=
  if s.status.busy then
    { s.buf with
      idx := rollBackIdx s.env.draws 0 (completed s).env.idxLog (completed s).buf.idx
      pix := rollBackPix (s.env.draws + 1) 0 (completed s).env.pixLog (completed s).buf.pix }
  else s.buf

/-- The reset event (R260 to R262): the block as after power-on, with the buffers it does not own and the host's own moves. DESIGN CHOICE:
the event takes no time, so no access falls between its assertion and its release (entry 23). -/
def resetBlock (s : State) : State :=
  { State.reset with
    buf := buffersAfterReset s
    dec := { Decoder.reset with tableDraw := s.env.draws + 2 }
    env := { s.env with draws := s.env.draws + 3, idxLog := [], pixLog := [] } }

end Sys2Proof.Machine
end

