-- ==== Sys2Proof/Machine/Fetch.lean ====
section
/-! DEFINITION. What the machine does next: the host's next move, or the sequencer's (20_memory.md R74, R78; 30_encoding.md R101;
70_reset_and_hazards.md R260, R266). -/

namespace Sys2Proof.Machine

/-- A register access as the block sees it: an aligned 32-bit write to CMD while BUSY = 0 hands over a command word (format CMD,
30_encoding.md R96), any other access is of format BUS (R97). -/
def rawOfAccess (busy : Bool) (a : BusAccess) : Raw :=
  if busy = false ∧ a.dir = .write ∧ a.size = 4 ∧ a.offset = 0 then .cmd a.data else .bus a

/-- How many units the largest legal setting of the length and geometry registers gives a buffer (20_memory.md R60). -/
def Space.limit : Space → Nat
  | .inp => 2 ^ 32 - 1
  | .idx => 2 ^ 32 - 1
  | .ct => 256
  | .pix => (2 ^ 16 - 1) * (2 ^ 16 - 1)

/-- The running command has a composite phase, and PIX word `k` is one it may write (R266; 42_compositor.md R214). -/
def mayWritePix (s : State) (k : Nat) : Bool := s.op != .decode && s.regs.inFootprint k

/-- A buffer write the host must not make while BUSY = 1 (20_memory.md R78, 70_reset_and_hazards.md R266). -/
def forbiddenPut (s : State) (sp : Space) (k : Nat) : Bool :=
  s.status.busy && match sp with
    | .pix => mayWritePix s k
    | .inp | .idx | .ct => true

/-- Unit `k` of a buffer set by the host: a byte of IN or IDX, a word of CT or PIX. -/
def Buffers.set (b : Buffers) (sp : Space) (k : Nat) (v : Word) : Buffers :=
  match sp with
  | .inp => { b with inp := Memory.write b.inp k (v.setWidth 8) }
  | .idx => { b with idx := Memory.write b.idx k (v.setWidth 8) }
  | .ct => { b with ct := Memory.writeWord b.ct k v }
  | .pix => { b with pix := Memory.writeWord b.pix k v }

/-- Unit `k` of a buffer. -/
def Buffers.unit (b : Buffers) (sp : Space) (k : Nat) : Word :=
  match sp with
  | .inp => (Memory.read b.inp k).setWidth 32
  | .idx => (Memory.read b.idx k).setWidth 32
  | .ct => Memory.readWord b.ct k
  | .pix => Memory.readWord b.pix k

/-- A value cut to a unit of the space: a byte of IN or IDX, zero-extended, or a word of CT or PIX (20_memory.md R67). -/
def Space.cut (sp : Space) (v : Word) : Word :=
  match sp with
  | .inp => (v.setWidth 8).setWidth 32
  | .idx => (v.setWidth 8).setWidth 32
  | .ct => v
  | .pix => v

/-- What the host reads from unit `k`: while BUSY = 1 a read of IDX or PIX gives any value (40_commands.md R129, 20_memory.md R78) of its width. DESIGN
CHOICE: from the moment BUSY is 0 a read gives the final contents, also before the host has seen DONE = 1, where R75 and R267 promise
nothing (entry 24). -/
def bufferRead (s : State) (sp : Space) (k : Nat) : Word :=
  match sp with
  | .inp => s.buf.unit .inp k
  | .ct => s.buf.unit .ct k
  | .idx => if s.status.busy then Space.cut .idx (Config.busyBuffer s.env.draws) else s.buf.unit .idx k
  | .pix => if s.status.busy then Space.cut .pix (Config.busyBuffer s.env.draws) else s.buf.unit .pix k

/-- The script with `ms` put before the moves it holds. -/
def State.script (s : State) (ms : List HostMove) : State := s.withEnv { s.env with host := ms ++ s.env.host }

/-- The host's or the platform's move `m`, in the state whose script no longer holds it. DESIGN CHOICE: reset is one move with no interval
during which it stays asserted (70_reset_and_hazards.md R260; entry 23). -/
def hostMove (m : HostMove) (s : State) : Fetched :=
  match m with
  | .access a => .word (rawOfAccess s.status.busy a) s
  | .tick => sequencer s
  | .wait => .word (.bus (.rd 4)) (if s.status.doneSeen then s else s.script [.tick, .wait])
  | .reset => .move (resetBlock s)
  | .put sp k v =>
    if sp.limit ≤ k then .fault .bufferOffset
    else if forbiddenPut s sp k then .refused .bufferWhileBusy
    else .move (s.withBuf (s.buf.set sp k v))
  | .get sp k => if sp.limit ≤ k then .fault .bufferOffset else .move (answerRead (bufferRead s sp k) s)

/-- What happens next: the script's first move, or the sequencer's step when the script is empty. -/
def fetch (s : State) : Fetched :=
  match s.env.host with
  | [] => sequencer s
  | m :: rest => hostMove m (s.withEnv { s.env with host := rest })

/-- `START op` of the notation (30_encoding.md R101): `W 0x00 op`. -/
def HostMove.start : Command → HostMove
  | .decode => .access (.wr 0x00 0x00000001#32)
  | .composite => .access (.wr 0x00 0x00000002#32)
  | .decodeComposite => .access (.wr 0x00 0x00000003#32)

/-- `ACK` of the notation (R101): `W 0x04 0x00000012`, which clears DONE and WBUSY. -/
def HostMove.ack : HostMove := .access (.wr 0x04 0x00000012#32)

/-- The host writes the command word `w` next, to an idle block: `W 0x00 w` (30_encoding.md R101). -/
def placeCommand (w : Word) (s : State) : State :=
  ((s.script [.access (.wr 0 w)]).withStatus { s.status with busy := false }).withSeq .idle

end Sys2Proof.Machine
end

