-- ==== Sys2Proof/Machine/Step.lean ====
section
/-! DEFINITION. One step: one word of any format, or one move that runs no instruction (70_reset_and_hazards.md R271). -/

namespace Sys2Proof.Machine

/-- One step of the machine. -/
def step (s : State) : Host.Outcome State Fault Refusal := perform s.ctx (fetch s)

/-- `s` with the opcode table's word `w` of `nbits` bits as the host's next command write, the block idle. -/
def State.withFetchWord (s : State) (nbits w : Nat) : State := placeCommand (tableCmdWord (w % 2 ^ nbits)) s

end Sys2Proof.Machine
end

