-- ==== Sys2Proof/Safety.lean ====
section
/-! DEFINITION. What claims are stated in: the invariants of the machine (10_state.md R40, R55; 20_memory.md R60), the string a code
stands for (41_lzw_decoder.md R172), the ends of a command (40_commands.md R127), and who moves next. -/

namespace Sys2Proof.Machine

/-! ## Invariants -/

/-- SEQ = IDLE exactly when BUSY = 0; while BUSY = 1 DONE is 0 and ERR_CODE is NONE; DEC_STOP is NONE in the decode phase; each phase belongs
to a command that has it (R22, R40, R122, R131). -/
abbrev State.controlOk (s : State) : Prop :=
  (s.status.busy = true ↔ s.seq ≠ .idle) ∧ (s.status.busy = true → s.status.done = false) ∧
    (s.status.busy = true → s.status.errCode = .none) ∧ (s.seq = .decode → s.status.decStop = .none) ∧
    (s.seq = .decode → s.op ≠ .composite) ∧ (s.seq = .composite → s.op ≠ .decode)

/-- The buffers and the stack are in canonical form; PREFIX, SUFFIX and STACK hold entries in range only (R174). -/
abbrev State.arraysOk (s : State) : Prop :=
  Memory.wf s.buf.inp ∧ Memory.wf s.buf.idx ∧ Memory.wf s.buf.ct ∧ Memory.wf s.buf.pix ∧ Memory.wf s.dec.stack ∧
    Table.rising s.dec.pfx ∧ Table.rising s.dec.sfx ∧
    (∀ e ∈ s.dec.pfx, e.1 < Config.maxCodes) ∧ (∀ e ∈ s.dec.sfx, e.1 < Config.maxCodes) ∧
    (∀ e ∈ s.dec.stack, e.1 < Config.stackCap) ∧ s.dec.top.toNat ≤ Config.stackCap

/-- CT_LEN holds 0..256 (R30). -/
abbrev State.ctLenOk (s : State) : Prop := s.regs.ctLen.toNat ≤ 256

/-- In the decode phase every datapath value has its legal range (R42, R55) and no access can leave IN or IDX (R174). -/
abbrev State.decoderOk (s : State) : Prop :=
  s.seq = .decode →
    s.dec.mcs.toNat ≤ Config.maxMcs ∧ s.dec.clear.toNat = 2 ^ s.dec.mcs.toNat ∧ s.dec.endCode.toNat = s.dec.clear.toNat + 1 ∧
    1 ≤ s.dec.csize.toNat ∧ s.dec.csize.toNat ≤ Config.maxCodeSize ∧ s.dec.mask.toNat = 2 ^ s.dec.csize.toNat - 1 ∧
    s.dec.clear.toNat + 2 ≤ s.dec.avail.toNat ∧ s.dec.avail.toNat ≤ Config.maxCodes ∧
    s.dec.avail.toNat ≤ 2 ^ s.dec.csize.toNat + 1 ∧ (s.dec.prevV = false → s.dec.avail.toNat = s.dec.clear.toNat + 2) ∧
    s.dec.nbits.toNat ≤ 19 ∧ s.dec.acc.toNat < 2 ^ s.dec.nbits.toNat ∧
    s.dec.ocnt.toNat ≤ s.dec.npix.toNat ∧ s.dec.npix.toNat ≤ s.regs.idxLen.toNat ∧ s.dec.ipos.toNat ≤ s.regs.inLen.toNat ∧
    s.cmp.pwr = 0 ∧
    (s.op = .decodeComposite → s.dec.npix.toNat = s.regs.positions ∧ s.regs.geometryOk = true)

/-- In the composite phase the checks of R200 and R201 hold, and CPOS and PWR have their range (R43, R213). -/
abbrev State.compositorOk (s : State) : Prop :=
  s.seq = .composite →
    s.regs.positions ≤ s.regs.idxLen.toNat ∧ s.regs.geometryOk = true ∧ s.cmp.cpos.toNat ≤ s.regs.positions ∧
    s.cmp.pwr.toNat ≤ s.cmp.cpos.toNat

/-- The invariant of the machine. -/
abbrev State.Inv (s : State) : Prop :=
  s.controlOk ∧ s.arraysOk ∧ s.ctLenOk ∧ s.decoderOk ∧ s.compositorOk

/-! ## Who moves next -/

/-- The state once the first move of its script has been taken. -/
def State.pop (s : State) (rest : List HostMove) : State := s.withEnv { s.env with host := rest }

/-- The sequencer moves in `s`, and `t` is the state it moves from: the script is empty, or its first move waits for one step. -/
def SequencerTurn (s t : State) : Prop :=
  (s.env.host = [] ∧ t = s) ∨ ∃ rest, s.env.host = .tick :: rest ∧ t = s.pop rest

/-! ## Codes -/

/-- str(c) (R172): `Spells d c bs` says that the PREFIX chain of `c` reaches a root code, and that `bs` is that root's suffix followed
by the suffixes of the chain, the one of `c` last. -/
inductive Spells (d : Decoder) : BitVec 12 → List Byte → Prop where
  | root (c : BitVec 12) (h : c.toNat < d.clear.toNat) : Spells d c [d.suffixAt c.toNat]
  | entry (c : BitVec 12) (bs : List Byte) (h : d.clear.toNat ≤ c.toNat) (hp : Spells d (d.prefixAt c.toNat) bs) :
      Spells d c (bs ++ [d.suffixAt c.toNat])

/-- The bytes of IDX from offset `a` on are `bs`, and every other byte of IDX is as before. -/
def IdxAppended (s t : State) (a : Nat) (bs : List Byte) : Prop :=
  (∀ k (h : k < bs.length), Memory.read t.buf.idx (a + k) = bs[k]) ∧
    ∀ b, b < a ∨ a + bs.length ≤ b → Memory.read t.buf.idx b = Memory.read s.buf.idx b

/-- Everything but IDX is as before in the buffers. -/
def SameInCtPix (s t : State) : Prop := t.buf.inp = s.buf.inp ∧ t.buf.ct = s.buf.ct ∧ t.buf.pix = s.buf.pix

/-- The decoder registers a code's expansion never writes. -/
def SameFixedDecoder (s t : State) : Prop :=
  t.dec.mcs = s.dec.mcs ∧ t.dec.clear = s.dec.clear ∧ t.dec.endCode = s.dec.endCode ∧ t.dec.acc = s.dec.acc ∧
    t.dec.nbits = s.dec.nbits ∧ t.dec.brem = s.dec.brem ∧ t.dec.ipos = s.dec.ipos ∧ t.dec.npix = s.dec.npix ∧
    t.dec.prevV = s.dec.prevV ∧ t.dec.tableDraw = s.dec.tableDraw

/-- The code table and the width are as before. -/
def SameTable (s t : State) : Prop :=
  t.dec.pfx = s.dec.pfx ∧ t.dec.sfx = s.dec.sfx ∧ t.dec.avail = s.dec.avail ∧ t.dec.csize = s.dec.csize ∧
    t.dec.mask = s.dec.mask

/-- The groups no decoder instruction that goes on writes: sequencer, status, configuration, results, compositor. -/
def SameOutsideDecoder (s t : State) : Prop :=
  t.seq = s.seq ∧ t.op = s.op ∧ t.status = s.status ∧ t.regs = s.regs ∧ t.results = s.results ∧ t.cmp = s.cmp

/-- What define() leaves (R168): the entry at the old AVAIL is (PREV, `b`) while the table is not full, every other entry is as before. -/
def Defines (s t : State) (b : Byte) : Prop :=
  (s.dec.avail.toNat < 4096 →
    t.dec.prefixAt s.dec.avail.toNat = s.dec.prev ∧ t.dec.suffixAt s.dec.avail.toNat = b ∧
      t.dec.avail.toNat = s.dec.avail.toNat + 1) ∧
  (4096 ≤ s.dec.avail.toNat → t.dec.avail = s.dec.avail) ∧
  ∀ c, (c ≠ s.dec.avail.toNat ∨ 4096 ≤ s.dec.avail.toNat) →
    t.dec.prefixAt c = s.dec.prefixAt c ∧ t.dec.suffixAt c = s.dec.suffixAt c

/-- What a DEFINED or KWKWK code that is not stopped leaves (R164, R165): `bs` emitted, FIRST its first byte, the definition made, PREV
the code itself, and the frame. -/
def CodeExpanded (s t : State) (code : BitVec 12) (bs : List Byte) : Prop :=
  IdxAppended s t s.dec.ocnt.toNat bs ∧ t.dec.ocnt.toNat = s.dec.ocnt.toNat + bs.length ∧
    t.dec.first.toNat = (bs.headD 0).toNat ∧ t.dec.prev = code ∧ Defines s t (bs.headD 0) ∧
    SameFixedDecoder s t ∧ SameInCtPix s t ∧ SameOutsideDecoder s t

/-- What the definition of a DEFINED or KWKWK code leaves of AVAIL, the width and the mask, the table not being full (R168, R169). -/
def WidthAfterDefinition (s t : State) : Prop :=
  t.dec.avail.toNat = s.dec.avail.toNat + 1 ∧
    t.dec.csize.toNat = s.dec.csize.toNat +
      (if s.dec.mask.toNat < s.dec.avail.toNat + 1 ∧ s.dec.avail.toNat + 1 < 4096 then 1 else 0) ∧
    t.dec.mask.toNat = 2 ^ t.dec.csize.toNat - 1

/-! ## The ends of a command and of its decode phase -/

/-- The counters of the running command. -/
def State.counters (s : State) : Results := ⟨s.dec.ocnt, s.dec.ipos, s.cmp.cpos, s.cmp.pwr⟩

/-- The composite phase of a DECODE_COMPOSITE at position 0, after its decode phase has stopped with `r` in `s` (R125, R171). -/
def State.compositeAfter (s : State) (r : DecStop) : State :=
  ((s.withStatus { s.status with decStop := r }).withCmp { s.cmp with cpos := 0 }).withSeq .composite

/-- `t` is in the composite phase at position 0, DEC_STOP `r` recorded; only IDX and the decoder may differ from `s` otherwise. -/
def EntersComposite (s t : State) (r : DecStop) : Prop :=
  t.seq = .composite ∧ t.op = s.op ∧ t.status = { s.status with decStop := r } ∧ t.regs = s.regs ∧ t.results = s.results ∧
    t.cmp = { s.cmp with cpos := 0 } ∧ t.dec.ipos = s.dec.ipos ∧ t.dec.prev = s.dec.prev ∧ SameTable s t ∧ SameInCtPix s t

/-- From `s` to `t` a command that ended has set DONE, and DONE rose only at such an end, with the counters latched; the interrupt line is
then MODE.IRQ_EN (R127, R235). -/
def EndsWithDone (s t : State) : Prop :=
  (s.status.busy = true → t.status.busy = false → t.status.done = true ∧ t.irq = t.regs.irqEn) ∧
    (s.status.done = false → t.status.done = true →
      t.status.busy = false ∧ t.seq = .idle ∧ t.results = t.counters ∧ t.irq = t.regs.irqEn)

/-- `t` is `s` after finish() (R127): IDLE, BUSY 0, DONE 1, the stop and the error recorded, the counters latched; WBUSY, the configuration
and the buffers IN and CT are as before. -/
def Finished (s t : State) (ds : DecStop) (e : ErrCode) (counters : Results) : Prop :=
  t.seq = .idle ∧ t.status.busy = false ∧ t.status.done = true ∧ t.status.wbusy = s.status.wbusy ∧ t.status.decStop = ds ∧
    t.status.errCode = e ∧ t.results = counters ∧ t.regs = s.regs ∧ t.buf.inp = s.buf.inp ∧ t.buf.ct = s.buf.ct

/-- The decoder has been started for the minimum code size `m` (R151 to R154), its non-root table entries the TABLE_INIT draw numbered
`draw` (R48, R153). -/
def DecoderStarted (t : State) (m draw : Nat) : Prop :=
  t.dec.mcs.toNat = m ∧ t.dec.clear.toNat = 2 ^ m ∧ t.dec.endCode.toNat = 2 ^ m + 1 ∧ t.dec.csize.toNat = m + 1 ∧
    t.dec.mask.toNat = 2 ^ (m + 1) - 1 ∧ t.dec.avail.toNat = 2 ^ m + 2 ∧ t.dec.prevV = false ∧ t.dec.prev = 0 ∧ t.dec.first = 0 ∧
    t.dec.acc = 0 ∧ t.dec.nbits = 0 ∧ t.dec.brem = 0 ∧ t.dec.ipos = 1 ∧ t.dec.ocnt = 0 ∧ t.dec.top = 0 ∧
    (∀ c, c < 2 ^ m → t.dec.prefixAt c = 0 ∧ t.dec.suffixAt c = BitVec.ofNat 8 c) ∧
    ∀ c, 2 ^ m ≤ c → c < 4096 →
      t.dec.prefixAt c = Config.tableInitPrefix draw c ∧ t.dec.suffixAt c = Config.tableInitSuffix draw c

/-- A command runs: BUSY 1, DONE 0, no error; the configuration, the buffers and WBUSY are as before it was started (R122). -/
def CommandRuns (s t : State) : Prop :=
  t.status.busy = true ∧ t.status.done = false ∧ t.status.errCode = .none ∧ t.status.wbusy = s.status.wbusy ∧ t.regs = s.regs ∧
    t.buf = s.buf

/-- The value a configuration register reads as after a write of `v` (R25 to R33): the defined bits of `v`, or min(v, 256) for CT_LEN. -/
def legalValue (n : RegName) (v : Word) : Word :=
  match n with
  | .mode => v &&& 0x00000003#32
  | .transp => v &&& 0x000001FF#32
  | .ctLen => if v.toNat ≤ 256 then v else 256#32
  | .imgW | .imgH | .frameW | .frameH | .offX | .offY => v &&& 0x0000FFFF#32
  | .inLen | .pixelCount | .idxLen => v
  | _ => 0

/-! ## What a reset can undo -/

/-- The bytes of `log`, newest first, put back where they were overwritten. -/
def undoBytes (log : List (Nat × Byte)) (m : Memory) : Memory := log.foldl (fun m e => Memory.write m e.1 e.2) m

/-- The words of `log`, newest first, put back where they were overwritten. -/
def undoWords (log : List (Nat × Word)) (m : Memory) : Memory := log.foldl (fun m e => Memory.writeWord m e.1 e.2) m

/-- From `s` to `t` the logs have grown by what was overwritten: undoing the new entries, newest first, gives back IDX and PIX. -/
def LogsItsWrites (s t : State) : Prop :=
  ∃ (bytes : List (Nat × Byte)) (words : List (Nat × Word)),
    t.env.idxLog = bytes ++ s.env.idxLog ∧ t.env.pixLog = words ++ s.env.pixLog ∧
    (∀ a, Memory.read (undoBytes bytes t.buf.idx) a = Memory.read s.buf.idx a) ∧
    ∀ k, Memory.readWord (undoWords words t.buf.pix) k = Memory.readWord s.buf.pix k

/-! ## Whole-machine claims -/

/-- The state without PIX and without what PIX writes overwrote. -/
def State.erasePix (s : State) : State :=
  (s.withBuf { s.buf with pix := [] }).withEnv { s.env with pixLog := [] }

end Sys2Proof.Machine
end

