-- ==== Sys2Proof/Certificates/Slice0/Obligations.lean ====
section
/-! DEFINITION. The statements for the provers, each from the numbered rules of spec/. Free values (TABLE_INIT, BUSY_READ, RESET_PARTIAL)
are opaque, so every statement holds whatever they are. -/

open Sys2Proof Sys2Proof.Machine

/-! ## Encodings -/

/-- R96: the three command words are matched as whole 32-bit words; every other word is reserved. -/
def Obligations.CommandWordsAreMatchedWhole : Prop :=
  ∀ (ctx : Ctx) (w : Word), decode ctx (.cmd w) =
    .ok (if w = 0x00000001#32 then .decode else if w = 0x00000002#32 then .composite
      else if w = 0x00000003#32 then .decodeComposite else .badCmd w)

/-- Words written out from the tables of 30_encoding.md decode to the instructions they stand for. The decoder state is that of vector DV1
(MCS = 2: CLEAR 4, END 5, AVAIL 6, CSIZE 3), with and without a previous code, TINDEX = 2 and CT_LEN = 4. -/
def Obligations.WrittenOutWordsDecode : Prop :=
  let c0 : Ctx := ⟨4, 5, 6, false, 3, 0, true, 2, 4⟩
  let c1 : Ctx := ⟨4, 5, 6, true, 3, 5, true, 2, 4⟩
  decode c0 (.cmd 0x00000001#32) = .ok .decode ∧ decode c0 (.cmd 0x00000002#32) = .ok .composite ∧
  decode c0 (.cmd 0x00000003#32) = .ok .decodeComposite ∧ decode c0 (.cmd 0x00000005#32) = .ok (.badCmd 5) ∧
  decode c0 (.bus ⟨.write, 0x10, 4, 7⟩) = .ok (.wr 0x10 7) ∧ decode c0 (.bus ⟨.read, 0x38, 4, 0⟩) = .ok (.rd 0x38) ∧
  decode c0 (.code [false, false, true]) = .ok (.clear 4) ∧ decode c0 (.code [true, false, true]) = .ok (.endCode 5) ∧
  decode c0 (.code [true, true, true]) = .ok (.range 7) ∧ decode c0 (.code [false, true, true]) = .ok (.first 6) ∧
  decode c1 (.code [false, true, false]) = .ok (.defined 2) ∧ decode c1 (.code [false, true, true]) = .ok (.kwkwk 6) ∧
  decode c0 (.stream 5) = .ok (.blockHeader 5) ∧ decode c1 (.stream 0x84) = .ok (.dataByte 0x84) ∧
  decode c0 (.index 2) = .ok (.transparent 2) ∧ decode c0 (.index 4) = .ok (.ctRange 4) ∧ decode c0 (.index 3) = .ok (.write 3)

/-- Decode and encode agree: every well-formed instruction whose row matches the decoder state comes back, with every operand. -/
def Obligations.DecodeOfEncodeIsTheInstruction : Prop :=
  ∀ (ctx : Ctx) (i : Instr), i.wellFormed = true → i.fits ctx = true → decode ctx (encode ctx i) = .ok i

/-- R94: every code field of CSIZE bits falls in exactly one class, the first row that matches. -/
def Obligations.EveryCodeFallsInExactlyOneClass : Prop :=
  ∀ (ctx : Ctx) (bits : List Bool), bits.length = ctx.csize → 1 ≤ ctx.csize → ctx.csize ≤ 12 →
    ∃ i, decode ctx (.code bits) = .ok i ∧ i.fits ctx = true ∧ encode ctx i = .code bits ∧
      ∀ j : Instr, j.fits ctx = true → encode ctx j = .code bits → j = i

/-- R98: every index byte falls in exactly one class, TRANSPARENT before CT_RANGE before WRITE. -/
def Obligations.EveryIndexByteFallsInExactlyOneClass : Prop :=
  ∀ (ctx : Ctx) (v : Byte),
    ((ctx.ten = true ∧ v = ctx.tindex) → decode ctx (.index v) = .ok (.transparent v)) ∧
    (¬ (ctx.ten = true ∧ v = ctx.tindex) → ctx.ctLen ≤ v.toNat → decode ctx (.index v) = .ok (.ctRange v)) ∧
    (¬ (ctx.ten = true ∧ v = ctx.tindex) → v.toNat < ctx.ctLen → decode ctx (.index v) = .ok (.write v)) ∧
    ∀ i j : Instr, i.fits ctx = true → j.fits ctx = true → encode ctx i = .index v → encode ctx j = .index v → i = j

/-- Whatever the decoder answers matches its row, and is well formed in every decoder state a decode has; encoding it again gives the
word, but for the data a read access carries and ignores. -/
def Obligations.DecodedInstructionsAreWellFormed : Prop :=
  ∀ (ctx : Ctx) (raw : Raw) (i : Instr), decode ctx raw = .ok i →
    i.fits ctx = true ∧ (ctx.legal = true → i.wellFormed = true) ∧
      ((∀ o n d, raw = .bus ⟨.read, o, n, d⟩ → d = 0) → encode ctx i = raw)

/-- R68: a register access that is not 32 bits wide at a multiple of 4 is refused, on the bus and as an instruction. -/
def Obligations.MisshapenRegisterAccessesAreRefused : Prop :=
  (∀ (s : State) (a : BusAccess) (rest : List HostMove), s.env.host = .access a :: rest →
    (a.size ≠ 4 ∨ a.offset % 4 ≠ 0 ∨ 0xFC < a.offset) → step s = .refused .registerAccess) ∧
  ∀ (s : State) (off : BitVec 8) (d : Word), off.toNat % 4 ≠ 0 →
    exec (.wr off d) s = .refused .registerAccess ∧ exec (.rd off) s = .refused .registerAccess

/-! ## A step runs the decoded instruction -/

/-- The host's next access runs as the instruction it decodes to: a 32-bit write to CMD of an idle block as the command word, any other
access as the WR or RD it stands for. -/
def Obligations.StepRunsTheHostsAccess : Prop :=
  (∀ (s : State) (w : Word) (rest : List HostMove) (i : Instr), s.env.host = .access ⟨.write, 0, 4, w⟩ :: rest →
    s.status.busy = false → decode s.ctx (.cmd w) = .ok i → step s = exec i (s.pop rest)) ∧
  ∀ (s : State) (a : BusAccess) (rest : List HostMove) (i : Instr), s.env.host = .access a :: rest →
    (s.status.busy = true ∨ a.dir = .read ∨ a.offset ≠ 0) → decode s.ctx (.bus a) = .ok i → step s = exec i (s.pop rest)

/-- R158: the next code is the low CSIZE bits of ACC; ACC is shifted right and NBITS goes down by CSIZE; then the class of the code
runs. -/
def Obligations.StepRunsTheNextCode : Prop :=
  ∀ (s t : State) (i : Instr), SequencerTurn s t → s.seq = .decode → s.dec.ocnt.toNat < s.dec.npix.toNat →
    s.dec.csize.toNat ≤ s.dec.nbits.toNat → 1 ≤ s.dec.csize.toNat → s.dec.csize.toNat ≤ 12 →
    i = classifyCode s.ctx (BitVec.ofNat 12 (s.dec.acc.toNat % 2 ^ s.dec.csize.toNat)) →
    ∃ u, step s = exec i u ∧ u.dec.acc.toNat = s.dec.acc.toNat / 2 ^ s.dec.csize.toNat ∧
      u.dec.nbits.toNat = s.dec.nbits.toNat - s.dec.csize.toNat ∧
      u = t.withDec { t.dec with acc := u.dec.acc, nbits := u.dec.nbits }

/-- R156, R157: while fewer than CSIZE bits are buffered, the next byte of IN runs as a length byte when the sub-block has no bytes left,
else as a data byte. -/
def Obligations.StepFetchesTheByteRefillNeeds : Prop :=
  ∀ (s t : State), SequencerTurn s t → s.seq = .decode → s.dec.ocnt.toNat < s.dec.npix.toNat →
    s.dec.nbits.toNat < s.dec.csize.toNat → s.dec.ipos.toNat < s.regs.inLen.toNat →
    (s.dec.brem = 0 → step s = exec (.blockHeader (Memory.read s.buf.inp s.dec.ipos.toNat)) t) ∧
    (s.dec.brem ≠ 0 → step s = exec (.dataByte (Memory.read s.buf.inp s.dec.ipos.toNat)) t)

/-- R202: in the composite phase the next index byte is IDX[CPOS], and its class runs. -/
def Obligations.StepTakesTheNextIndexByte : Prop :=
  ∀ (s t : State), SequencerTurn s t → s.seq = .composite → s.cmp.cpos.toNat < s.regs.frameW.toNat * s.regs.frameH.toNat →
    step s = exec (classifyIndex s.ctx (Memory.read s.buf.idx s.cmp.cpos.toNat)) t

/-- R155, R156, R157, R210: at the loop top a DECODE that has its NPIX bytes stops with COUNT, and one that needs a byte at or beyond IN_LEN
stops with IN_EXHAUSTED; a composite with all positions done ends with ERR_CODE as it was, which is NONE where the sequencer is consistent,
so without an error. No buffer changes. -/
def Obligations.PhasesEndAtTheLoopTop : Prop :=
  ∀ (s t : State), SequencerTurn s t →
    (s.seq = .decode → s.op = .decode → s.dec.npix.toNat ≤ s.dec.ocnt.toNat →
      ∃ u, step s = .next u ∧ Finished s u .count s.status.errCode s.counters ∧ u.buf = s.buf) ∧
    (s.seq = .decode → s.op = .decode → s.dec.ocnt.toNat < s.dec.npix.toNat → s.dec.nbits.toNat < s.dec.csize.toNat →
      s.regs.inLen.toNat ≤ s.dec.ipos.toNat →
      ∃ u, step s = .next u ∧ Finished s u .inExhausted s.status.errCode s.counters ∧ u.buf = s.buf) ∧
    (s.seq = .composite → s.regs.frameW.toNat * s.regs.frameH.toNat ≤ s.cmp.cpos.toNat →
      ∃ u, step s = .next u ∧ Finished s u s.status.decStop s.status.errCode s.counters ∧ u.buf = s.buf ∧
        (s.controlOk → u.status.errCode = .none))

/-- R263: an IDLE block with no host move waits: nothing changes. -/
def Obligations.IdleBlockWaits : Prop :=
  ∀ s t : State, SequencerTurn s t → s.seq = .idle → step s = .next t

/-- R101: WAIT is a read of STATUS, made again after one step of the sequencer until DONE reads 1. The one step between two reads is the
model's choice (the assumption log's entry 18). -/
def Obligations.WaitPollsStatus : Prop :=
  ∀ (s : State) (rest : List HostMove), s.env.host = .wait :: rest →
    ((s.status.busy = false ∧ s.status.done = true) → step s = exec (.rd 4) (s.pop rest)) ∧
    ((s.status.busy = true ∨ s.status.done = false) → step s = exec (.rd 4) (s.pop (.tick :: .wait :: rest)))

/-! ## Commands -/

/-- R123, R151 to R154, R48: DECODE of an idle block whose index buffer is large enough and whose stream begins with a legal MCS byte starts
the decoder; its non-root table entries are a TABLE_INIT draw of their own, numbered as the assumption log's entry 5 says. -/
def Obligations.DecodeStartsTheDecoder : Prop :=
  ∀ s : State, s.status.busy = false → s.regs.pixelCount.toNat ≤ s.regs.idxLen.toNat → s.regs.inLen ≠ 0 →
    (Memory.read s.buf.inp 0).toNat ≤ 8 →
    ∃ t, exec .decode s = .next t ∧ CommandRuns s t ∧ t.seq = .decode ∧ t.op = .decode ∧ t.status.decStop = .none ∧
      t.dec.npix = s.regs.pixelCount ∧ DecoderStarted t (Memory.read s.buf.inp 0).toNat s.env.draws ∧
      t.env.draws = s.env.draws + 1 ∧ t.cmp = ⟨0, 0⟩

/-- R123, R151, R231, R232: DECODE's checks in their order. IDX_RANGE before any IN read, IN_EXHAUSTED for an empty stream, BAD_MCS after
the MCS byte is read. No buffer changes. -/
def Obligations.DecodeChecksBeforeItDecodes : Prop :=
  ∀ s : State, s.status.busy = false →
    (s.regs.idxLen.toNat < s.regs.pixelCount.toNat →
      ∃ t, exec .decode s = .next t ∧ Finished s t .none .idxRange ⟨0, 0, 0, 0⟩ ∧ t.buf = s.buf) ∧
    (s.regs.pixelCount.toNat ≤ s.regs.idxLen.toNat → s.regs.inLen = 0 →
      ∃ t, exec .decode s = .next t ∧ Finished s t .inExhausted .none ⟨0, 0, 0, 0⟩ ∧ t.buf = s.buf) ∧
    (s.regs.pixelCount.toNat ≤ s.regs.idxLen.toNat → s.regs.inLen ≠ 0 → 8 < (Memory.read s.buf.inp 0).toNat →
      ∃ t, exec .decode s = .next t ∧ Finished s t .none .badMcs ⟨0, 1, 0, 0⟩ ∧ t.buf = s.buf)

/-- R124, R200 to R202: COMPOSITE of an idle block whose checks pass starts the position walk at 0, with the decode results 0. -/
def Obligations.CompositeStartsTheWalk : Prop :=
  ∀ s : State, s.status.busy = false → s.regs.frameW.toNat * s.regs.frameH.toNat ≤ s.regs.idxLen.toNat →
    s.regs.geometryOk = true →
    ∃ t, exec .composite s = .next t ∧ CommandRuns s t ∧ t.seq = .composite ∧ t.op = .composite ∧ t.status.decStop = .none ∧
      t.counters = ⟨0, 0, 0, 0⟩

/-- R125, R48: DECODE_COMPOSITE of an idle block whose checks pass starts the decoder with NPIX = FRAME_W * FRAME_H; PIXEL_COUNT is not
read. Its non-root table entries are a TABLE_INIT draw of their own, numbered as the assumption log's entry 5 says. -/
def Obligations.DecodeCompositeStartsTheDecoder : Prop :=
  ∀ s : State, s.status.busy = false → s.regs.frameW.toNat * s.regs.frameH.toNat ≤ s.regs.idxLen.toNat →
    s.regs.geometryOk = true → s.regs.inLen ≠ 0 → (Memory.read s.buf.inp 0).toNat ≤ 8 →
    ∃ t, exec .decodeComposite s = .next t ∧ CommandRuns s t ∧ t.seq = .decode ∧ t.op = .decodeComposite ∧
      t.status.decStop = .none ∧ t.dec.npix.toNat = s.regs.frameW.toNat * s.regs.frameH.toNat ∧
      DecoderStarted t (Memory.read s.buf.inp 0).toNat s.env.draws ∧ t.env.draws = s.env.draws + 1 ∧ t.cmp = ⟨0, 0⟩

/-- R124, R125, R231, R232: both compositing commands check IDX_RANGE, then PIX_RANGE, before any access: all result registers are 0 and
no buffer changes. -/
def Obligations.CompositingCommandsCheckBeforeAnyAccess : Prop :=
  ∀ (s : State) (i : Instr), s.status.busy = false → (i = .composite ∨ i = .decodeComposite) →
    (s.regs.idxLen.toNat < s.regs.frameW.toNat * s.regs.frameH.toNat →
      ∃ t, exec i s = .next t ∧ Finished s t .none .idxRange ⟨0, 0, 0, 0⟩ ∧ t.buf = s.buf) ∧
    (s.regs.frameW.toNat * s.regs.frameH.toNat ≤ s.regs.idxLen.toNat → s.regs.geometryOk = false →
      ∃ t, exec i s = .next t ∧ Finished s t .none .pixRange ⟨0, 0, 0, 0⟩ ∧ t.buf = s.buf)

/-- R125, R151: DECODE_COMPOSITE with an empty stream goes on to composite all positions; a bad MCS byte ends it with no composite
phase. -/
def Obligations.DecodeCompositeWithoutAStream : Prop :=
  ∀ s : State, s.status.busy = false → s.regs.frameW.toNat * s.regs.frameH.toNat ≤ s.regs.idxLen.toNat →
    s.regs.geometryOk = true →
    (s.regs.inLen = 0 → ∃ t, exec .decodeComposite s = .next t ∧ CommandRuns s t ∧ t.seq = .composite ∧
      t.status.decStop = .inExhausted ∧ t.counters = ⟨0, 0, 0, 0⟩) ∧
    (s.regs.inLen ≠ 0 → 8 < (Memory.read s.buf.inp 0).toNat →
      ∃ t, exec .decodeComposite s = .next t ∧ Finished s t .none .badMcs ⟨0, 1, 0, 0⟩ ∧ t.buf = s.buf)

/-- R126: a reserved command word ends at once with BAD_CMD: every result register 0, no buffer accessed, BUSY never 1. -/
def Obligations.ReservedCommandWordEndsAtOnce : Prop :=
  ∀ (s : State) (w : Word), s.status.busy = false → w ≠ 0x00000001#32 → w ≠ 0x00000002#32 → w ≠ 0x00000003#32 →
    decode s.ctx (.cmd w) = .ok (.badCmd w) ∧
    ∃ t, exec (.badCmd w) s = .next t ∧ Finished s t .none .badCmd ⟨0, 0, 0, 0⟩ ∧ t.buf = s.buf ∧
      (s.status.wbusy = false → ∀ n, t.status.word n = 0x00010006#32)

/-- R128: while BUSY = 1 a write to CMD or to a configuration register is ignored but for WBUSY, and WBUSY stays until the host writes
STATUS with bit 4 set. -/
def Obligations.WritesWhileBusyAreTurnedAway : Prop :=
  (∀ (s : State) (w d : Word) (off : BitVec 8), s.status.busy = true → off.toNat % 4 = 0 → off.toNat ≤ 0x34 → off ≠ 4#8 →
    let u := s.withStatus { s.status with wbusy := true }
    exec .decode s = .next u ∧ exec .composite s = .next u ∧ exec .decodeComposite s = .next u ∧ exec (.badCmd w) s = .next u ∧
      exec (.wr off d) s = .next u) ∧
  ∀ (i : Instr) (s t : State), exec i s = .next t → s.status.wbusy = true → t.status.wbusy = false →
    ∃ d : Word, i = .wr 4 d ∧ d.getLsbD 4 = true

/-- R120, R122: a WR to CMD has the effect of the command word it carries, in every state. -/
def Obligations.CmdRegisterWriteIsTheCommand : Prop :=
  ∀ (s : State) (w : Word) (i : Instr), decode s.ctx (.cmd w) = .ok i → exec (.wr 0 w) s = exec i s

/-! ## Register accesses -/

/-- R25 to R33, R120: a write to a configuration register of an idle block stores the register's legal bits and nothing else changes; the
next read returns them. -/
def Obligations.ConfigWriteStoresTheLegalValue : Prop :=
  ∀ (s : State) (off : BitVec 8) (d : Word), s.status.busy = false → off.toNat % 4 = 0 → 8 ≤ off.toNat → off.toNat ≤ 0x34 →
    ∃ t, exec (.wr off d) s = .next t ∧ t = s.withRegs t.regs ∧
      (∃ u, exec (.rd off) t = .next u ∧ u.env.rdata = legalValue (regAt off) d) ∧
      ∀ n, n ≠ regAt off → t.regs.load n = s.regs.load n

/-- R38: reserved offsets read 0 and ignore writes at any time; R120: so do the result registers ignore writes. WBUSY is never set. -/
def Obligations.ReservedOffsetsReadZeroAndIgnoreWrites : Prop :=
  ∀ (s : State) (off : BitVec 8) (d : Word), off.toNat % 4 = 0 →
    (0x38 ≤ off.toNat → exec (.wr off d) s = .next s) ∧
    (0x48 ≤ off.toNat → ∃ t, exec (.rd off) s = .next t ∧ t.env.rdata = 0)

/-- R130: a STATUS write clears DONE if bit 1 is 1 and WBUSY if bit 4 is 1, changes nothing else, at any time; clearing DONE deasserts the
interrupt. -/
def Obligations.StatusWriteClearsWhatItNames : Prop :=
  ∀ (s : State) (d : Word), ∃ t, exec (.wr 4 d) s = .next t ∧
    t.status.done = (s.status.done && !d.getLsbD 1) ∧ t.status.wbusy = (s.status.wbusy && !d.getLsbD 4) ∧
    t = s.withStatus { s.status with done := t.status.done, wbusy := t.status.wbusy } ∧
    (d.getLsbD 1 = true → t.irq = false)

/-- R121, R22: a read returns the register's value, reserved bits 0: CMD and the configuration registers at any time, also while BUSY = 1;
STATUS and the result registers of an idle block. -/
def Obligations.IdleReadReturnsTheRegister : Prop :=
  ∀ (s : State),
    (∃ t, exec (.rd 0x00) s = .next t ∧ t.env.rdata = 0) ∧
    (∃ t, exec (.rd 0x08) s = .next t ∧ t.env.rdata.toNat = s.regs.interlaced.toNat + s.regs.irqEn.toNat * 2) ∧
    (∃ t, exec (.rd 0x0C) s = .next t ∧ t.env.rdata.toNat = s.regs.tindex.toNat + s.regs.ten.toNat * 256) ∧
    (∃ t, exec (.rd 0x10) s = .next t ∧ t.env.rdata = s.regs.inLen) ∧
    (∃ t, exec (.rd 0x14) s = .next t ∧ t.env.rdata = s.regs.pixelCount) ∧
    (∃ t, exec (.rd 0x18) s = .next t ∧ t.env.rdata = s.regs.idxLen) ∧
    (∃ t, exec (.rd 0x1C) s = .next t ∧ t.env.rdata.toNat = s.regs.ctLen.toNat) ∧
    (∃ t, exec (.rd 0x20) s = .next t ∧ t.env.rdata.toNat = s.regs.imgW.toNat) ∧
    (∃ t, exec (.rd 0x24) s = .next t ∧ t.env.rdata.toNat = s.regs.imgH.toNat) ∧
    (∃ t, exec (.rd 0x28) s = .next t ∧ t.env.rdata.toNat = s.regs.frameW.toNat) ∧
    (∃ t, exec (.rd 0x2C) s = .next t ∧ t.env.rdata.toNat = s.regs.frameH.toNat) ∧
    (∃ t, exec (.rd 0x30) s = .next t ∧ t.env.rdata.toNat = s.regs.offX.toNat) ∧
    (∃ t, exec (.rd 0x34) s = .next t ∧ t.env.rdata.toNat = s.regs.offY.toNat) ∧
    (s.status.busy = false →
      (∃ t, exec (.rd 0x04) s = .next t ∧ t.env.rdata.toNat =
        s.status.done.toNat * 2 + (if s.status.errCode = .none then 0 else 4) + s.status.wbusy.toNat * 16 +
          s.status.decStop.code * 256 + s.status.errCode.code * 65536) ∧
      (∃ t, exec (.rd 0x38) s = .next t ∧ t.env.rdata = s.results.outCount) ∧
      (∃ t, exec (.rd 0x3C) s = .next t ∧ t.env.rdata = s.results.inPos) ∧
      (∃ t, exec (.rd 0x40) s = .next t ∧ t.env.rdata = s.results.cmpCount) ∧
      ∃ t, exec (.rd 0x44) s = .next t ∧ t.env.rdata = s.results.pixWritten)

/-- R70, R121: a read of any register completes in every state and has no side effect on the block. -/
def Obligations.ReadHasNoSideEffect : Prop :=
  ∀ (s : State) (off : BitVec 8), off.toNat % 4 = 0 →
    ∃ t, exec (.rd off) s = .next t ∧ t = s.withEnv { s.env with rdata := t.env.rdata, draws := t.env.draws }

/-- R22: STATUS read while BUSY = 1 shows BUSY 1, DONE 0, WBUSY as it is and 0 in every reserved bit, whatever the unspecified fields
draw. -/
def Obligations.BusyStatusReadShowsItsValidBits : Prop :=
  ∀ s : State, s.status.busy = true → ∃ t, exec (.rd 4) s = .next t ∧
    t.env.rdata.getLsbD 0 = true ∧ t.env.rdata.getLsbD 1 = false ∧ t.env.rdata.getLsbD 4 = s.status.wbusy ∧
    t.env.rdata &&& 0xFFF0F0E8#32 = 0

/-! ## Reset -/

/-- R20, R50: every register reads 0 after reset; the block is IDLE and the interrupt deasserted. -/
def Obligations.EveryRegisterReadsZeroAfterReset : Prop :=
  (∀ off : BitVec 8, off.toNat % 4 = 0 → ∃ t, exec (.rd off) State.reset = .next t ∧ t.env.rdata = 0) ∧
  State.reset.seq = .idle ∧ State.reset.irq = false

/-- R260: the reset event, at any time, leaves every host-visible register as after power-on and raises no interrupt. In the model the event
takes no time (the assumption log's entry 23). -/
def Obligations.ResetEventClearsTheBlock : Prop :=
  ∀ (s : State) (rest : List HostMove), s.env.host = .reset :: rest →
    ∃ t, step s = .next t ∧ t.seq = .idle ∧ t.status = Status.reset ∧ t.regs = Regs.reset ∧ t.results = Results.reset ∧
      t.irq = false ∧ t.env.host = rest

/-! ## Codes -/

/-- R160: the code equal to CLEAR sets the width, the mask, AVAIL and PREV_V, and nothing else: the accumulator, the table and the output
stay. -/
def Obligations.ClearCodeRestartsTheWidth : Prop :=
  ∀ (s : State) (c : BitVec 12),
    (∀ bits, decode s.ctx (.code bits) = .ok (.clear c) → c.toNat = s.dec.clear.toNat) ∧
    (s.dec.mcs.toNat ≤ 8 → s.dec.clear.toNat = 2 ^ s.dec.mcs.toNat →
    ∃ t, exec (.clear c) s = .next t ∧ t.dec.csize.toNat = s.dec.mcs.toNat + 1 ∧
      t.dec.mask.toNat = 2 ^ (s.dec.mcs.toNat + 1) - 1 ∧ t.dec.avail.toNat = s.dec.clear.toNat + 2 ∧ t.dec.prevV = false ∧
      t = s.withDec { s.dec with csize := t.dec.csize, mask := t.dec.mask, avail := t.dec.avail, prevV := t.dec.prevV })

/-- R161, R162, R171: END and RANGE stop a DECODE; the counters are latched, no byte is emitted, no error is set. -/
def Obligations.EndAndRangeStopADecode : Prop :=
  ∀ (s : State) (c : BitVec 12), s.op = .decode →
    (∃ t, exec (.endCode c) s = .next t ∧ Finished s t .endCode s.status.errCode s.counters ∧ t.buf = s.buf) ∧
    ∃ t, exec (.range c) s = .next t ∧ Finished s t .codeRange s.status.errCode s.counters ∧ t.buf = s.buf

/-- R125, R171: in DECODE_COMPOSITE every stop of the decode phase is recorded in DEC_STOP and goes on to the composite phase, from position
0: END_CODE, CODE_RANGE; IN_EXHAUSTED and ZERO_BLOCK at a byte, the zero length byte counted; COUNT and IN_EXHAUSTED at the loop top;
STACK_OVERFLOW, with no byte of the code emitted; COUNT inside an expansion, after the bytes that fit. R171 discards the decoder's registers
at a stop; that they keep their values is the model's choice (DESIGN CHOICE, the assumption log's entry 10). -/
def Obligations.StopGoesOnToTheCompositePhase : Prop :=
  ∀ s : State, s.op = .decodeComposite → s.regs.frameW.toNat * s.regs.frameH.toNat ≤ s.regs.idxLen.toNat → s.regs.geometryOk = true →
    (∀ c, exec (.endCode c) s = .next (s.compositeAfter .endCode) ∧ exec (.range c) s = .next (s.compositeAfter .codeRange)) ∧
    (s.regs.inLen.toNat ≤ s.dec.ipos.toNat → ∀ b, exec (.blockHeader b) s = .next (s.compositeAfter .inExhausted) ∧
      exec (.dataByte b) s = .next (s.compositeAfter .inExhausted)) ∧
    (s.dec.ipos.toNat < s.regs.inLen.toNat → exec (.blockHeader 0) s =
      .next ((s.withDec { s.dec with brem := 0, ipos := s.dec.ipos + 1#32 }).compositeAfter .zeroBlock)) ∧
    (∀ u, SequencerTurn s u → s.seq = .decode →
      (s.dec.npix.toNat ≤ s.dec.ocnt.toNat → step s = .next (u.compositeAfter .count)) ∧
      (s.dec.ocnt.toNat < s.dec.npix.toNat → s.dec.nbits.toNat < s.dec.csize.toNat → s.regs.inLen.toNat ≤ s.dec.ipos.toNat →
        step s = .next (u.compositeAfter .inExhausted))) ∧
    (∀ c, (∀ bs, Spells s.dec c bs → 4098 < bs.length) →
      ∃ t, exec (.defined c) s = .next t ∧ EntersComposite s t .stackOverflow ∧ t.buf.idx = s.buf.idx ∧ t.dec.ocnt = s.dec.ocnt) ∧
    (∀ c, (∀ bs, Spells s.dec s.dec.prev bs → 4097 < bs.length) →
      ∃ t, exec (.kwkwk c) s = .next t ∧ EntersComposite s t .stackOverflow ∧ t.buf.idx = s.buf.idx ∧ t.dec.ocnt = s.dec.ocnt) ∧
    ∀ c bs, Memory.wf s.buf.idx → Memory.wf s.dec.stack → s.dec.ocnt.toNat < s.dec.npix.toNat →
      (Spells s.dec c bs → bs.length ≤ 4098 → s.dec.npix.toNat ≤ s.dec.ocnt.toNat + bs.length →
        ∃ t, exec (.defined c) s = .next t ∧ EntersComposite s t .count ∧ t.dec.ocnt = s.dec.npix ∧
          IdxAppended s t s.dec.ocnt.toNat (bs.take (s.dec.npix.toNat - s.dec.ocnt.toNat))) ∧
      (Spells s.dec s.dec.prev bs → bs.length ≤ 4097 → s.dec.npix.toNat ≤ s.dec.ocnt.toNat + bs.length + 1 →
        ∃ t, exec (.kwkwk c) s = .next t ∧ EntersComposite s t .count ∧ t.dec.ocnt = s.dec.npix ∧
          IdxAppended s t s.dec.ocnt.toNat ((bs ++ [s.dec.first.setWidth 8]).take (s.dec.npix.toNat - s.dec.ocnt.toNat)))

/-- R163: FIRST, a code up to AVAIL that is neither CLEAR nor END with no previous code, emits SUFFIX[code] at IDX[OCNT] and is remembered
as PREV and FIRST; no definition, AVAIL unchanged. -/
def Obligations.FirstCodeEmitsItsSuffix : Prop :=
  ∀ (s : State) (c : BitVec 12),
    (∀ bits, decode s.ctx (.code bits) = .ok (.first c) → s.dec.prevV = false ∧ c.toNat ≠ s.dec.clear.toNat ∧
      c.toNat ≠ s.dec.endCode.toNat ∧ c.toNat ≤ s.dec.avail.toNat) ∧
    (Memory.wf s.buf.idx → s.dec.ocnt.toNat < s.dec.npix.toNat →
    ∃ t, exec (.first c) s = .next t ∧ IdxAppended s t s.dec.ocnt.toNat [s.dec.suffixAt c.toNat] ∧
      t.dec.ocnt.toNat = s.dec.ocnt.toNat + 1 ∧
      t.dec = { s.dec with ocnt := t.dec.ocnt, prev := c, prevV := true, first := c } ∧
      SameInCtPix s t ∧ SameOutsideDecoder s t)

/-- R164, R172: a DEFINED code emits str(code), FIRST becomes its first byte, the entry (PREV, FIRST) is defined at AVAIL while the table
is not full, and PREV becomes the code; when the count stop does not come first. -/
def Obligations.DefinedCodeEmitsItsString : Prop :=
  ∀ (s : State) (c : BitVec 12) (bs : List Byte), Memory.wf s.buf.idx → Memory.wf s.dec.stack → Spells s.dec c bs →
    bs.length ≤ 4098 → s.dec.ocnt.toNat + bs.length < s.dec.npix.toNat →
    ∃ t, exec (.defined c) s = .next t ∧ CodeExpanded s t c bs

/-- R165, R168, R170: a KWKWK code emits str(PREV) followed by the low byte of FIRST, FIRST becomes the first byte emitted, the entry
(PREV, FIRST) is defined at AVAIL while the table is not full, and PREV becomes the code; when the count stop does not come first. -/
def Obligations.KwkwkCodeEmitsPrevAndFirst : Prop :=
  ∀ (s : State) (c : BitVec 12) (bs : List Byte), Memory.wf s.buf.idx → Memory.wf s.dec.stack → Spells s.dec s.dec.prev bs →
    bs.length ≤ 4097 → s.dec.ocnt.toNat + bs.length + 1 < s.dec.npix.toNat →
    ∃ t, exec (.kwkwk c) s = .next t ∧ CodeExpanded s t c (bs ++ [s.dec.first.setWidth 8])

/-- R167: the decode stops the instant NPIX bytes are written, even inside an expansion: the definition and the PREV update do not
happen. That the decoder's registers outlast the stop is the model's choice (DESIGN CHOICE, the assumption log's entry 10). -/
def Obligations.CountStopCutsAnExpansion : Prop :=
  ∀ (s : State) (c : BitVec 12) (bs : List Byte), Memory.wf s.buf.idx → Memory.wf s.dec.stack → s.op = .decode →
    s.dec.ocnt.toNat < s.dec.npix.toNat →
    (Spells s.dec c bs → bs.length ≤ 4098 → s.dec.npix.toNat ≤ s.dec.ocnt.toNat + bs.length →
      ∃ t, exec (.defined c) s = .next t ∧
        IdxAppended s t s.dec.ocnt.toNat (bs.take (s.dec.npix.toNat - s.dec.ocnt.toNat)) ∧
        Finished s t .count s.status.errCode ⟨s.dec.npix, s.dec.ipos, s.cmp.cpos, s.cmp.pwr⟩ ∧ SameTable s t ∧
        t.dec.prev = s.dec.prev ∧ t.buf.pix = s.buf.pix) ∧
    (Spells s.dec s.dec.prev bs → bs.length ≤ 4097 → s.dec.npix.toNat ≤ s.dec.ocnt.toNat + bs.length + 1 →
      ∃ t, exec (.kwkwk c) s = .next t ∧
        IdxAppended s t s.dec.ocnt.toNat ((bs ++ [s.dec.first.setWidth 8]).take (s.dec.npix.toNat - s.dec.ocnt.toNat)) ∧
        Finished s t .count s.status.errCode ⟨s.dec.npix, s.dec.ipos, s.cmp.cpos, s.cmp.pwr⟩ ∧ SameTable s t ∧
        t.dec.prev = s.dec.prev ∧ t.buf.pix = s.buf.pix)

/-- R166: a walk that reaches no root code within the stack's 4097 entries (a self-reference, a cycle) stops with STACK_OVERFLOW; no byte
of the code is emitted and nothing is defined. That the decoder's registers outlast the stop is the model's choice (DESIGN CHOICE, the
assumption log's entry 10). -/
def Obligations.UnendingWalkOverflowsTheStack : Prop :=
  ∀ (s : State) (c : BitVec 12), s.op = .decode →
    ((∀ bs, Spells s.dec c bs → 4098 < bs.length) →
      ∃ t, exec (.defined c) s = .next t ∧ Finished s t .stackOverflow s.status.errCode s.counters ∧ SameTable s t ∧
        t.dec.prev = s.dec.prev ∧ t.buf = s.buf) ∧
    ((∀ bs, Spells s.dec s.dec.prev bs → 4097 < bs.length) →
      ∃ t, exec (.kwkwk c) s = .next t ∧ Finished s t .stackOverflow s.status.errCode s.counters ∧ SameTable s t ∧
        t.dec.prev = s.dec.prev ∧ t.buf = s.buf)

/-- R169, R168: after the definition a DEFINED or a KWKWK code makes, AVAIL is one more, the code width grows by one exactly when AVAIL is
above MASK and below 4096, and MASK is recomputed. -/
def Obligations.CodeWidthGrowsAtTheMask : Prop :=
  ∀ (s : State) (c : BitVec 12) (bs : List Byte), Memory.wf s.dec.stack → s.dec.avail.toNat < 4096 → s.dec.csize.toNat ≤ 12 →
    s.dec.mask.toNat = 2 ^ s.dec.csize.toNat - 1 →
    (Spells s.dec c bs → bs.length ≤ 4098 → s.dec.ocnt.toNat + bs.length < s.dec.npix.toNat →
      ∃ t, exec (.defined c) s = .next t ∧ WidthAfterDefinition s t) ∧
    (Spells s.dec s.dec.prev bs → bs.length ≤ 4097 → s.dec.ocnt.toNat + bs.length + 1 < s.dec.npix.toNat →
      ∃ t, exec (.kwkwk c) s = .next t ∧ WidthAfterDefinition s t)

/-- R175: once AVAIL = 4096 no code is RANGE or KWKWK, and neither a FIRST nor a DEFINED code changes the table or the width, also where a
DEFINED code stops the decode (there the model's choice: DESIGN CHOICE, the assumption log's entry 10). -/
def Obligations.FullTableIsFrozen : Prop :=
  ∀ (s : State), s.dec.avail.toNat = 4096 →
    (∀ (bits : List Bool) (c : BitVec 12), decode s.ctx (.code bits) ≠ .ok (.range c) ∧
      decode s.ctx (.code bits) ≠ .ok (.kwkwk c)) ∧
    ∀ (c : BitVec 12) (t : State), (exec (.first c) s = .next t ∨ exec (.defined c) s = .next t) → SameTable s t

/-! ## The bit accumulator -/

/-- R156: a length byte becomes BREM and IPOS advances; a length of 0 stops the decode with ZERO_BLOCK, after the byte is counted; a
length byte at or beyond IN_LEN is not read and stops it with IN_EXHAUSTED. -/
def Obligations.LengthByteOpensASubBlock : Prop :=
  ∀ (s : State) (len : Byte),
    (s.dec.ipos.toNat < s.regs.inLen.toNat → len ≠ 0 →
      ∃ t, exec (.blockHeader len) s = .next t ∧ t.dec.ipos.toNat = s.dec.ipos.toNat + 1 ∧
        t = s.withDec { s.dec with brem := len, ipos := t.dec.ipos }) ∧
    (s.dec.ipos.toNat < s.regs.inLen.toNat → s.op = .decode →
      ∃ t, exec (.blockHeader 0) s = .next t ∧ t.buf = s.buf ∧
        Finished s t .zeroBlock s.status.errCode ⟨s.dec.ocnt, s.dec.ipos + 1#32, s.cmp.cpos, s.cmp.pwr⟩) ∧
    (s.regs.inLen.toNat ≤ s.dec.ipos.toNat → s.op = .decode →
      ∃ t, exec (.blockHeader len) s = .next t ∧ t.buf = s.buf ∧ Finished s t .inExhausted s.status.errCode s.counters)

/-- R157, R65: a data byte goes into ACC exactly above the NBITS buffered bits; IPOS and NBITS advance, BREM goes down; a data byte at or
beyond IN_LEN stops the decode with IN_EXHAUSTED. -/
def Obligations.DataByteGoesAboveTheBufferedBits : Prop :=
  ∀ (s : State) (b : Byte),
    (s.dec.ipos.toNat < s.regs.inLen.toNat → s.dec.brem ≠ 0 → s.dec.nbits.toNat ≤ 11 → s.dec.acc.toNat < 2 ^ s.dec.nbits.toNat →
      ∃ t, exec (.dataByte b) s = .next t ∧ t.dec.acc.toNat = s.dec.acc.toNat + b.toNat * 2 ^ s.dec.nbits.toNat ∧
        t.dec.nbits.toNat = s.dec.nbits.toNat + 8 ∧ t.dec.ipos.toNat = s.dec.ipos.toNat + 1 ∧
        t.dec.brem.toNat + 1 = s.dec.brem.toNat ∧
        t = s.withDec { s.dec with acc := t.dec.acc, nbits := t.dec.nbits, ipos := t.dec.ipos, brem := t.dec.brem }) ∧
    (s.regs.inLen.toNat ≤ s.dec.ipos.toNat → s.op = .decode →
      ∃ t, exec (.dataByte b) s = .next t ∧ t.buf = s.buf ∧ Finished s t .inExhausted s.status.errCode s.counters)

/-! ## Index bytes -/

/-- R207: an index byte is transparent exactly when TEN is 1 and it equals TINDEX, whatever CT_LEN is; it writes nothing, and CPOS
advances. -/
def Obligations.TransparentIndexWritesNothing : Prop :=
  ∀ (s : State) (v : Byte),
    (decode s.ctx (.index v) = .ok (.transparent v) ↔ (s.regs.ten = true ∧ v = s.regs.tindex)) ∧
    (s.cmp.cpos.toNat + 1 < 2 ^ 32 →
      ∃ t, exec (.transparent v) s = .next t ∧ t.cmp.cpos.toNat = s.cmp.cpos.toNat + 1 ∧ t.cmp.pwr = s.cmp.pwr ∧ t = s.withCmp t.cmp)

/-- R203 to R206, R208: an index that is not transparent and below CT_LEN copies CT word v unchanged to the word at (y + OFF_Y) * IMG_W + OFF_X + x of PIX and counts it;
every other byte of PIX, and everything else, is as before. -/
def Obligations.OpaqueIndexCopiesTheColor : Prop :=
  ∀ (s : State) (v : Byte),
    (decode s.ctx (.index v) = .ok (.write v) ↔ (¬ (s.regs.ten = true ∧ v = s.regs.tindex) ∧ v.toNat < s.regs.ctLen.toNat)) ∧
    (Memory.wf s.buf.pix → s.cmp.cpos.toNat + 1 < 2 ^ 32 → s.cmp.pwr.toNat + 1 < 2 ^ 32 →
    let x := s.cmp.cpos.toNat % s.regs.frameW.toNat
    let r := s.cmp.cpos.toNat / s.regs.frameW.toNat
    let y := if s.regs.interlaced = true then rowmap r s.regs.frameH.toNat else r
    let d := (y + s.regs.offY.toNat) * s.regs.imgW.toNat + s.regs.offX.toNat + x
    ∃ t, exec (.write v) s = .next t ∧ Memory.readWord t.buf.pix d = Memory.readWord s.buf.ct v.toNat ∧
      (∀ a, a < 4 * d ∨ 4 * d + 3 < a → Memory.read t.buf.pix a = Memory.read s.buf.pix a) ∧
      t.cmp.cpos.toNat = s.cmp.cpos.toNat + 1 ∧ t.cmp.pwr.toNat = s.cmp.pwr.toNat + 1 ∧
      t.buf.inp = s.buf.inp ∧ t.buf.idx = s.buf.idx ∧ t.buf.ct = s.buf.ct ∧ t.seq = s.seq ∧ t.op = s.op ∧ t.status = s.status ∧
      t.regs = s.regs ∧ t.results = s.results ∧ t.dec = s.dec)

/-- R209: an index that is not transparent and not below CT_LEN ends the command with CT_RANGE: CMP_COUNT is the failing position, earlier
writes and the decode results stay, and no buffer changes. With CT_LEN = 256 there is no such index. -/
def Obligations.IndexBeyondTheTableEndsTheCommand : Prop :=
  ∀ (s : State) (v : Byte),
    (decode s.ctx (.index v) = .ok (.ctRange v) ↔ (¬ (s.regs.ten = true ∧ v = s.regs.tindex) ∧ s.regs.ctLen.toNat ≤ v.toNat)) ∧
    (s.regs.ctLen.toNat = 256 → decode s.ctx (.index v) ≠ .ok (.ctRange v)) ∧
    ∃ t, exec (.ctRange v) s = .next t ∧ Finished s t s.status.decStop .ctRange s.counters ∧ t.results.cmpCount = s.cmp.cpos ∧
      t.results.pixWritten = s.cmp.pwr ∧ t.buf = s.buf

/-! ## Geometry -/

/-- R205: in interlaced mode the display row of a source row is its rowmap, which gives the rows of the four passes in their order (0, 8,
16, ...; 4, 12, ...; 2, 6, ...; 1, 3, ...) and is a bijection of the rows of the frame. -/
def Obligations.InterlacedRowsAreAPermutation : Prop :=
  (∀ (g : Regs) (r : Nat), g.interlaced = true → g.displayRow r = rowmap r g.frameH.toNat) ∧
  ∀ fh : Nat,
    (∀ k, 8 * k < fh → rowmap k fh = 8 * k) ∧
    (∀ k, 8 * k + 4 < fh → rowmap ((fh + 7) / 8 + k) fh = 8 * k + 4) ∧
    (∀ k, 4 * k + 2 < fh → rowmap ((fh + 7) / 8 + (fh + 3) / 8 + k) fh = 4 * k + 2) ∧
    (∀ k, 2 * k + 1 < fh → rowmap ((fh + 7) / 8 + (fh + 3) / 8 + (fh + 1) / 4 + k) fh = 2 * k + 1) ∧
    (∀ r, r < fh → rowmap r fh < fh) ∧
    (∀ r q, r < fh → q < fh → rowmap r fh = rowmap q fh → r = q) ∧
    (∀ y, y < fh → ∃ r, r < fh ∧ rowmap r fh = y) ∧
    (fh + 7) / 8 + (fh + 3) / 8 + (fh + 1) / 4 + fh / 2 = fh

/-- R201: geometry_ok() holds exactly when the destination of every position lies inside PIX, in both modes. -/
def Obligations.GeometryCheckIsExact : Prop :=
  ∀ g : Regs, g.geometryOk = true ↔ ∀ i, i < g.frameW.toNat * g.frameH.toNat → g.destOf i < g.imgW.toNat * g.imgH.toNat

/-! ## Invariants and whole-machine rules -/

/-- The invariant holds right after reset. -/
def Obligations.ResetMeetsTheInvariant : Prop := State.reset.Inv

/-- Every step keeps the buffers and the stack in canonical form and PREFIX, SUFFIX and STACK in range (R174, R213). -/
def Obligations.StepKeepsTheArraysInRange : Prop :=
  ∀ s t : State, s.arraysOk → step s = .next t → t.arraysOk

/-- Every step keeps SEQ, BUSY, DONE, the running command and the error and stop fields consistent (R22, R40, R122). -/
def Obligations.StepKeepsTheSequencerConsistent : Prop :=
  ∀ s t : State, s.controlOk → step s = .next t → t.controlOk

/-- Every step keeps the whole invariant: in the decode phase every datapath value fits its legal range (R55), in the composite phase the
walk stays inside IDX and PIX. -/
def Obligations.StepKeepsTheInvariant : Prop :=
  ∀ s t : State, s.Inv → step s = .next t → t.Inv

/-- R128, R25: the running command keeps the configuration it started with, and only a host write or reset ever changes it. -/
def Obligations.ConfigurationChangesOnlyByTheHost : Prop :=
  ∀ s t : State, step s = .next t → t.regs ≠ s.regs →
    (∃ rest, s.env.host = .reset :: rest) ∨
    (s.status.busy = false ∧ ∃ off d rest, s.env.host = .access ⟨.write, off, 4, d⟩ :: rest ∧ 8 ≤ off ∧ off ≤ 0x34)

/-- R61, R63, R70: no step writes IN or CT but a host's own buffer write. R78, R266: while BUSY = 1 no step at all writes them, and a host's
write to IN, CT or IDX, or to a PIX word that a position of the running command's composite phase goes to, is refused. That the words the
command may write are these is read into R266 (DEDUCED, the assumption log's entry 16). -/
def Obligations.BlockNeverWritesItsInputs : Prop :=
  (∀ s t : State, step s = .next t → ((∀ sp k v rest, s.env.host ≠ .put sp k v :: rest) ∨ s.status.busy = true) →
    t.buf.inp = s.buf.inp ∧ t.buf.ct = s.buf.ct) ∧
  ∀ (s : State) (sp : Space) (k : Nat) (v : Word) (rest : List HostMove), s.env.host = .put sp k v :: rest → s.status.busy = true →
    k < sp.limit → (sp = .pix → s.op ≠ .decode ∧ ∃ i, i < s.regs.frameW.toNat * s.regs.frameH.toNat ∧ k = s.regs.destOf i) →
    step s = .refused .bufferWhileBusy

/-- R62, R174, R213: from a state that meets the invariant, a step of the sequencer changes IDX only in the decode phase, at offsets from
OCNT on and below NPIX, which is at most IDX_LEN; and PIX only in the composite phase, at one word, the destination of position CPOS, which
lies below IMG_W * IMG_H. -/
def Obligations.NoWriteLeavesABuffer : Prop :=
  ∀ s t u : State, s.Inv → SequencerTurn s u → step s = .next t →
    (∀ a, Memory.read t.buf.idx a ≠ Memory.read s.buf.idx a →
      s.seq = .decode ∧ s.dec.ocnt.toNat ≤ a ∧ a < s.dec.npix.toNat ∧ a < s.regs.idxLen.toNat) ∧
    (∀ k, Memory.readWord t.buf.pix k ≠ Memory.readWord s.buf.pix k →
      s.seq = .composite ∧ k = s.regs.destOf s.cmp.cpos.toNat ∧ k < s.regs.imgW.toNat * s.regs.imgH.toNat)

/-- R215: PIX is write-only to the block: two states that differ only in PIX step alike, and each word of PIX ends up the same or keeps
what it held; the host's own reads of PIX and reset aside. -/
def Obligations.PixIsWriteOnly : Prop :=
  ∀ s t s' : State, (∀ k rest, s.env.host ≠ .get .pix k :: rest) → (∀ rest, s.env.host ≠ .reset :: rest) →
    Memory.wf s.buf.pix → Memory.wf s'.buf.pix → s.erasePix = s'.erasePix → step s = .next t →
    ∃ t', step s' = .next t' ∧ t.erasePix = t'.erasePix ∧
      ∀ k, Memory.readWord t.buf.pix k = Memory.readWord t'.buf.pix k ∨
        (Memory.readWord t.buf.pix k = Memory.readWord s.buf.pix k ∧ Memory.readWord t'.buf.pix k = Memory.readWord s'.buf.pix k)

/-- R269: every command ends: from every state that meets the invariant, with no further host move, the block is not busy after at most
`work` steps, and DONE is set if a command was running. That end is the state `completed`, up to which a reset that aborts the command
counts its writes (the assumption log's entry 8). -/
def Obligations.EveryCommandEnds : Prop :=
  ∀ s : State, s.Inv → s.env.host = [] →
    ∃ t, Sys2Proof.core.run s.work s = .next t ∧ t = completed s ∧ t.status.busy = false ∧
      (s.status.busy = true → t.status.done = true)

/-- R127, R235: whatever ends a command, an instruction or a step that runs none, sets DONE, and the interrupt line is then MODE.IRQ_EN; R39:
DONE rises only so, with the counters latched. The reset move is set aside: it ends a command without DONE (R261). -/
def Obligations.EveryEndRaisesTheInterrupt : Prop :=
  (∀ s t : State, step s = .next t → (∀ rest, s.env.host ≠ .reset :: rest) → EndsWithDone s t) ∧
  ∀ (i : Instr) (s t : State), exec i s = .next t → EndsWithDone s t

/-- R233: no instruction traps: every well-formed instruction completes in every state. -/
def Obligations.NoInstructionTraps : Prop :=
  ∀ (i : Instr) (s : State), i.wellFormed = true → ∃ t, exec i s = .next t

/-- R50, R261: reset never changes IN and CT, nor any buffer of an idle block. When it aborts a command, each byte of IDX and word of PIX
holds what it would have held at the command's end, or what one of the command's writes there overwrote; a location the command does not
write is as before. The logs say so: a command starts with both empty, and each step of the sequencer adds exactly what it overwrites, so that
undoing what it adds, newest first, gives back IDX and PIX. Which value a location keeps is a free value; that the writes still to come are
those of the command run to its end is read into R261 (DEDUCED, the assumption log's entry 8). -/
def Obligations.ResetKeepsOrUndoesTheWritesOfACommand : Prop :=
  (∀ (s : State) (rest : List HostMove), s.env.host = .reset :: rest →
    ∃ t, step s = .next t ∧ t.buf.inp = s.buf.inp ∧ t.buf.ct = s.buf.ct ∧ (s.status.busy = false → t.buf = s.buf) ∧
      (s.status.busy = true → s.arraysOk →
        let u := completed (s.pop rest)
        (∀ a, Memory.read t.buf.idx a = Memory.read u.buf.idx a ∨ (a, Memory.read t.buf.idx a) ∈ u.env.idxLog) ∧
        (∀ k, Memory.readWord t.buf.pix k = Memory.readWord u.buf.pix k ∨ (k, Memory.readWord t.buf.pix k) ∈ u.env.pixLog) ∧
        (∀ a, (∀ v, (a, v) ∉ u.env.idxLog) → Memory.read t.buf.idx a = Memory.read s.buf.idx a) ∧
        ∀ k, (∀ v, (k, v) ∉ u.env.pixLog) → Memory.readWord t.buf.pix k = Memory.readWord s.buf.pix k)) ∧
  (∀ (i : Instr) (s t : State), (i = .decode ∨ i = .composite ∨ i = .decodeComposite) → s.status.busy = false → exec i s = .next t →
    t.env.idxLog = [] ∧ t.env.pixLog = []) ∧
  ∀ s t u : State, s.arraysOk → SequencerTurn s u → step s = .next t → LogsItsWrites s t
end

