-- ==== Sys2Proof/Laws/Bits.lean ====
section
/-! SUPPORT. Lists of bits and their value: reading back what was written, in both directions (30_encoding.md R92). -/

namespace Sys2Proof

@[simp] theorem length_toBits (n v : Nat) : (toBits n v).length = n := by
  induction n generalizing v with
  | zero => rfl
  | succ n ih => simp [toBits, ih]

/-- The value of the low `n` bits. -/
theorem ofBits_toBits_mod (n v : Nat) : ofBits (toBits n v) = v % 2 ^ n := by
  induction n generalizing v with
  | zero => simp [toBits, ofBits, Nat.mod_one]
  | succ n ih =>
    have hb : ((v % 2 == 1) : Bool).toNat = v % 2 := by
      rcases Nat.mod_two_eq_zero_or_one v with h | h <;> simp [h]
    rw [toBits, ofBits, ih, hb, Nat.pow_succ, Nat.mul_comm (2 ^ n) 2, Nat.mod_mul]

theorem ofBits_toBits {n v : Nat} (h : v < 2 ^ n) : ofBits (toBits n v) = v := by
  rw [ofBits_toBits_mod, Nat.mod_eq_of_lt h]

theorem ofBits_lt (bits : List Bool) : ofBits bits < 2 ^ bits.length := by
  induction bits with
  | nil => simp [ofBits]
  | cons b bs ih =>
    have : b.toNat ≤ 1 := Bool.toNat_le b
    simp only [ofBits, List.length_cons, Nat.pow_succ]
    omega

theorem toBits_ofBits (bits : List Bool) : toBits bits.length (ofBits bits) = bits := by
  induction bits with
  | nil => rfl
  | cons b bs ih =>
    have h1 : (b.toNat + 2 * ofBits bs) / 2 = ofBits bs := by
      have : b.toNat ≤ 1 := Bool.toNat_le b
      omega
    have h2 : ((b.toNat + 2 * ofBits bs) % 2 == 1) = b := by cases b <;> simp
    simp only [ofBits, List.length_cons, toBits, h1, h2, ih]

end Sys2Proof
end

