-- ==== Sys2Proof/Laws/Memory.lean ====
section
/-! SUPPORT. What reading and writing lists of entries, bytes and words do; every memory operation keeps the canonical form. -/

namespace Sys2Proof.Machine

namespace Table

variable {α : Type}

@[simp] theorem find_nil (a : Nat) : find ([] : Table α) a = none := rfl

theorem find_put_same (t : Table α) (a : Nat) (v : α) : find (put t a v) a = some v := by
  induction t with
  | nil => simp [put, find]
  | cons e t ih =>
    obtain ⟨k, w⟩ := e
    unfold put
    split
    · simp [find]
    · split
      · simp [find]
      · rename_i h1 h2
        simp [find, ih, Ne.symm h2]

theorem find_put_other (t : Table α) {a b : Nat} (v : α) (h : b ≠ a) : find (put t a v) b = find t b := by
  induction t with
  | nil => simp [put, find, Ne.symm h]
  | cons e t ih =>
    obtain ⟨k, w⟩ := e
    unfold put
    split
    · simp [find, Ne.symm h]
    · split
      · rename_i h1 h2
        subst h2
        simp [find, Ne.symm h]
      · simp [find, ih]

theorem find_put (t : Table α) (a b : Nat) (v : α) : find (put t a v) b = if b = a then some v else find t b := by
  split
  · rename_i h; rw [h, find_put_same]
  · rename_i h; exact find_put_other t v h

theorem mem_put {t : Table α} {a : Nat} {v : α} {e : Nat × α} (h : e ∈ put t a v) : e = (a, v) ∨ e ∈ t := by
  induction t with
  | nil => simpa [put] using h
  | cons f t ih =>
    obtain ⟨k, w⟩ := f
    unfold put at h
    split at h
    · simpa using h
    · split at h
      · rcases List.mem_cons.1 h with h | h
        · exact .inl h
        · exact .inr (List.mem_cons_of_mem _ h)
      · rcases List.mem_cons.1 h with h | h
        · exact .inr (h ▸ List.mem_cons_self)
        · rcases ih h with h | h
          · exact .inl h
          · exact .inr (List.mem_cons_of_mem _ h)

theorem rising_put {t : Table α} (h : rising t) (a : Nat) (v : α) : rising (put t a v) := by
  induction t with
  | nil => simp [put, rising]
  | cons e t ih =>
    obtain ⟨k, w⟩ := e
    have hk : ∀ c ∈ t, k < c.1 := fun c hc => (List.pairwise_cons.1 h).1 c hc
    have ht : rising t := (List.pairwise_cons.1 h).2
    unfold put
    split
    · rename_i h1
      refine List.pairwise_cons.2 ⟨fun c hc => ?_, h⟩
      rcases List.mem_cons.1 hc with hc | hc
      · subst hc; exact h1
      · exact Nat.lt_trans h1 (hk c hc)
    · split
      · rename_i h1 h2
        subst h2
        exact List.pairwise_cons.2 ⟨hk, ht⟩
      · rename_i h1 h2
        refine List.pairwise_cons.2 ⟨fun c hc => ?_, ih ht⟩
        rcases mem_put hc with hc | hc
        · subst hc; show k < a; omega
        · exact hk c hc

theorem mem_erase {t : Table α} {a : Nat} {e : Nat × α} (h : e ∈ erase t a) : e ∈ t := by
  induction t with
  | nil => simp [erase] at h
  | cons f t ih =>
    obtain ⟨k, w⟩ := f
    unfold erase at h
    split at h
    · exact List.mem_cons_of_mem _ h
    · rcases List.mem_cons.1 h with h | h
      · exact h ▸ List.mem_cons_self
      · exact List.mem_cons_of_mem _ (ih h)

theorem rising_erase {t : Table α} (h : rising t) (a : Nat) : rising (erase t a) := by
  induction t with
  | nil => simp [erase, rising]
  | cons e t ih =>
    obtain ⟨k, w⟩ := e
    have hk : ∀ c ∈ t, k < c.1 := fun c hc => (List.pairwise_cons.1 h).1 c hc
    have ht : rising t := (List.pairwise_cons.1 h).2
    unfold erase
    split
    · exact ht
    · exact List.pairwise_cons.2 ⟨fun c hc => hk c (mem_erase hc), ih ht⟩

theorem find_of_forall_ne {t : Table α} {a : Nat} (h : ∀ c ∈ t, c.1 ≠ a) : find t a = none := by
  induction t with
  | nil => rfl
  | cons e t ih =>
    obtain ⟨k, w⟩ := e
    simp only [find]
    rw [if_neg (h (k, w) List.mem_cons_self)]
    exact ih fun c hc => h c (List.mem_cons_of_mem _ hc)

theorem find_erase_same {t : Table α} (h : rising t) (a : Nat) : find (erase t a) a = none := by
  induction t with
  | nil => rfl
  | cons e t ih =>
    obtain ⟨k, w⟩ := e
    unfold erase
    split
    · rename_i hka
      subst hka
      exact find_of_forall_ne fun c hc => Nat.ne_of_gt ((List.pairwise_cons.1 h).1 c hc)
    · rename_i hka
      simp [find, hka, ih (List.pairwise_cons.1 h).2]

theorem find_erase_other (t : Table α) {a b : Nat} (h : b ≠ a) : find (erase t a) b = find t b := by
  induction t with
  | nil => rfl
  | cons e t ih =>
    obtain ⟨k, w⟩ := e
    unfold erase
    split
    · rename_i hka
      subst hka
      simp [find, Ne.symm h]
    · simp [find, ih]

theorem mem_of_find {t : Table α} {a : Nat} {v : α} (h : find t a = some v) : (a, v) ∈ t := by
  induction t with
  | nil => simp at h
  | cons e t ih =>
    obtain ⟨k, w⟩ := e
    unfold find at h
    split at h
    · rename_i hk; cases h; subst hk; exact List.mem_cons_self
    · exact List.mem_cons_of_mem _ (ih h)

theorem find_of_mem {t : Table α} (h : rising t) {a : Nat} {v : α} (hm : (a, v) ∈ t) : find t a = some v := by
  induction t with
  | nil => simp at hm
  | cons e t ih =>
    obtain ⟨k, w⟩ := e
    rcases List.mem_cons.1 hm with hm | hm
    · cases hm; simp [find]
    · have : k < a := (List.pairwise_cons.1 h).1 _ hm
      simp only [find]
      rw [if_neg (by omega)]
      exact ih (List.pairwise_cons.1 h).2 hm

/-- Two lists in rising order with the same entries are the same list. -/
theorem ext_of_find {t u : Table α} (ht : rising t) (hu : rising u) (h : ∀ a, find t a = find u a) : t = u := by
  have hsub : ∀ e, e ∈ t ↔ e ∈ u := fun ⟨a, v⟩ =>
    ⟨fun hm => mem_of_find (h a ▸ find_of_mem ht hm), fun hm => mem_of_find ((h a).symm ▸ find_of_mem hu hm)⟩
  have irr : ∀ (a b : Nat × α), a.1 < b.1 → ¬ b.1 < a.1 := fun a b h1 h2 => Nat.lt_asymm h1 h2
  exact List.Perm.eq_of_pairwise (fun a b _ _ h1 h2 => absurd h2 (irr a b h1)) ht hu
    ((List.perm_ext_iff_of_nodup (ht.imp fun h => by rintro rfl; exact Nat.lt_irrefl _ h)
      (hu.imp fun h => by rintro rfl; exact Nat.lt_irrefl _ h)).2 hsub)

end Table

namespace Memory

/-- A read after a write to the same place gives the value written. -/
theorem read_write_same {m : Memory} (h : Memory.wf m) (a : Nat) (v : Byte) : Memory.read (Memory.write m a v) a = v := by
  unfold Memory.read Memory.write
  split
  · rename_i hv; rw [Table.find_erase_same h.1, hv]; rfl
  · rw [Table.find_put_same]; rfl

/-- A write leaves every other place alone. -/
theorem read_write_other (m : Memory) {a b : Nat} (v : Byte) (h : b ≠ a) :
    Memory.read (Memory.write m a v) b = Memory.read m b := by
  unfold Memory.read Memory.write
  split
  · rw [Table.find_erase_other m h]
  · rw [Table.find_put_other m v h]

theorem wf_nil : Memory.wf [] := by simp [Memory.wf, Table.rising]

/-- A write keeps the canonical form. -/
theorem wf_write {m : Memory} (h : Memory.wf m) (a : Nat) (v : Byte) : Memory.wf (Memory.write m a v) := by
  unfold Memory.write
  split
  · exact ⟨Table.rising_erase h.1 a, fun c hc => h.2 c (Table.mem_erase hc)⟩
  · rename_i hv
    refine ⟨Table.rising_put h.1 a v, fun c hc => ?_⟩
    rcases Table.mem_put hc with hc | hc
    · subst hc; exact hv
    · exact h.2 c hc

/-- Two memories in canonical form that read alike are the same data. -/
theorem ext_of_read {m n : Memory} (hm : Memory.wf m) (hn : Memory.wf n) (h : ∀ a, Memory.read m a = Memory.read n a) : m = n := by
  refine Table.ext_of_find hm.1 hn.1 fun a => ?_
  have key : ∀ {x y : Memory}, Memory.wf x → Memory.read x a = Memory.read y a → ∀ v, Table.find x a = some v →
      Table.find y a = some v := by
    intro x y hx hr v hv
    have h1 : v ≠ Memory.unlisted := hx.2 _ (Table.mem_of_find hv)
    unfold Memory.read at hr
    rw [hv] at hr
    cases hy : Table.find y a with
    | none => rw [hy] at hr; exact absurd hr h1
    | some w => rw [hy] at hr; simpa using hr.symm
  cases hx : Table.find m a with
  | some v => exact (key hm (h a) v hx).symm
  | none =>
    cases hy : Table.find n a with
    | none => rfl
    | some w => rw [key hn (h a).symm w hy] at hx; cases hx

/-- A word write keeps the canonical form. -/
theorem wf_writeWord {m : Memory} (h : Memory.wf m) (k : Nat) (v : Word) : Memory.wf (Memory.writeWord m k v) :=
  wf_write (wf_write (wf_write (wf_write h _ _) _ _) _ _) _ _

/-- A word write changes no byte outside its four. -/
theorem read_writeWord_other (m : Memory) {k a : Nat} (v : Word) (h : a < 4 * k ∨ 4 * k + 3 < a) :
    Memory.read (Memory.writeWord m k v) a = Memory.read m a := by
  unfold Memory.writeWord
  rw [read_write_other _ _ (by omega), read_write_other _ _ (by omega), read_write_other _ _ (by omega),
    read_write_other _ _ (by omega)]

theorem lanes_eq (v : Word) : wordOfLanes (laneByte v 0) (laneByte v 1) (laneByte v 2) (laneByte v 3) = v := by
  unfold wordOfLanes laneByte
  apply BitVec.eq_of_getLsbD_eq
  intro i hi
  simp only [BitVec.getLsbD_append, BitVec.getLsbD_extractLsb']
  by_cases h1 : i < 8
  · simp [h1]
  by_cases h2 : i - 8 < 8
  · have : 8 + (i - 8) = i := by omega
    simp [h1, h2, this]
  by_cases h3 : i - 8 - 8 < 8
  · have : 16 + (i - 8 - 8) = i := by omega
    simp [h1, h2, h3, this]
  · have h4 : i - 8 - 8 - 8 < 8 := by omega
    have : 24 + (i - 8 - 8 - 8) = i := by omega
    simp [h1, h2, h3, h4, this]

/-- A word read after a word write to the same place gives the value written. -/
theorem readWord_writeWord_same {m : Memory} (h : Memory.wf m) (k : Nat) (v : Word) :
    Memory.readWord (Memory.writeWord m k v) k = v := by
  have h0 := wf_write h (4 * k) (laneByte v 0)
  have h1 := wf_write h0 (4 * k + 1) (laneByte v 1)
  have h2 := wf_write h1 (4 * k + 2) (laneByte v 2)
  unfold Memory.readWord Memory.writeWord
  rw [read_write_other _ _ (by omega), read_write_other _ _ (by omega), read_write_other _ _ (by omega),
    read_write_same h, read_write_other _ _ (by omega), read_write_other _ _ (by omega), read_write_same h0,
    read_write_other _ _ (by omega), read_write_same h1, read_write_same h2]
  exact lanes_eq v

/-- A word write leaves every other word alone. -/
theorem readWord_writeWord_other (m : Memory) {j k : Nat} (v : Word) (h : j ≠ k) :
    Memory.readWord (Memory.writeWord m k v) j = Memory.readWord m j := by
  unfold Memory.readWord
  rw [read_writeWord_other _ _ (by omega), read_writeWord_other _ _ (by omega), read_writeWord_other _ _ (by omega),
    read_writeWord_other _ _ (by omega)]

end Memory

end Sys2Proof.Machine
end

