-- ==== Sys2Proof/Laws/Decoder.lean ====
section
/-! SUPPORT. One lemma per field of the decoder per named update, so that no later proof unfolds a record update. -/

namespace Sys2Proof.Machine.Decoder

@[simp] theorem emptyStack_mcs (d : Decoder) : d.emptyStack.mcs = d.mcs := rfl
@[simp] theorem emptyStack_clear (d : Decoder) : d.emptyStack.clear = d.clear := rfl
@[simp] theorem emptyStack_endCode (d : Decoder) : d.emptyStack.endCode = d.endCode := rfl
@[simp] theorem emptyStack_csize (d : Decoder) : d.emptyStack.csize = d.csize := rfl
@[simp] theorem emptyStack_mask (d : Decoder) : d.emptyStack.mask = d.mask := rfl
@[simp] theorem emptyStack_avail (d : Decoder) : d.emptyStack.avail = d.avail := rfl
@[simp] theorem emptyStack_prev (d : Decoder) : d.emptyStack.prev = d.prev := rfl
@[simp] theorem emptyStack_prevV (d : Decoder) : d.emptyStack.prevV = d.prevV := rfl
@[simp] theorem emptyStack_first (d : Decoder) : d.emptyStack.first = d.first := rfl
@[simp] theorem emptyStack_acc (d : Decoder) : d.emptyStack.acc = d.acc := rfl
@[simp] theorem emptyStack_nbits (d : Decoder) : d.emptyStack.nbits = d.nbits := rfl
@[simp] theorem emptyStack_brem (d : Decoder) : d.emptyStack.brem = d.brem := rfl
@[simp] theorem emptyStack_ipos (d : Decoder) : d.emptyStack.ipos = d.ipos := rfl
@[simp] theorem emptyStack_ocnt (d : Decoder) : d.emptyStack.ocnt = d.ocnt := rfl
@[simp] theorem emptyStack_npix (d : Decoder) : d.emptyStack.npix = d.npix := rfl
@[simp] theorem emptyStack_top (d : Decoder) : d.emptyStack.top = 0#13 := rfl
@[simp] theorem emptyStack_pfx (d : Decoder) : d.emptyStack.pfx = d.pfx := rfl
@[simp] theorem emptyStack_sfx (d : Decoder) : d.emptyStack.sfx = d.sfx := rfl
@[simp] theorem emptyStack_stack (d : Decoder) : d.emptyStack.stack = d.stack := rfl
@[simp] theorem emptyStack_tableDraw (d : Decoder) : d.emptyStack.tableDraw = d.tableDraw := rfl
@[simp] theorem emptyStack_prefixAt (d : Decoder) (c : Nat) : d.emptyStack.prefixAt c = d.prefixAt c := rfl
@[simp] theorem emptyStack_suffixAt (d : Decoder) (c : Nat) : d.emptyStack.suffixAt c = d.suffixAt c := rfl

@[simp] theorem push_mcs (d : Decoder) (v : Byte) : (d.push v).mcs = d.mcs := rfl
@[simp] theorem push_clear (d : Decoder) (v : Byte) : (d.push v).clear = d.clear := rfl
@[simp] theorem push_endCode (d : Decoder) (v : Byte) : (d.push v).endCode = d.endCode := rfl
@[simp] theorem push_csize (d : Decoder) (v : Byte) : (d.push v).csize = d.csize := rfl
@[simp] theorem push_mask (d : Decoder) (v : Byte) : (d.push v).mask = d.mask := rfl
@[simp] theorem push_avail (d : Decoder) (v : Byte) : (d.push v).avail = d.avail := rfl
@[simp] theorem push_prev (d : Decoder) (v : Byte) : (d.push v).prev = d.prev := rfl
@[simp] theorem push_prevV (d : Decoder) (v : Byte) : (d.push v).prevV = d.prevV := rfl
@[simp] theorem push_first (d : Decoder) (v : Byte) : (d.push v).first = d.first := rfl
@[simp] theorem push_acc (d : Decoder) (v : Byte) : (d.push v).acc = d.acc := rfl
@[simp] theorem push_nbits (d : Decoder) (v : Byte) : (d.push v).nbits = d.nbits := rfl
@[simp] theorem push_brem (d : Decoder) (v : Byte) : (d.push v).brem = d.brem := rfl
@[simp] theorem push_ipos (d : Decoder) (v : Byte) : (d.push v).ipos = d.ipos := rfl
@[simp] theorem push_ocnt (d : Decoder) (v : Byte) : (d.push v).ocnt = d.ocnt := rfl
@[simp] theorem push_npix (d : Decoder) (v : Byte) : (d.push v).npix = d.npix := rfl
@[simp] theorem push_top (d : Decoder) (v : Byte) : (d.push v).top = d.top + 1#13 := rfl
@[simp] theorem push_pfx (d : Decoder) (v : Byte) : (d.push v).pfx = d.pfx := rfl
@[simp] theorem push_sfx (d : Decoder) (v : Byte) : (d.push v).sfx = d.sfx := rfl
@[simp] theorem push_stack (d : Decoder) (v : Byte) : (d.push v).stack = Memory.write d.stack d.top.toNat v := rfl
@[simp] theorem push_tableDraw (d : Decoder) (v : Byte) : (d.push v).tableDraw = d.tableDraw := rfl
@[simp] theorem push_prefixAt (d : Decoder) (v : Byte) (c : Nat) : (d.push v).prefixAt c = d.prefixAt c := rfl
@[simp] theorem push_suffixAt (d : Decoder) (v : Byte) (c : Nat) : (d.push v).suffixAt c = d.suffixAt c := rfl

@[simp] theorem pop_mcs (d : Decoder) : d.pop.mcs = d.mcs := rfl
@[simp] theorem pop_clear (d : Decoder) : d.pop.clear = d.clear := rfl
@[simp] theorem pop_endCode (d : Decoder) : d.pop.endCode = d.endCode := rfl
@[simp] theorem pop_csize (d : Decoder) : d.pop.csize = d.csize := rfl
@[simp] theorem pop_mask (d : Decoder) : d.pop.mask = d.mask := rfl
@[simp] theorem pop_avail (d : Decoder) : d.pop.avail = d.avail := rfl
@[simp] theorem pop_prev (d : Decoder) : d.pop.prev = d.prev := rfl
@[simp] theorem pop_prevV (d : Decoder) : d.pop.prevV = d.prevV := rfl
@[simp] theorem pop_first (d : Decoder) : d.pop.first = d.first := rfl
@[simp] theorem pop_acc (d : Decoder) : d.pop.acc = d.acc := rfl
@[simp] theorem pop_nbits (d : Decoder) : d.pop.nbits = d.nbits := rfl
@[simp] theorem pop_brem (d : Decoder) : d.pop.brem = d.brem := rfl
@[simp] theorem pop_ipos (d : Decoder) : d.pop.ipos = d.ipos := rfl
@[simp] theorem pop_ocnt (d : Decoder) : d.pop.ocnt = d.ocnt := rfl
@[simp] theorem pop_npix (d : Decoder) : d.pop.npix = d.npix := rfl
@[simp] theorem pop_top (d : Decoder) : d.pop.top = d.top - 1#13 := rfl
@[simp] theorem pop_pfx (d : Decoder) : d.pop.pfx = d.pfx := rfl
@[simp] theorem pop_sfx (d : Decoder) : d.pop.sfx = d.sfx := rfl
@[simp] theorem pop_stack (d : Decoder) : d.pop.stack = d.stack := rfl
@[simp] theorem pop_tableDraw (d : Decoder) : d.pop.tableDraw = d.tableDraw := rfl
@[simp] theorem pop_prefixAt (d : Decoder) (c : Nat) : d.pop.prefixAt c = d.prefixAt c := rfl
@[simp] theorem pop_suffixAt (d : Decoder) (c : Nat) : d.pop.suffixAt c = d.suffixAt c := rfl

@[simp] theorem withFirst_mcs (d : Decoder) (v : BitVec 12) : (d.withFirst v).mcs = d.mcs := rfl
@[simp] theorem withFirst_clear (d : Decoder) (v : BitVec 12) : (d.withFirst v).clear = d.clear := rfl
@[simp] theorem withFirst_endCode (d : Decoder) (v : BitVec 12) : (d.withFirst v).endCode = d.endCode := rfl
@[simp] theorem withFirst_csize (d : Decoder) (v : BitVec 12) : (d.withFirst v).csize = d.csize := rfl
@[simp] theorem withFirst_mask (d : Decoder) (v : BitVec 12) : (d.withFirst v).mask = d.mask := rfl
@[simp] theorem withFirst_avail (d : Decoder) (v : BitVec 12) : (d.withFirst v).avail = d.avail := rfl
@[simp] theorem withFirst_prev (d : Decoder) (v : BitVec 12) : (d.withFirst v).prev = d.prev := rfl
@[simp] theorem withFirst_prevV (d : Decoder) (v : BitVec 12) : (d.withFirst v).prevV = d.prevV := rfl
@[simp] theorem withFirst_first (d : Decoder) (v : BitVec 12) : (d.withFirst v).first = v := rfl
@[simp] theorem withFirst_acc (d : Decoder) (v : BitVec 12) : (d.withFirst v).acc = d.acc := rfl
@[simp] theorem withFirst_nbits (d : Decoder) (v : BitVec 12) : (d.withFirst v).nbits = d.nbits := rfl
@[simp] theorem withFirst_brem (d : Decoder) (v : BitVec 12) : (d.withFirst v).brem = d.brem := rfl
@[simp] theorem withFirst_ipos (d : Decoder) (v : BitVec 12) : (d.withFirst v).ipos = d.ipos := rfl
@[simp] theorem withFirst_ocnt (d : Decoder) (v : BitVec 12) : (d.withFirst v).ocnt = d.ocnt := rfl
@[simp] theorem withFirst_npix (d : Decoder) (v : BitVec 12) : (d.withFirst v).npix = d.npix := rfl
@[simp] theorem withFirst_top (d : Decoder) (v : BitVec 12) : (d.withFirst v).top = d.top := rfl
@[simp] theorem withFirst_pfx (d : Decoder) (v : BitVec 12) : (d.withFirst v).pfx = d.pfx := rfl
@[simp] theorem withFirst_sfx (d : Decoder) (v : BitVec 12) : (d.withFirst v).sfx = d.sfx := rfl
@[simp] theorem withFirst_stack (d : Decoder) (v : BitVec 12) : (d.withFirst v).stack = d.stack := rfl
@[simp] theorem withFirst_tableDraw (d : Decoder) (v : BitVec 12) : (d.withFirst v).tableDraw = d.tableDraw := rfl
@[simp] theorem withFirst_prefixAt (d : Decoder) (v : BitVec 12) (c : Nat) : (d.withFirst v).prefixAt c = d.prefixAt c := rfl
@[simp] theorem withFirst_suffixAt (d : Decoder) (v : BitVec 12) (c : Nat) : (d.withFirst v).suffixAt c = d.suffixAt c := rfl

@[simp] theorem withPrev_mcs (d : Decoder) (v : BitVec 12) : (d.withPrev v).mcs = d.mcs := rfl
@[simp] theorem withPrev_clear (d : Decoder) (v : BitVec 12) : (d.withPrev v).clear = d.clear := rfl
@[simp] theorem withPrev_endCode (d : Decoder) (v : BitVec 12) : (d.withPrev v).endCode = d.endCode := rfl
@[simp] theorem withPrev_csize (d : Decoder) (v : BitVec 12) : (d.withPrev v).csize = d.csize := rfl
@[simp] theorem withPrev_mask (d : Decoder) (v : BitVec 12) : (d.withPrev v).mask = d.mask := rfl
@[simp] theorem withPrev_avail (d : Decoder) (v : BitVec 12) : (d.withPrev v).avail = d.avail := rfl
@[simp] theorem withPrev_prev (d : Decoder) (v : BitVec 12) : (d.withPrev v).prev = v := rfl
@[simp] theorem withPrev_prevV (d : Decoder) (v : BitVec 12) : (d.withPrev v).prevV = d.prevV := rfl
@[simp] theorem withPrev_first (d : Decoder) (v : BitVec 12) : (d.withPrev v).first = d.first := rfl
@[simp] theorem withPrev_acc (d : Decoder) (v : BitVec 12) : (d.withPrev v).acc = d.acc := rfl
@[simp] theorem withPrev_nbits (d : Decoder) (v : BitVec 12) : (d.withPrev v).nbits = d.nbits := rfl
@[simp] theorem withPrev_brem (d : Decoder) (v : BitVec 12) : (d.withPrev v).brem = d.brem := rfl
@[simp] theorem withPrev_ipos (d : Decoder) (v : BitVec 12) : (d.withPrev v).ipos = d.ipos := rfl
@[simp] theorem withPrev_ocnt (d : Decoder) (v : BitVec 12) : (d.withPrev v).ocnt = d.ocnt := rfl
@[simp] theorem withPrev_npix (d : Decoder) (v : BitVec 12) : (d.withPrev v).npix = d.npix := rfl
@[simp] theorem withPrev_top (d : Decoder) (v : BitVec 12) : (d.withPrev v).top = d.top := rfl
@[simp] theorem withPrev_pfx (d : Decoder) (v : BitVec 12) : (d.withPrev v).pfx = d.pfx := rfl
@[simp] theorem withPrev_sfx (d : Decoder) (v : BitVec 12) : (d.withPrev v).sfx = d.sfx := rfl
@[simp] theorem withPrev_stack (d : Decoder) (v : BitVec 12) : (d.withPrev v).stack = d.stack := rfl
@[simp] theorem withPrev_tableDraw (d : Decoder) (v : BitVec 12) : (d.withPrev v).tableDraw = d.tableDraw := rfl
@[simp] theorem withPrev_prefixAt (d : Decoder) (v : BitVec 12) (c : Nat) : (d.withPrev v).prefixAt c = d.prefixAt c := rfl
@[simp] theorem withPrev_suffixAt (d : Decoder) (v : BitVec 12) (c : Nat) : (d.withPrev v).suffixAt c = d.suffixAt c := rfl

@[simp] theorem resetCursors_mcs (d : Decoder) : d.resetCursors.mcs = d.mcs := rfl
@[simp] theorem resetCursors_clear (d : Decoder) : d.resetCursors.clear = d.clear := rfl
@[simp] theorem resetCursors_endCode (d : Decoder) : d.resetCursors.endCode = d.endCode := rfl
@[simp] theorem resetCursors_csize (d : Decoder) : d.resetCursors.csize = d.csize := rfl
@[simp] theorem resetCursors_mask (d : Decoder) : d.resetCursors.mask = d.mask := rfl
@[simp] theorem resetCursors_avail (d : Decoder) : d.resetCursors.avail = d.avail := rfl
@[simp] theorem resetCursors_prev (d : Decoder) : d.resetCursors.prev = d.prev := rfl
@[simp] theorem resetCursors_prevV (d : Decoder) : d.resetCursors.prevV = d.prevV := rfl
@[simp] theorem resetCursors_first (d : Decoder) : d.resetCursors.first = d.first := rfl
@[simp] theorem resetCursors_acc (d : Decoder) : d.resetCursors.acc = d.acc := rfl
@[simp] theorem resetCursors_nbits (d : Decoder) : d.resetCursors.nbits = d.nbits := rfl
@[simp] theorem resetCursors_brem (d : Decoder) : d.resetCursors.brem = d.brem := rfl
@[simp] theorem resetCursors_ipos (d : Decoder) : d.resetCursors.ipos = 0#32 := rfl
@[simp] theorem resetCursors_ocnt (d : Decoder) : d.resetCursors.ocnt = 0#32 := rfl
@[simp] theorem resetCursors_npix (d : Decoder) : d.resetCursors.npix = d.npix := rfl
@[simp] theorem resetCursors_top (d : Decoder) : d.resetCursors.top = d.top := rfl
@[simp] theorem resetCursors_pfx (d : Decoder) : d.resetCursors.pfx = d.pfx := rfl
@[simp] theorem resetCursors_sfx (d : Decoder) : d.resetCursors.sfx = d.sfx := rfl
@[simp] theorem resetCursors_stack (d : Decoder) : d.resetCursors.stack = d.stack := rfl
@[simp] theorem resetCursors_tableDraw (d : Decoder) : d.resetCursors.tableDraw = d.tableDraw := rfl

@[simp] theorem withIpos_mcs (d : Decoder) (v : Word) : (d.withIpos v).mcs = d.mcs := rfl
@[simp] theorem withIpos_clear (d : Decoder) (v : Word) : (d.withIpos v).clear = d.clear := rfl
@[simp] theorem withIpos_endCode (d : Decoder) (v : Word) : (d.withIpos v).endCode = d.endCode := rfl
@[simp] theorem withIpos_csize (d : Decoder) (v : Word) : (d.withIpos v).csize = d.csize := rfl
@[simp] theorem withIpos_mask (d : Decoder) (v : Word) : (d.withIpos v).mask = d.mask := rfl
@[simp] theorem withIpos_avail (d : Decoder) (v : Word) : (d.withIpos v).avail = d.avail := rfl
@[simp] theorem withIpos_prev (d : Decoder) (v : Word) : (d.withIpos v).prev = d.prev := rfl
@[simp] theorem withIpos_prevV (d : Decoder) (v : Word) : (d.withIpos v).prevV = d.prevV := rfl
@[simp] theorem withIpos_first (d : Decoder) (v : Word) : (d.withIpos v).first = d.first := rfl
@[simp] theorem withIpos_acc (d : Decoder) (v : Word) : (d.withIpos v).acc = d.acc := rfl
@[simp] theorem withIpos_nbits (d : Decoder) (v : Word) : (d.withIpos v).nbits = d.nbits := rfl
@[simp] theorem withIpos_brem (d : Decoder) (v : Word) : (d.withIpos v).brem = d.brem := rfl
@[simp] theorem withIpos_ipos (d : Decoder) (v : Word) : (d.withIpos v).ipos = v := rfl
@[simp] theorem withIpos_ocnt (d : Decoder) (v : Word) : (d.withIpos v).ocnt = d.ocnt := rfl
@[simp] theorem withIpos_npix (d : Decoder) (v : Word) : (d.withIpos v).npix = d.npix := rfl
@[simp] theorem withIpos_top (d : Decoder) (v : Word) : (d.withIpos v).top = d.top := rfl
@[simp] theorem withIpos_pfx (d : Decoder) (v : Word) : (d.withIpos v).pfx = d.pfx := rfl
@[simp] theorem withIpos_sfx (d : Decoder) (v : Word) : (d.withIpos v).sfx = d.sfx := rfl
@[simp] theorem withIpos_stack (d : Decoder) (v : Word) : (d.withIpos v).stack = d.stack := rfl
@[simp] theorem withIpos_tableDraw (d : Decoder) (v : Word) : (d.withIpos v).tableDraw = d.tableDraw := rfl

@[simp] theorem withNpix_mcs (d : Decoder) (v : Word) : (d.withNpix v).mcs = d.mcs := rfl
@[simp] theorem withNpix_clear (d : Decoder) (v : Word) : (d.withNpix v).clear = d.clear := rfl
@[simp] theorem withNpix_endCode (d : Decoder) (v : Word) : (d.withNpix v).endCode = d.endCode := rfl
@[simp] theorem withNpix_csize (d : Decoder) (v : Word) : (d.withNpix v).csize = d.csize := rfl
@[simp] theorem withNpix_mask (d : Decoder) (v : Word) : (d.withNpix v).mask = d.mask := rfl
@[simp] theorem withNpix_avail (d : Decoder) (v : Word) : (d.withNpix v).avail = d.avail := rfl
@[simp] theorem withNpix_prev (d : Decoder) (v : Word) : (d.withNpix v).prev = d.prev := rfl
@[simp] theorem withNpix_prevV (d : Decoder) (v : Word) : (d.withNpix v).prevV = d.prevV := rfl
@[simp] theorem withNpix_first (d : Decoder) (v : Word) : (d.withNpix v).first = d.first := rfl
@[simp] theorem withNpix_acc (d : Decoder) (v : Word) : (d.withNpix v).acc = d.acc := rfl
@[simp] theorem withNpix_nbits (d : Decoder) (v : Word) : (d.withNpix v).nbits = d.nbits := rfl
@[simp] theorem withNpix_brem (d : Decoder) (v : Word) : (d.withNpix v).brem = d.brem := rfl
@[simp] theorem withNpix_ipos (d : Decoder) (v : Word) : (d.withNpix v).ipos = d.ipos := rfl
@[simp] theorem withNpix_ocnt (d : Decoder) (v : Word) : (d.withNpix v).ocnt = d.ocnt := rfl
@[simp] theorem withNpix_npix (d : Decoder) (v : Word) : (d.withNpix v).npix = v := rfl
@[simp] theorem withNpix_top (d : Decoder) (v : Word) : (d.withNpix v).top = d.top := rfl
@[simp] theorem withNpix_pfx (d : Decoder) (v : Word) : (d.withNpix v).pfx = d.pfx := rfl
@[simp] theorem withNpix_sfx (d : Decoder) (v : Word) : (d.withNpix v).sfx = d.sfx := rfl
@[simp] theorem withNpix_stack (d : Decoder) (v : Word) : (d.withNpix v).stack = d.stack := rfl
@[simp] theorem withNpix_tableDraw (d : Decoder) (v : Word) : (d.withNpix v).tableDraw = d.tableDraw := rfl

@[simp] theorem consume_mcs (d : Decoder) : d.consume.mcs = d.mcs := rfl
@[simp] theorem consume_clear (d : Decoder) : d.consume.clear = d.clear := rfl
@[simp] theorem consume_endCode (d : Decoder) : d.consume.endCode = d.endCode := rfl
@[simp] theorem consume_csize (d : Decoder) : d.consume.csize = d.csize := rfl
@[simp] theorem consume_mask (d : Decoder) : d.consume.mask = d.mask := rfl
@[simp] theorem consume_avail (d : Decoder) : d.consume.avail = d.avail := rfl
@[simp] theorem consume_prev (d : Decoder) : d.consume.prev = d.prev := rfl
@[simp] theorem consume_prevV (d : Decoder) : d.consume.prevV = d.prevV := rfl
@[simp] theorem consume_first (d : Decoder) : d.consume.first = d.first := rfl
@[simp] theorem consume_acc (d : Decoder) : d.consume.acc = d.acc >>> d.csize.toNat := rfl
@[simp] theorem consume_nbits (d : Decoder) : d.consume.nbits = BitVec.ofNat 5 (d.nbits.toNat - d.csize.toNat) := rfl
@[simp] theorem consume_brem (d : Decoder) : d.consume.brem = d.brem := rfl
@[simp] theorem consume_ipos (d : Decoder) : d.consume.ipos = d.ipos := rfl
@[simp] theorem consume_ocnt (d : Decoder) : d.consume.ocnt = d.ocnt := rfl
@[simp] theorem consume_npix (d : Decoder) : d.consume.npix = d.npix := rfl
@[simp] theorem consume_top (d : Decoder) : d.consume.top = d.top := rfl
@[simp] theorem consume_pfx (d : Decoder) : d.consume.pfx = d.pfx := rfl
@[simp] theorem consume_sfx (d : Decoder) : d.consume.sfx = d.sfx := rfl
@[simp] theorem consume_stack (d : Decoder) : d.consume.stack = d.stack := rfl
@[simp] theorem consume_tableDraw (d : Decoder) : d.consume.tableDraw = d.tableDraw := rfl

/-- PREFIX and SUFFIX once entry `k` has been defined. -/
theorem prefixAt_put (d : Decoder) (k c : Nat) (p : BitVec 12) :
    ({ d with pfx := Table.put d.pfx k p } : Decoder).prefixAt c = if c = k then p else d.prefixAt c := by
  simp only [prefixAt, Table.find_put]
  split <;> rfl

theorem suffixAt_put (d : Decoder) (k c : Nat) (v : Byte) :
    ({ d with sfx := Table.put d.sfx k v } : Decoder).suffixAt c = if c = k then v else d.suffixAt c := by
  simp only [suffixAt, Table.find_put]
  split <;> rfl

end Sys2Proof.Machine.Decoder
end

