-- ==== Sys2Proof/Laws/State.lean ====
section
/-! SUPPORT. One lemma per field of State per update of a group, so that no later proof unfolds a record update. -/

namespace Sys2Proof.Machine.State

@[simp] theorem withSeq_seq (s : State) (x : Seq) : (s.withSeq x).seq = x := rfl
@[simp] theorem withSeq_op (s : State) (x : Seq) : (s.withSeq x).op = s.op := rfl
@[simp] theorem withSeq_status (s : State) (x : Seq) : (s.withSeq x).status = s.status := rfl
@[simp] theorem withSeq_regs (s : State) (x : Seq) : (s.withSeq x).regs = s.regs := rfl
@[simp] theorem withSeq_results (s : State) (x : Seq) : (s.withSeq x).results = s.results := rfl
@[simp] theorem withSeq_dec (s : State) (x : Seq) : (s.withSeq x).dec = s.dec := rfl
@[simp] theorem withSeq_cmp (s : State) (x : Seq) : (s.withSeq x).cmp = s.cmp := rfl
@[simp] theorem withSeq_buf (s : State) (x : Seq) : (s.withSeq x).buf = s.buf := rfl
@[simp] theorem withSeq_env (s : State) (x : Seq) : (s.withSeq x).env = s.env := rfl

@[simp] theorem withOp_seq (s : State) (x : Command) : (s.withOp x).seq = s.seq := rfl
@[simp] theorem withOp_op (s : State) (x : Command) : (s.withOp x).op = x := rfl
@[simp] theorem withOp_status (s : State) (x : Command) : (s.withOp x).status = s.status := rfl
@[simp] theorem withOp_regs (s : State) (x : Command) : (s.withOp x).regs = s.regs := rfl
@[simp] theorem withOp_results (s : State) (x : Command) : (s.withOp x).results = s.results := rfl
@[simp] theorem withOp_dec (s : State) (x : Command) : (s.withOp x).dec = s.dec := rfl
@[simp] theorem withOp_cmp (s : State) (x : Command) : (s.withOp x).cmp = s.cmp := rfl
@[simp] theorem withOp_buf (s : State) (x : Command) : (s.withOp x).buf = s.buf := rfl
@[simp] theorem withOp_env (s : State) (x : Command) : (s.withOp x).env = s.env := rfl

@[simp] theorem withStatus_seq (s : State) (x : Status) : (s.withStatus x).seq = s.seq := rfl
@[simp] theorem withStatus_op (s : State) (x : Status) : (s.withStatus x).op = s.op := rfl
@[simp] theorem withStatus_status (s : State) (x : Status) : (s.withStatus x).status = x := rfl
@[simp] theorem withStatus_regs (s : State) (x : Status) : (s.withStatus x).regs = s.regs := rfl
@[simp] theorem withStatus_results (s : State) (x : Status) : (s.withStatus x).results = s.results := rfl
@[simp] theorem withStatus_dec (s : State) (x : Status) : (s.withStatus x).dec = s.dec := rfl
@[simp] theorem withStatus_cmp (s : State) (x : Status) : (s.withStatus x).cmp = s.cmp := rfl
@[simp] theorem withStatus_buf (s : State) (x : Status) : (s.withStatus x).buf = s.buf := rfl
@[simp] theorem withStatus_env (s : State) (x : Status) : (s.withStatus x).env = s.env := rfl

@[simp] theorem withRegs_seq (s : State) (x : Regs) : (s.withRegs x).seq = s.seq := rfl
@[simp] theorem withRegs_op (s : State) (x : Regs) : (s.withRegs x).op = s.op := rfl
@[simp] theorem withRegs_status (s : State) (x : Regs) : (s.withRegs x).status = s.status := rfl
@[simp] theorem withRegs_regs (s : State) (x : Regs) : (s.withRegs x).regs = x := rfl
@[simp] theorem withRegs_results (s : State) (x : Regs) : (s.withRegs x).results = s.results := rfl
@[simp] theorem withRegs_dec (s : State) (x : Regs) : (s.withRegs x).dec = s.dec := rfl
@[simp] theorem withRegs_cmp (s : State) (x : Regs) : (s.withRegs x).cmp = s.cmp := rfl
@[simp] theorem withRegs_buf (s : State) (x : Regs) : (s.withRegs x).buf = s.buf := rfl
@[simp] theorem withRegs_env (s : State) (x : Regs) : (s.withRegs x).env = s.env := rfl

@[simp] theorem withResults_seq (s : State) (x : Results) : (s.withResults x).seq = s.seq := rfl
@[simp] theorem withResults_op (s : State) (x : Results) : (s.withResults x).op = s.op := rfl
@[simp] theorem withResults_status (s : State) (x : Results) : (s.withResults x).status = s.status := rfl
@[simp] theorem withResults_regs (s : State) (x : Results) : (s.withResults x).regs = s.regs := rfl
@[simp] theorem withResults_results (s : State) (x : Results) : (s.withResults x).results = x := rfl
@[simp] theorem withResults_dec (s : State) (x : Results) : (s.withResults x).dec = s.dec := rfl
@[simp] theorem withResults_cmp (s : State) (x : Results) : (s.withResults x).cmp = s.cmp := rfl
@[simp] theorem withResults_buf (s : State) (x : Results) : (s.withResults x).buf = s.buf := rfl
@[simp] theorem withResults_env (s : State) (x : Results) : (s.withResults x).env = s.env := rfl

@[simp] theorem withDec_seq (s : State) (x : Decoder) : (s.withDec x).seq = s.seq := rfl
@[simp] theorem withDec_op (s : State) (x : Decoder) : (s.withDec x).op = s.op := rfl
@[simp] theorem withDec_status (s : State) (x : Decoder) : (s.withDec x).status = s.status := rfl
@[simp] theorem withDec_regs (s : State) (x : Decoder) : (s.withDec x).regs = s.regs := rfl
@[simp] theorem withDec_results (s : State) (x : Decoder) : (s.withDec x).results = s.results := rfl
@[simp] theorem withDec_dec (s : State) (x : Decoder) : (s.withDec x).dec = x := rfl
@[simp] theorem withDec_cmp (s : State) (x : Decoder) : (s.withDec x).cmp = s.cmp := rfl
@[simp] theorem withDec_buf (s : State) (x : Decoder) : (s.withDec x).buf = s.buf := rfl
@[simp] theorem withDec_env (s : State) (x : Decoder) : (s.withDec x).env = s.env := rfl

@[simp] theorem withCmp_seq (s : State) (x : Compositor) : (s.withCmp x).seq = s.seq := rfl
@[simp] theorem withCmp_op (s : State) (x : Compositor) : (s.withCmp x).op = s.op := rfl
@[simp] theorem withCmp_status (s : State) (x : Compositor) : (s.withCmp x).status = s.status := rfl
@[simp] theorem withCmp_regs (s : State) (x : Compositor) : (s.withCmp x).regs = s.regs := rfl
@[simp] theorem withCmp_results (s : State) (x : Compositor) : (s.withCmp x).results = s.results := rfl
@[simp] theorem withCmp_dec (s : State) (x : Compositor) : (s.withCmp x).dec = s.dec := rfl
@[simp] theorem withCmp_cmp (s : State) (x : Compositor) : (s.withCmp x).cmp = x := rfl
@[simp] theorem withCmp_buf (s : State) (x : Compositor) : (s.withCmp x).buf = s.buf := rfl
@[simp] theorem withCmp_env (s : State) (x : Compositor) : (s.withCmp x).env = s.env := rfl

@[simp] theorem withBuf_seq (s : State) (x : Buffers) : (s.withBuf x).seq = s.seq := rfl
@[simp] theorem withBuf_op (s : State) (x : Buffers) : (s.withBuf x).op = s.op := rfl
@[simp] theorem withBuf_status (s : State) (x : Buffers) : (s.withBuf x).status = s.status := rfl
@[simp] theorem withBuf_regs (s : State) (x : Buffers) : (s.withBuf x).regs = s.regs := rfl
@[simp] theorem withBuf_results (s : State) (x : Buffers) : (s.withBuf x).results = s.results := rfl
@[simp] theorem withBuf_dec (s : State) (x : Buffers) : (s.withBuf x).dec = s.dec := rfl
@[simp] theorem withBuf_cmp (s : State) (x : Buffers) : (s.withBuf x).cmp = s.cmp := rfl
@[simp] theorem withBuf_buf (s : State) (x : Buffers) : (s.withBuf x).buf = x := rfl
@[simp] theorem withBuf_env (s : State) (x : Buffers) : (s.withBuf x).env = s.env := rfl

@[simp] theorem withEnv_seq (s : State) (x : Env) : (s.withEnv x).seq = s.seq := rfl
@[simp] theorem withEnv_op (s : State) (x : Env) : (s.withEnv x).op = s.op := rfl
@[simp] theorem withEnv_status (s : State) (x : Env) : (s.withEnv x).status = s.status := rfl
@[simp] theorem withEnv_regs (s : State) (x : Env) : (s.withEnv x).regs = s.regs := rfl
@[simp] theorem withEnv_results (s : State) (x : Env) : (s.withEnv x).results = s.results := rfl
@[simp] theorem withEnv_dec (s : State) (x : Env) : (s.withEnv x).dec = s.dec := rfl
@[simp] theorem withEnv_cmp (s : State) (x : Env) : (s.withEnv x).cmp = s.cmp := rfl
@[simp] theorem withEnv_buf (s : State) (x : Env) : (s.withEnv x).buf = s.buf := rfl
@[simp] theorem withEnv_env (s : State) (x : Env) : (s.withEnv x).env = x := rfl

@[simp] theorem withSeq_self (s : State) : s.withSeq s.seq = s := rfl
@[simp] theorem withSeq_withSeq (s : State) (x y : Seq) : (s.withSeq x).withSeq y = s.withSeq y := rfl
@[simp] theorem withOp_self (s : State) : s.withOp s.op = s := rfl
@[simp] theorem withOp_withOp (s : State) (x y : Command) : (s.withOp x).withOp y = s.withOp y := rfl
@[simp] theorem withStatus_self (s : State) : s.withStatus s.status = s := rfl
@[simp] theorem withStatus_withStatus (s : State) (x y : Status) : (s.withStatus x).withStatus y = s.withStatus y := rfl
@[simp] theorem withRegs_self (s : State) : s.withRegs s.regs = s := rfl
@[simp] theorem withRegs_withRegs (s : State) (x y : Regs) : (s.withRegs x).withRegs y = s.withRegs y := rfl
@[simp] theorem withResults_self (s : State) : s.withResults s.results = s := rfl
@[simp] theorem withResults_withResults (s : State) (x y : Results) : (s.withResults x).withResults y = s.withResults y := rfl
@[simp] theorem withDec_self (s : State) : s.withDec s.dec = s := rfl
@[simp] theorem withDec_withDec (s : State) (x y : Decoder) : (s.withDec x).withDec y = s.withDec y := rfl
@[simp] theorem withCmp_self (s : State) : s.withCmp s.cmp = s := rfl
@[simp] theorem withCmp_withCmp (s : State) (x y : Compositor) : (s.withCmp x).withCmp y = s.withCmp y := rfl
@[simp] theorem withBuf_self (s : State) : s.withBuf s.buf = s := rfl
@[simp] theorem withBuf_withBuf (s : State) (x y : Buffers) : (s.withBuf x).withBuf y = s.withBuf y := rfl
@[simp] theorem withEnv_self (s : State) : s.withEnv s.env = s := rfl
@[simp] theorem withEnv_withEnv (s : State) (x y : Env) : (s.withEnv x).withEnv y = s.withEnv y := rfl

/-- Two states with equal groups are equal. -/
theorem ext_groups {s t : State} (h1 : s.seq = t.seq) (h2 : s.op = t.op) (h3 : s.status = t.status) (h4 : s.regs = t.regs)
    (h5 : s.results = t.results) (h6 : s.dec = t.dec) (h7 : s.cmp = t.cmp) (h8 : s.buf = t.buf) (h9 : s.env = t.env) : s = t := by
  cases s; cases t; simp_all

end Sys2Proof.Machine.State
end

