-- ==== Sys2Proof/Laws/Ops.lean ====
section
/-! SUPPORT. What each shared operation does, said once: the groups it leaves, the groups it sets, the ways it can end. -/

namespace Sys2Proof.Machine

/-! ## finish and raise Error -/

@[simp] theorem finish_seq (s : State) : (finish s).seq = .idle := rfl
@[simp] theorem finish_op (s : State) : (finish s).op = s.op := rfl
@[simp] theorem finish_status (s : State) : (finish s).status = { s.status with busy := false, done := true } := rfl
@[simp] theorem finish_regs (s : State) : (finish s).regs = s.regs := rfl
@[simp] theorem finish_results (s : State) : (finish s).results = s.counters := rfl
@[simp] theorem finish_dec (s : State) : (finish s).dec = s.dec := rfl
@[simp] theorem finish_cmp (s : State) : (finish s).cmp = s.cmp := rfl
@[simp] theorem finish_buf (s : State) : (finish s).buf = s.buf := rfl
@[simp] theorem finish_env (s : State) : (finish s).env = s.env := rfl

@[simp] theorem raiseError_seq (e : ErrCode) (s : State) : (raiseError e s).seq = .idle := rfl
@[simp] theorem raiseError_op (e : ErrCode) (s : State) : (raiseError e s).op = s.op := rfl
@[simp] theorem raiseError_status (e : ErrCode) (s : State) :
    (raiseError e s).status = { s.status with busy := false, done := true, errCode := e } := rfl
@[simp] theorem raiseError_regs (e : ErrCode) (s : State) : (raiseError e s).regs = s.regs := rfl
@[simp] theorem raiseError_results (e : ErrCode) (s : State) : (raiseError e s).results = s.counters := rfl
@[simp] theorem raiseError_dec (e : ErrCode) (s : State) : (raiseError e s).dec = s.dec := rfl
@[simp] theorem raiseError_cmp (e : ErrCode) (s : State) : (raiseError e s).cmp = s.cmp := rfl
@[simp] theorem raiseError_buf (e : ErrCode) (s : State) : (raiseError e s).buf = s.buf := rfl
@[simp] theorem raiseError_env (e : ErrCode) (s : State) : (raiseError e s).env = s.env := rfl

/-- finish() ends the command as R127 says, with the stop and the error that are recorded. -/
theorem finished_finish (s : State) : Finished s (finish s) s.status.decStop s.status.errCode s.counters :=
  ⟨rfl, rfl, rfl, rfl, rfl, rfl, rfl, rfl, rfl, rfl⟩

theorem finished_raiseError (e : ErrCode) (s : State) : Finished s (raiseError e s) s.status.decStop e s.counters :=
  ⟨rfl, rfl, rfl, rfl, rfl, rfl, rfl, rfl, rfl, rfl⟩

/-! ## The composite phase's entry -/

/-- Everything run_composite can do. -/
theorem runComposite_cases (s : State) :
    (s.regs.idxLen.toNat < s.regs.positions ∧ runComposite s = raiseError .idxRange s) ∨
    (s.regs.positions ≤ s.regs.idxLen.toNat ∧ s.regs.geometryOk = false ∧ runComposite s = raiseError .pixRange s) ∨
    (s.regs.positions ≤ s.regs.idxLen.toNat ∧ s.regs.geometryOk = true ∧
      runComposite s = (s.withCmp { s.cmp with cpos := 0#32 }).withSeq .composite) := by
  unfold runComposite
  split
  · exact .inl ⟨‹_›, rfl⟩
  · split
    · exact .inr (.inl ⟨by omega, ‹_›, rfl⟩)
    · exact .inr (.inr ⟨by omega, by simpa using ‹¬ s.regs.geometryOk = false›, rfl⟩)

theorem runComposite_ok {s : State} (h1 : s.regs.positions ≤ s.regs.idxLen.toNat) (h2 : s.regs.geometryOk = true) :
    runComposite s = (s.withCmp { s.cmp with cpos := 0#32 }).withSeq .composite := by
  unfold runComposite
  rw [if_neg (by omega), if_neg (by simp [h2])]

@[simp] theorem runComposite_op (s : State) : (runComposite s).op = s.op := by
  rcases runComposite_cases s with ⟨_, h⟩ | ⟨_, _, h⟩ | ⟨_, _, h⟩ <;> rw [h] <;> rfl
@[simp] theorem runComposite_regs (s : State) : (runComposite s).regs = s.regs := by
  rcases runComposite_cases s with ⟨_, h⟩ | ⟨_, _, h⟩ | ⟨_, _, h⟩ <;> rw [h] <;> rfl
@[simp] theorem runComposite_dec (s : State) : (runComposite s).dec = s.dec := by
  rcases runComposite_cases s with ⟨_, h⟩ | ⟨_, _, h⟩ | ⟨_, _, h⟩ <;> rw [h] <;> rfl
@[simp] theorem runComposite_buf (s : State) : (runComposite s).buf = s.buf := by
  rcases runComposite_cases s with ⟨_, h⟩ | ⟨_, _, h⟩ | ⟨_, _, h⟩ <;> rw [h] <;> rfl
@[simp] theorem runComposite_env (s : State) : (runComposite s).env = s.env := by
  rcases runComposite_cases s with ⟨_, h⟩ | ⟨_, _, h⟩ | ⟨_, _, h⟩ <;> rw [h] <;> rfl
@[simp] theorem runComposite_wbusy (s : State) : (runComposite s).status.wbusy = s.status.wbusy := by
  rcases runComposite_cases s with ⟨_, h⟩ | ⟨_, _, h⟩ | ⟨_, _, h⟩ <;> rw [h] <;> rfl

/-! ## stop_decode -/

/-- Everything stop_decode can do: it finishes a DECODE, and goes on to the composite phase of a DECODE_COMPOSITE. -/
theorem stopDecode_cases (r : DecStop) (s : State) :
    (s.op ≠ .decodeComposite ∧ stopDecode r s = finish (s.withStatus { s.status with decStop := r })) ∨
    (s.op = .decodeComposite ∧ stopDecode r s = runComposite (s.withStatus { s.status with decStop := r })) := by
  unfold stopDecode
  cases h : s.op <;> simp

theorem stopDecode_decode {s : State} (h : s.op = .decode) (r : DecStop) :
    stopDecode r s = finish (s.withStatus { s.status with decStop := r }) := by
  unfold stopDecode
  rw [h]

theorem stopDecode_decodeComposite {s : State} (h : s.op = .decodeComposite) (r : DecStop) :
    stopDecode r s = runComposite (s.withStatus { s.status with decStop := r }) := by
  unfold stopDecode
  rw [h]

@[simp] theorem stopDecode_op (r : DecStop) (s : State) : (stopDecode r s).op = s.op := by
  rcases stopDecode_cases r s with ⟨_, h⟩ | ⟨_, h⟩ <;> simp [h]
@[simp] theorem stopDecode_regs (r : DecStop) (s : State) : (stopDecode r s).regs = s.regs := by
  rcases stopDecode_cases r s with ⟨_, h⟩ | ⟨_, h⟩ <;> simp [h]
@[simp] theorem stopDecode_dec (r : DecStop) (s : State) : (stopDecode r s).dec = s.dec := by
  rcases stopDecode_cases r s with ⟨_, h⟩ | ⟨_, h⟩ <;> simp [h]
@[simp] theorem stopDecode_buf (r : DecStop) (s : State) : (stopDecode r s).buf = s.buf := by
  rcases stopDecode_cases r s with ⟨_, h⟩ | ⟨_, h⟩ <;> simp [h]
@[simp] theorem stopDecode_env (r : DecStop) (s : State) : (stopDecode r s).env = s.env := by
  rcases stopDecode_cases r s with ⟨_, h⟩ | ⟨_, h⟩ <;> simp [h]
@[simp] theorem stopDecode_wbusy (r : DecStop) (s : State) : (stopDecode r s).status.wbusy = s.status.wbusy := by
  rcases stopDecode_cases r s with ⟨_, h⟩ | ⟨_, h⟩ <;> simp [h]

/-! ## The start of a command -/

@[simp] theorem startLegal_seq (op : Command) (s : State) : (startLegal op s).seq = s.seq := rfl
@[simp] theorem startLegal_op (op : Command) (s : State) : (startLegal op s).op = op := rfl
@[simp] theorem startLegal_status (op : Command) (s : State) :
    (startLegal op s).status = { s.status with busy := true, done := false, errCode := .none, decStop := .none } := rfl
@[simp] theorem startLegal_regs (op : Command) (s : State) : (startLegal op s).regs = s.regs := rfl
@[simp] theorem startLegal_results (op : Command) (s : State) : (startLegal op s).results = Results.reset := rfl
@[simp] theorem startLegal_dec (op : Command) (s : State) : (startLegal op s).dec = s.dec.resetCursors := rfl
@[simp] theorem startLegal_cmp (op : Command) (s : State) : (startLegal op s).cmp = ⟨0#32, 0#32⟩ := rfl
@[simp] theorem startLegal_buf (op : Command) (s : State) : (startLegal op s).buf = s.buf := rfl
@[simp] theorem startLegal_env (op : Command) (s : State) : (startLegal op s).env = { s.env with idxLog := [], pixLog := [] } := rfl

/-- Everything run_decode does before its loop: the empty stream, the bad MCS byte, or the decoder started. -/
theorem runDecode_cases (s : State) :
    (s.regs.inLen = 0 ∧ runDecode s = stopDecode .inExhausted s) ∨
    (s.regs.inLen ≠ 0 ∧ 8 < (Memory.read s.buf.inp 0).toNat ∧
      runDecode s = raiseError .badMcs (s.withDec (s.dec.withIpos 1#32))) ∨
    (s.regs.inLen ≠ 0 ∧ (Memory.read s.buf.inp 0).toNat ≤ 8 ∧
      runDecode s = ((s.withDec (Decoder.start (s.dec.withIpos 1#32) (Memory.read s.buf.inp 0) s.env.draws)).withEnv
        { s.env with draws := s.env.draws + 1 }).withSeq .decode) := by
  unfold runDecode
  by_cases h0 : s.regs.inLen = 0
  · exact .inl ⟨h0, if_pos h0⟩
  · rw [if_neg h0]
    by_cases h8 : 8 < (Memory.read s.buf.inp 0).toNat
    · exact .inr (.inl ⟨h0, h8, if_pos h8⟩)
    · exact .inr (.inr ⟨h0, by omega, if_neg h8⟩)

theorem runDecode_empty {s : State} (h : s.regs.inLen = 0) : runDecode s = stopDecode .inExhausted s := by
  rcases runDecode_cases s with ⟨_, h'⟩ | ⟨h', _⟩ | ⟨h', _⟩
  · exact h'
  · exact absurd h h'
  · exact absurd h h'

theorem runDecode_badMcs {s : State} (h : s.regs.inLen ≠ 0) (hm : 8 < (Memory.read s.buf.inp 0).toNat) :
    runDecode s = raiseError .badMcs (s.withDec (s.dec.withIpos 1#32)) := by
  rcases runDecode_cases s with ⟨h', _⟩ | ⟨_, _, h'⟩ | ⟨_, h', _⟩
  · exact absurd h' h
  · exact h'
  · omega

theorem runDecode_ok {s : State} (h : s.regs.inLen ≠ 0) (hm : (Memory.read s.buf.inp 0).toNat ≤ 8) :
    runDecode s = ((s.withDec (Decoder.start (s.dec.withIpos 1#32) (Memory.read s.buf.inp 0) s.env.draws)).withEnv
      { s.env with draws := s.env.draws + 1 }).withSeq .decode := by
  rcases runDecode_cases s with ⟨h', _⟩ | ⟨_, h', _⟩ | ⟨_, _, h'⟩
  · exact absurd h' h
  · omega
  · exact h'

@[simp] theorem runDecode_op (s : State) : (runDecode s).op = s.op := by
  rcases runDecode_cases s with ⟨_, h⟩ | ⟨_, _, h⟩ | ⟨_, _, h⟩ <;> simp [h]
@[simp] theorem runDecode_regs (s : State) : (runDecode s).regs = s.regs := by
  rcases runDecode_cases s with ⟨_, h⟩ | ⟨_, _, h⟩ | ⟨_, _, h⟩ <;> simp [h]
@[simp] theorem runDecode_buf (s : State) : (runDecode s).buf = s.buf := by
  rcases runDecode_cases s with ⟨_, h⟩ | ⟨_, _, h⟩ | ⟨_, _, h⟩ <;> simp [h]
@[simp] theorem runDecode_wbusy (s : State) : (runDecode s).status.wbusy = s.status.wbusy := by
  rcases runDecode_cases s with ⟨_, h⟩ | ⟨_, _, h⟩ | ⟨_, _, h⟩ <;> simp [h]
@[simp] theorem runDecode_host (s : State) : (runDecode s).env.host = s.env.host := by
  rcases runDecode_cases s with ⟨_, h⟩ | ⟨_, _, h⟩ | ⟨_, _, h⟩ <;> simp [h]

/-! ## The three commands, once started -/

/-- Everything DECODE can do once it has started (R123). -/
theorem commandDecode_cases (s : State) :
    (s.regs.idxLen.toNat < s.regs.pixelCount.toNat ∧
      commandDecode s = raiseError .idxRange (s.withDec (s.dec.withNpix s.regs.pixelCount))) ∨
    (s.regs.pixelCount.toNat ≤ s.regs.idxLen.toNat ∧
      commandDecode s = runDecode (s.withDec (s.dec.withNpix s.regs.pixelCount))) := by
  by_cases h : s.regs.idxLen.toNat < s.regs.pixelCount.toNat
  · exact .inl ⟨h, if_pos h⟩
  · exact .inr ⟨by omega, if_neg h⟩

/-- Everything DECODE_COMPOSITE can do once it has started (R125). -/
theorem commandDecodeComposite_cases (s : State) :
    (s.regs.idxLen.toNat < s.regs.positions ∧ commandDecodeComposite s = raiseError .idxRange s) ∨
    (s.regs.positions ≤ s.regs.idxLen.toNat ∧ s.regs.geometryOk = false ∧ commandDecodeComposite s = raiseError .pixRange s) ∨
    (s.regs.positions ≤ s.regs.idxLen.toNat ∧ s.regs.geometryOk = true ∧
      commandDecodeComposite s = runDecode (s.withDec (s.dec.withNpix (BitVec.ofNat 32 s.regs.positions)))) := by
  unfold commandDecodeComposite
  by_cases h : s.regs.idxLen.toNat < s.regs.positions
  · exact .inl ⟨h, if_pos h⟩
  · rw [if_neg h]
    by_cases hg : s.regs.geometryOk = false
    · exact .inr (.inl ⟨by omega, hg, if_pos hg⟩)
    · exact .inr (.inr ⟨by omega, by simpa using hg, if_neg hg⟩)

/-- A CMD write is turned away while BUSY = 1 and runs the command's body while BUSY = 0. -/
theorem cmdWrite_busy {s : State} (h : s.status.busy = true) (body : State → State) : cmdWrite body s = busyWrite s := if_pos h
theorem cmdWrite_idle {s : State} (h : s.status.busy = false) (body : State → State) : cmdWrite body s = body s :=
  if_neg (by simp [h])

/-- N = FRAME_W * FRAME_H fits 32 bits (10_state.md R55). -/
theorem positions_lt (g : Regs) : g.positions < 2 ^ 32 := by
  have h1 := g.frameW.isLt
  have h2 := g.frameH.isLt
  have h := Nat.mul_le_mul (show g.frameW.toNat ≤ 65535 by omega) (show g.frameH.toNat ≤ 65535 by omega)
  unfold Regs.positions
  omega

/-! ## The start of the decoder -/

theorem rising_rootPrefixes (n : Nat) : Table.rising (rootPrefixes n) := by
  unfold rootPrefixes Table.rising
  rw [List.pairwise_map]
  exact List.pairwise_lt_range

theorem rising_rootSuffixes (n : Nat) : Table.rising (rootSuffixes n) := by
  unfold rootSuffixes Table.rising
  rw [List.pairwise_map]
  exact List.pairwise_lt_range

/-- After init_table a root code has PREFIX 0 and SUFFIX equal to itself (R153). -/
theorem find_rootPrefixes {n c : Nat} (h : c < n) : Table.find (rootPrefixes n) c = some 0 :=
  Table.find_of_mem (rising_rootPrefixes n) (List.mem_map.2 ⟨c, List.mem_range.2 h, rfl⟩)

theorem find_rootSuffixes {n c : Nat} (h : c < n) : Table.find (rootSuffixes n) c = some (BitVec.ofNat 8 c) :=
  Table.find_of_mem (rising_rootSuffixes n) (List.mem_map.2 ⟨c, List.mem_range.2 h, rfl⟩)

/-- init_table lists no other entry: what it holds is the draw TABLE_INIT (R48, R153). -/
theorem find_rootPrefixes_other {n c : Nat} (h : n ≤ c) : Table.find (rootPrefixes n) c = none :=
  Table.find_of_forall_ne fun e he => by
    obtain ⟨k, hk, rfl⟩ := List.mem_map.1 he
    have := List.mem_range.1 hk
    show k ≠ c
    omega

theorem find_rootSuffixes_other {n c : Nat} (h : n ≤ c) : Table.find (rootSuffixes n) c = none :=
  Table.find_of_forall_ne fun e he => by
    obtain ⟨k, hk, rfl⟩ := List.mem_map.1 he
    have := List.mem_range.1 hk
    show k ≠ c
    omega

/-! ## The decoder's and the compositor's primitives -/

@[simp] theorem emit_seq (v : Byte) (s : State) : (emit v s).seq = s.seq := rfl
@[simp] theorem emit_op (v : Byte) (s : State) : (emit v s).op = s.op := rfl
@[simp] theorem emit_status (v : Byte) (s : State) : (emit v s).status = s.status := rfl
@[simp] theorem emit_regs (v : Byte) (s : State) : (emit v s).regs = s.regs := rfl
@[simp] theorem emit_results (v : Byte) (s : State) : (emit v s).results = s.results := rfl
@[simp] theorem emit_dec (v : Byte) (s : State) : (emit v s).dec = { s.dec with ocnt := s.dec.ocnt + 1#32 } := rfl
@[simp] theorem emit_cmp (v : Byte) (s : State) : (emit v s).cmp = s.cmp := rfl
@[simp] theorem emit_buf (v : Byte) (s : State) :
    (emit v s).buf = { s.buf with idx := Memory.write s.buf.idx s.dec.ocnt.toNat v } := rfl
@[simp] theorem emit_host (v : Byte) (s : State) : (emit v s).env.host = s.env.host := rfl
@[simp] theorem emit_pixLog (v : Byte) (s : State) : (emit v s).env.pixLog = s.env.pixLog := rfl

@[simp] theorem nextPosition_seq (s : State) : (nextPosition s).seq = s.seq := rfl
@[simp] theorem nextPosition_op (s : State) : (nextPosition s).op = s.op := rfl
@[simp] theorem nextPosition_status (s : State) : (nextPosition s).status = s.status := rfl
@[simp] theorem nextPosition_regs (s : State) : (nextPosition s).regs = s.regs := rfl
@[simp] theorem nextPosition_results (s : State) : (nextPosition s).results = s.results := rfl
@[simp] theorem nextPosition_dec (s : State) : (nextPosition s).dec = s.dec := rfl
@[simp] theorem nextPosition_cmp (s : State) : (nextPosition s).cmp = { s.cmp with cpos := s.cmp.cpos + 1#32 } := rfl
@[simp] theorem nextPosition_buf (s : State) : (nextPosition s).buf = s.buf := rfl
@[simp] theorem nextPosition_env (s : State) : (nextPosition s).env = s.env := rfl

@[simp] theorem writePixel_seq (d : Nat) (c : Word) (s : State) : (writePixel d c s).seq = s.seq := rfl
@[simp] theorem writePixel_op (d : Nat) (c : Word) (s : State) : (writePixel d c s).op = s.op := rfl
@[simp] theorem writePixel_status (d : Nat) (c : Word) (s : State) : (writePixel d c s).status = s.status := rfl
@[simp] theorem writePixel_regs (d : Nat) (c : Word) (s : State) : (writePixel d c s).regs = s.regs := rfl
@[simp] theorem writePixel_results (d : Nat) (c : Word) (s : State) : (writePixel d c s).results = s.results := rfl
@[simp] theorem writePixel_dec (d : Nat) (c : Word) (s : State) : (writePixel d c s).dec = s.dec := rfl
@[simp] theorem writePixel_cmp (d : Nat) (c : Word) (s : State) : (writePixel d c s).cmp = { s.cmp with pwr := s.cmp.pwr + 1#32 } := rfl
@[simp] theorem writePixel_buf (d : Nat) (c : Word) (s : State) :
    (writePixel d c s).buf = { s.buf with pix := Memory.writeWord s.buf.pix d c } := rfl
@[simp] theorem writePixel_host (d : Nat) (c : Word) (s : State) : (writePixel d c s).env.host = s.env.host := rfl

end Sys2Proof.Machine
end

