-- ==== Sys2Proof/Laws/Expand.lean ====
section
/-! SUPPORT. The trie walk and the emission (41_lzw_decoder.md R166, R167, R172): what expand and emit_expansion do, said once, over the
contents of the pixel stack as a list. -/

namespace Sys2Proof.Machine

/-! ## The stack as a list -/

/-- STACK[n-1], ..., STACK[0]: the entries below depth `n`, the top one first. -/
def stackList (m : Memory) : Nat → List Byte
  | 0 => []
  | n + 1 => Memory.read m n :: stackList m n

@[simp] theorem length_stackList (m : Memory) (n : Nat) : (stackList m n).length = n := by
  induction n with
  | zero => rfl
  | succ n ih => simp [stackList, ih]

/-- A write at or above depth `n` leaves the entries below it alone. -/
theorem stackList_write (m : Memory) {n a : Nat} (v : Byte) (h : n ≤ a) : stackList (Memory.write m a v) n = stackList m n := by
  induction n with
  | zero => rfl
  | succ n ih =>
    rw [stackList, stackList, ih (by omega), Memory.read_write_other m v (by omega)]

/-- `e` is `d` but for the pixel stack and its depth. -/
def SameButStack (d e : Decoder) : Prop := e = { d with stack := e.stack, top := e.top }

theorem SameButStack.refl (d : Decoder) : SameButStack d d := rfl

theorem SameButStack.trans {d e f : Decoder} (h1 : SameButStack d e) (h2 : SameButStack e f) : SameButStack d f := by
  unfold SameButStack at *
  rw [h2, h1]

theorem SameButStack.push (d : Decoder) (v : Byte) : SameButStack d (d.push v) := rfl

theorem SameButStack.prefixAt {d e : Decoder} (h : SameButStack d e) (c : Nat) : e.prefixAt c = d.prefixAt c := by
  rw [h]; rfl

theorem SameButStack.suffixAt {d e : Decoder} (h : SameButStack d e) (c : Nat) : e.suffixAt c = d.suffixAt c := by
  rw [h]; rfl

theorem SameButStack.mcs {d e : Decoder} (h : SameButStack d e) : e.mcs = d.mcs := by rw [h]
theorem SameButStack.clear {d e : Decoder} (h : SameButStack d e) : e.clear = d.clear := by rw [h]
theorem SameButStack.endCode {d e : Decoder} (h : SameButStack d e) : e.endCode = d.endCode := by rw [h]
theorem SameButStack.csize {d e : Decoder} (h : SameButStack d e) : e.csize = d.csize := by rw [h]
theorem SameButStack.mask {d e : Decoder} (h : SameButStack d e) : e.mask = d.mask := by rw [h]
theorem SameButStack.avail {d e : Decoder} (h : SameButStack d e) : e.avail = d.avail := by rw [h]
theorem SameButStack.prev {d e : Decoder} (h : SameButStack d e) : e.prev = d.prev := by rw [h]
theorem SameButStack.prevV {d e : Decoder} (h : SameButStack d e) : e.prevV = d.prevV := by rw [h]
theorem SameButStack.first {d e : Decoder} (h : SameButStack d e) : e.first = d.first := by rw [h]
theorem SameButStack.acc {d e : Decoder} (h : SameButStack d e) : e.acc = d.acc := by rw [h]
theorem SameButStack.nbits {d e : Decoder} (h : SameButStack d e) : e.nbits = d.nbits := by rw [h]
theorem SameButStack.brem {d e : Decoder} (h : SameButStack d e) : e.brem = d.brem := by rw [h]
theorem SameButStack.ipos {d e : Decoder} (h : SameButStack d e) : e.ipos = d.ipos := by rw [h]
theorem SameButStack.ocnt {d e : Decoder} (h : SameButStack d e) : e.ocnt = d.ocnt := by rw [h]
theorem SameButStack.npix {d e : Decoder} (h : SameButStack d e) : e.npix = d.npix := by rw [h]
theorem SameButStack.pfx {d e : Decoder} (h : SameButStack d e) : e.pfx = d.pfx := by rw [h]
theorem SameButStack.sfx {d e : Decoder} (h : SameButStack d e) : e.sfx = d.sfx := by rw [h]
theorem SameButStack.tableDraw {d e : Decoder} (h : SameButStack d e) : e.tableDraw = d.tableDraw := by rw [h]

/-- str(c) does not depend on the stack. -/
theorem Spells.congr {d e : Decoder} (h : SameButStack d e) {c : BitVec 12} {bs : List Byte} (hs : Spells d c bs) : Spells e c bs := by
  induction hs with
  | root c hc => exact h.suffixAt c.toNat ▸ .root c (h.clear ▸ hc)
  | entry c bs hc _ ih =>
    rw [← h.suffixAt c.toNat]
    rw [← h.prefixAt c.toNat] at ih
    exact .entry c bs (h.clear ▸ hc) ih

theorem Spells.ne_nil {d : Decoder} {c : BitVec 12} {bs : List Byte} (h : Spells d c bs) : bs ≠ [] := by
  cases h <;> simp

/-- str(c) is one string. -/
theorem Spells.unique {d : Decoder} {c : BitVec 12} {bs cs : List Byte} (h : Spells d c bs) (h' : Spells d c cs) : bs = cs := by
  induction h generalizing cs with
  | root c hc =>
    cases h' with
    | root => rfl
    | entry _ _ hc' => omega
  | entry c bs hc _ ih =>
    cases h' with
    | root _ hc' => omega
    | entry _ bs' _ hp' => rw [ih hp']

/-! ## expand -/

theorem push_top {d : Decoder} (v : Byte) (h : d.top.toNat ≤ Config.stackCap) : (d.push v).top.toNat = d.top.toNat + 1 := by
  have : Config.stackCap = 4097 := rfl
  simp only [Decoder.push, BitVec.toNat_add, BitVec.toNat_ofNat]
  omega

/-- A push adds one entry on top. -/
theorem stackList_push {d : Decoder} (hw : Memory.wf d.stack) (v : Byte) (h : d.top.toNat ≤ Config.stackCap) :
    stackList (d.push v).stack (d.push v).top.toNat = v :: stackList d.stack d.top.toNat := by
  rw [push_top v h, stackList]
  simp only [Decoder.push]
  rw [Memory.read_write_same hw, stackList_write _ _ (Nat.le_refl _)]

/-- The walk of a code whose string fits the stack ends at its root; the rest of the string lies on the stack, in order. -/
theorem expand_spells {bs : List Byte} {c : BitVec 12} (fuel : Nat) (d : Decoder) (hs : Spells d c bs) (hw : Memory.wf d.stack)
    (hf : bs.length ≤ fuel + 1) (ht : d.top.toNat + bs.length ≤ Config.stackCap + 1) :
    ∃ r e, expand fuel c d = .root r e ∧ SameButStack d e ∧ Memory.wf e.stack ∧
      [e.suffixAt r.toNat] ++ stackList e.stack e.top.toNat = bs ++ stackList d.stack d.top.toNat ∧
      e.top.toNat + 1 = d.top.toNat + bs.length := by
  have hcap : Config.stackCap = 4097 := rfl
  induction fuel generalizing c d bs with
  | zero =>
    cases hs with
    | root c hc => exact ⟨c, d, by rw [expand, if_pos hc], .refl d, hw, rfl, rfl⟩
    | entry c bs hc hp =>
      have := List.length_pos_iff.2 hp.ne_nil
      simp only [List.length_append, List.length_cons, List.length_nil] at hf
      omega
  | succ n ih =>
    cases hs with
    | root c hc => exact ⟨c, d, by rw [expand, if_pos hc], .refl d, hw, rfl, rfl⟩
    | entry c bs hc hp =>
      have hpos := List.length_pos_iff.2 hp.ne_nil
      simp only [List.length_append, List.length_cons, List.length_nil] at hf ht
      have htop : d.top.toNat ≤ Config.stackCap := by omega
      have hpush := push_top (d.suffixAt c.toNat) htop
      obtain ⟨r, e, h1, h2, h3, h4, h5⟩ := ih (d.push (d.suffixAt c.toNat)) (hp.congr (.push d _))
        (Memory.wf_write hw _ _) (by omega) (by omega)
      refine ⟨r, e, ?_, (SameButStack.push d _).trans h2, h3, ?_, ?_⟩
      · rw [expand, if_neg (by omega)]
        simp only [h1]
        rw [if_neg (by omega)]
      · rw [h4, stackList_push hw _ htop, List.append_assoc]
        rfl
      · simp only [List.length_append, List.length_cons, List.length_nil]
        omega

/-- A walk that ends at a root has spelled a string that fits the stack. -/
theorem spells_of_expand {fuel : Nat} {c r : BitVec 12} {d e : Decoder} (h : expand fuel c d = .root r e)
    (ht : d.top.toNat ≤ Config.stackCap) :
    ∃ bs, Spells d c bs ∧ bs.length ≤ fuel + 1 ∧ d.top.toNat + bs.length ≤ Config.stackCap + 1 := by
  have hcap : Config.stackCap = 4097 := rfl
  induction fuel generalizing c d with
  | zero =>
    unfold expand at h
    split at h
    · exact ⟨_, .root c ‹_›, by simp, by simpa using ht⟩
    · cases h
  | succ n ih =>
    unfold expand at h
    split at h
    · exact ⟨_, .root c ‹_›, by simp, by simpa using ht⟩
    · rename_i hc
      simp only at h
      split at h
      · cases h
      · rename_i hfull
        have hpush := push_top (d.suffixAt c.toNat) ht
        obtain ⟨bs, h1, h2, h3⟩ := ih h (by omega)
        have hback : SameButStack (d.push (d.suffixAt c.toNat)) d := rfl
        refine ⟨bs ++ [d.suffixAt c.toNat], .entry c bs (by omega) (h1.congr hback), ?_, ?_⟩
        · simpa using h2
        · simp only [List.length_append, List.length_cons, List.length_nil]
          omega

/-- Whatever way a walk ends, it has written nothing but the stack, and the stack's invariant is kept. -/
theorem expand_frame {fuel : Nat} {c : BitVec 12} {d : Decoder} {w : Walk} (h : expand fuel c d = w) :
    match w with
    | .root r e => SameButStack d e ∧ r.toNat < d.clear.toNat
    | .overflow e => SameButStack d e := by
  induction fuel generalizing c d with
  | zero =>
    unfold expand at h
    split at h <;> subst h
    · exact ⟨.refl d, ‹_›⟩
    · exact .refl d
  | succ n ih =>
    unfold expand at h
    split at h
    · subst h; exact ⟨.refl d, ‹_›⟩
    · simp only at h
      split at h
      · subst h; exact .refl d
      · have := ih h
        cases w with
        | root r e => exact ⟨(SameButStack.push d _).trans this.1, this.2⟩
        | overflow e => exact (SameButStack.push d _).trans this

/-! ## Emission -/

/-- `t` is `s` after the bytes `bs` have been emitted: they stand in IDX from the old OCNT on; the pixel stack's depth and the write log
aside, nothing else has changed. -/
structure Emitted (s t : State) (bs : List Byte) : Prop where
  seq : t.seq = s.seq
  op : t.op = s.op
  status : t.status = s.status
  regs : t.regs = s.regs
  results : t.results = s.results
  cmp : t.cmp = s.cmp
  inp : t.buf.inp = s.buf.inp
  ct : t.buf.ct = s.buf.ct
  pix : t.buf.pix = s.buf.pix
  dec : t.dec = { s.dec with ocnt := t.dec.ocnt, top := t.dec.top }
  ocnt : t.dec.ocnt.toNat = s.dec.ocnt.toNat + bs.length
  idx : Memory.wf s.buf.idx → Memory.wf t.buf.idx ∧ IdxAppended s t s.dec.ocnt.toNat bs
  env : t.env = { s.env with idxLog := t.env.idxLog }

theorem Emitted.nil (s : State) : Emitted s s [] where
  seq := rfl
  op := rfl
  status := rfl
  regs := rfl
  results := rfl
  cmp := rfl
  inp := rfl
  ct := rfl
  pix := rfl
  dec := rfl
  ocnt := rfl
  idx := fun h => ⟨h, fun k hk => absurd hk (by simp), fun _ _ => rfl⟩
  env := rfl

theorem Emitted.emit {s : State} (v : Byte) (h : s.dec.ocnt.toNat + 1 < 2 ^ 32) : Emitted s (emit v s) [v] where
  seq := rfl
  op := rfl
  status := rfl
  regs := rfl
  results := rfl
  cmp := rfl
  inp := rfl
  ct := rfl
  pix := rfl
  dec := rfl
  ocnt := by
    simp only [emit_dec, BitVec.toNat_add, BitVec.toNat_ofNat, List.length_singleton]
    omega
  idx := fun hw => by
    refine ⟨Memory.wf_write hw _ _, fun k hk => ?_, fun b hb => ?_⟩
    · have : k = 0 := by simpa using hk
      subst this
      exact Memory.read_write_same hw _ _
    · exact Memory.read_write_other _ _ (by simp at hb; omega)
  env := rfl

theorem Emitted.trans {s t u : State} {bs cs : List Byte} (h1 : Emitted s t bs) (h2 : Emitted t u cs) : Emitted s u (bs ++ cs) where
  seq := h2.seq.trans h1.seq
  op := h2.op.trans h1.op
  status := h2.status.trans h1.status
  regs := h2.regs.trans h1.regs
  results := h2.results.trans h1.results
  cmp := h2.cmp.trans h1.cmp
  inp := h2.inp.trans h1.inp
  ct := h2.ct.trans h1.ct
  pix := h2.pix.trans h1.pix
  dec := by rw [h2.dec, h1.dec]
  ocnt := by rw [h2.ocnt, h1.ocnt, List.length_append]; omega
  idx := fun hw => by
    obtain ⟨hwt, ha, hf⟩ := h1.idx hw
    obtain ⟨hwu, hb, hg⟩ := h2.idx hwt
    rw [h1.ocnt] at hb hg
    refine ⟨hwu, fun k hk => ?_, fun b hb' => ?_⟩
    · by_cases hk' : k < bs.length
      · rw [hg _ (by omega), ha k hk', List.getElem_append_left hk']
      · simp only [List.length_append] at hk
        rw [List.getElem_append_right (by omega), ← hb (k - bs.length) (by omega)]
        congr 1
        omega
    · simp only [List.length_append] at hb'
      rw [hg b (by omega), hf b (by omega)]
  env := by rw [h2.env, h1.env]

/-! The decoder registers an emission leaves alone. -/

theorem Emitted.dec_mcs {s t : State} {bs : List Byte} (h : Emitted s t bs) : t.dec.mcs = s.dec.mcs := by rw [h.dec]
theorem Emitted.dec_clear {s t : State} {bs : List Byte} (h : Emitted s t bs) : t.dec.clear = s.dec.clear := by rw [h.dec]
theorem Emitted.dec_endCode {s t : State} {bs : List Byte} (h : Emitted s t bs) : t.dec.endCode = s.dec.endCode := by rw [h.dec]
theorem Emitted.dec_csize {s t : State} {bs : List Byte} (h : Emitted s t bs) : t.dec.csize = s.dec.csize := by rw [h.dec]
theorem Emitted.dec_mask {s t : State} {bs : List Byte} (h : Emitted s t bs) : t.dec.mask = s.dec.mask := by rw [h.dec]
theorem Emitted.dec_avail {s t : State} {bs : List Byte} (h : Emitted s t bs) : t.dec.avail = s.dec.avail := by rw [h.dec]
theorem Emitted.dec_prev {s t : State} {bs : List Byte} (h : Emitted s t bs) : t.dec.prev = s.dec.prev := by rw [h.dec]
theorem Emitted.dec_prevV {s t : State} {bs : List Byte} (h : Emitted s t bs) : t.dec.prevV = s.dec.prevV := by rw [h.dec]
theorem Emitted.dec_first {s t : State} {bs : List Byte} (h : Emitted s t bs) : t.dec.first = s.dec.first := by rw [h.dec]
theorem Emitted.dec_acc {s t : State} {bs : List Byte} (h : Emitted s t bs) : t.dec.acc = s.dec.acc := by rw [h.dec]
theorem Emitted.dec_nbits {s t : State} {bs : List Byte} (h : Emitted s t bs) : t.dec.nbits = s.dec.nbits := by rw [h.dec]
theorem Emitted.dec_brem {s t : State} {bs : List Byte} (h : Emitted s t bs) : t.dec.brem = s.dec.brem := by rw [h.dec]
theorem Emitted.dec_ipos {s t : State} {bs : List Byte} (h : Emitted s t bs) : t.dec.ipos = s.dec.ipos := by rw [h.dec]
theorem Emitted.dec_npix {s t : State} {bs : List Byte} (h : Emitted s t bs) : t.dec.npix = s.dec.npix := by rw [h.dec]
theorem Emitted.dec_pfx {s t : State} {bs : List Byte} (h : Emitted s t bs) : t.dec.pfx = s.dec.pfx := by rw [h.dec]
theorem Emitted.dec_sfx {s t : State} {bs : List Byte} (h : Emitted s t bs) : t.dec.sfx = s.dec.sfx := by rw [h.dec]
theorem Emitted.dec_stack {s t : State} {bs : List Byte} (h : Emitted s t bs) : t.dec.stack = s.dec.stack := by rw [h.dec]
theorem Emitted.dec_tableDraw {s t : State} {bs : List Byte} (h : Emitted s t bs) : t.dec.tableDraw = s.dec.tableDraw := by rw [h.dec]

theorem Emitted.prefixAt {s t : State} {bs : List Byte} (h : Emitted s t bs) (c : Nat) : t.dec.prefixAt c = s.dec.prefixAt c := by
  rw [h.dec]; rfl

theorem Emitted.suffixAt {s t : State} {bs : List Byte} (h : Emitted s t bs) (c : Nat) : t.dec.suffixAt c = s.dec.suffixAt c := by
  rw [h.dec]; rfl

/-- A depth change of the pixel stack is no emission. -/
theorem Emitted.top (s : State) (x : BitVec 13) : Emitted s (s.withDec { s.dec with top := x }) [] where
  seq := rfl
  op := rfl
  status := rfl
  regs := rfl
  results := rfl
  cmp := rfl
  inp := rfl
  ct := rfl
  pix := rfl
  dec := rfl
  ocnt := rfl
  idx := fun h => ⟨h, fun k hk => absurd hk (by simp), fun _ _ => rfl⟩
  env := rfl

theorem pop_top {d : Decoder} {n : Nat} (h : d.top.toNat = n + 1) : d.pop.top.toNat = n := by
  have h2 := d.top.isLt
  have h1 : (1#13).toNat = 1 := rfl
  simp only [Decoder.pop]
  rw [BitVec.toNat_sub, h1]
  omega

/-- Popping emits the stack's entries, top first: all of them when they leave OCNT below NPIX, else exactly up to NPIX, with the count
stop. -/
theorem popAll_spec (n : Nat) (s : State) (ht : s.dec.top.toNat = n) (ho : s.dec.ocnt.toNat < s.dec.npix.toNat) :
    (s.dec.ocnt.toNat + n < s.dec.npix.toNat →
      ∃ t, popAll n s = (t, false) ∧ Emitted s t (stackList s.dec.stack n)) ∧
    (s.dec.npix.toNat ≤ s.dec.ocnt.toNat + n →
      ∃ t, popAll n s = (t, true) ∧ t.dec.ocnt = t.dec.npix ∧
        Emitted s t ((stackList s.dec.stack n).take (s.dec.npix.toNat - s.dec.ocnt.toNat))) := by
  induction n generalizing s with
  | zero =>
    exact ⟨fun _ => ⟨s, rfl, .nil s⟩, fun h => by omega⟩
  | succ n ih =>
    have hpop := pop_top ht
    have hnp := s.dec.npix.isLt
    have hbyte : s.dec.pop.poppedByte = Memory.read s.dec.stack n := by
      simp only [Decoder.poppedByte, hpop]
      rfl
    have e0 : Emitted s (s.withDec s.dec.pop) [] := Emitted.top s _
    have e1 : Emitted s (emit s.dec.pop.poppedByte (s.withDec s.dec.pop)) ([] ++ [s.dec.pop.poppedByte]) :=
      e0.trans (Emitted.emit _ (by show s.dec.ocnt.toNat + 1 < 2 ^ 32; omega))
    rw [List.nil_append, hbyte] at e1
    have ho1 := e1.ocnt
    have hnpix : (emit (Memory.read s.dec.stack n) (s.withDec s.dec.pop)).dec.npix = s.dec.npix := rfl
    have hstack : (emit (Memory.read s.dec.stack n) (s.withDec s.dec.pop)).dec.stack = s.dec.stack := rfl
    have htop : (emit (Memory.read s.dec.stack n) (s.withDec s.dec.pop)).dec.top.toNat = n := hpop
    simp only [List.length_singleton] at ho1
    simp only [popAll, hbyte]
    generalize emit (Memory.read s.dec.stack n) (s.withDec s.dec.pop) = t at *
    by_cases hstop : t.dec.ocnt = t.dec.npix
    · have hlen : s.dec.npix.toNat - s.dec.ocnt.toNat = 1 := by rw [← hnpix, ← hstop, ho1]; omega
      rw [if_pos hstop]
      refine ⟨fun h => by omega, fun _ => ⟨t, rfl, hstop, ?_⟩⟩
      rw [hlen, stackList, List.take_succ_cons, List.take_zero]
      exact e1
    · have hlt : t.dec.ocnt.toNat < t.dec.npix.toNat := by
        have : t.dec.ocnt.toNat ≠ t.dec.npix.toNat := fun h => hstop (BitVec.eq_of_toNat_eq h)
        rw [hnpix] at this ⊢
        omega
      obtain ⟨iha, ihb⟩ := ih t htop hlt
      rw [hstack, hnpix, ho1] at iha ihb
      rw [if_neg hstop, stackList]
      refine ⟨fun h => ?_, fun h => ?_⟩
      · obtain ⟨u, hu, eu⟩ := iha (by omega)
        exact ⟨u, hu, e1.trans eu⟩
      · obtain ⟨u, hu, hc, eu⟩ := ihb (by omega)
        refine ⟨u, hu, hc, ?_⟩
        have h2 : s.dec.npix.toNat - s.dec.ocnt.toNat = (s.dec.npix.toNat - (s.dec.ocnt.toNat + 1)) + 1 := by omega
        rw [h2, List.take_succ_cons]
        exact e1.trans eu

/-- emit_expansion: FIRST's low byte, then the stack; all of it when that leaves OCNT below NPIX, else exactly up to NPIX. -/
theorem emitExpansion_spec (s : State) (ho : s.dec.ocnt.toNat < s.dec.npix.toNat) :
    (s.dec.ocnt.toNat + s.dec.top.toNat + 1 < s.dec.npix.toNat →
      ∃ t, emitExpansion s = (t, false) ∧ Emitted s t (s.dec.first.setWidth 8 :: stackList s.dec.stack s.dec.top.toNat)) ∧
    (s.dec.npix.toNat ≤ s.dec.ocnt.toNat + s.dec.top.toNat + 1 →
      ∃ t, emitExpansion s = (t, true) ∧ t.dec.ocnt = t.dec.npix ∧
        Emitted s t ((s.dec.first.setWidth 8 :: stackList s.dec.stack s.dec.top.toNat).take
          (s.dec.npix.toNat - s.dec.ocnt.toNat))) := by
  have hnp := s.dec.npix.isLt
  have e1 := Emitted.emit (s := s) (s.dec.first.setWidth 8) (by omega)
  have ho1 := e1.ocnt
  have hnpix : (emit (s.dec.first.setWidth 8) s).dec.npix = s.dec.npix := rfl
  have hstack : (emit (s.dec.first.setWidth 8) s).dec.stack = s.dec.stack := rfl
  have htop : (emit (s.dec.first.setWidth 8) s).dec.top = s.dec.top := rfl
  simp only [List.length_singleton] at ho1
  simp only [emitExpansion]
  generalize emit (s.dec.first.setWidth 8) s = t at *
  by_cases hstop : t.dec.ocnt = t.dec.npix
  · have hlen : s.dec.npix.toNat - s.dec.ocnt.toNat = 1 := by rw [← hnpix, ← hstop, ho1]; omega
    rw [if_pos hstop]
    refine ⟨fun h => by omega, fun _ => ⟨t, rfl, hstop, ?_⟩⟩
    rw [hlen, List.take_succ_cons, List.take_zero]
    exact e1
  · have hlt : t.dec.ocnt.toNat < t.dec.npix.toNat := by
      have : t.dec.ocnt.toNat ≠ t.dec.npix.toNat := fun h => hstop (BitVec.eq_of_toNat_eq h)
      rw [hnpix] at this ⊢
      omega
    obtain ⟨ha, hb⟩ := popAll_spec t.dec.top.toNat t rfl hlt
    rw [hstack, hnpix, ho1, htop] at ha hb
    rw [if_neg hstop, htop]
    refine ⟨fun h => ?_, fun h => ?_⟩
    · obtain ⟨u, hu, eu⟩ := ha (by omega)
      exact ⟨u, hu, e1.trans eu⟩
    · obtain ⟨u, hu, hc, eu⟩ := hb (by omega)
      refine ⟨u, hu, hc, ?_⟩
      have h2 : s.dec.npix.toNat - s.dec.ocnt.toNat = (s.dec.npix.toNat - (s.dec.ocnt.toNat + 1)) + 1 := by omega
      rw [h2, List.take_succ_cons]
      exact e1.trans eu

end Sys2Proof.Machine
end

