-- ==== Sys2Proof/Laws/Codes.lean ====
section
/-! SUPPORT. Everything a DEFINED or KWKWK code can do (41_lzw_decoder.md R164, R165), and what the decoder's primitives keep. -/

namespace Sys2Proof.Machine

/-! ## The invariant of the pixel stack -/

/-- The stack is in canonical form, its entries and its depth are in range. -/
abbrev StackOk (d : Decoder) : Prop :=
  Memory.wf d.stack ∧ (∀ e ∈ d.stack, e.1 < Config.stackCap) ∧ d.top.toNat ≤ Config.stackCap

theorem mem_write {m : Memory} {a : Nat} {v : Byte} {e : Host.Cell} (h : e ∈ Memory.write m a v) : e = (a, v) ∨ e ∈ m := by
  unfold Memory.write at h
  split at h
  · exact .inr (Table.mem_erase h)
  · exact Table.mem_put h

theorem StackOk.push {d : Decoder} (h : StackOk d) (v : Byte) (ht : d.top.toNat ≠ Config.stackCap) : StackOk (d.push v) := by
  have hlt : d.top.toNat < Config.stackCap := Nat.lt_of_le_of_ne h.2.2 ht
  refine ⟨Memory.wf_write h.1 _ _, fun e he => ?_, ?_⟩
  · rcases mem_write he with he | he
    · rw [he]; exact hlt
    · exact h.2.1 e he
  · rw [push_top v h.2.2]; exact hlt

theorem expand_stackOk {fuel : Nat} {c : BitVec 12} {d : Decoder} {w : Walk} (h : expand fuel c d = w) (hs : StackOk d) :
    match w with
    | .root _ e => StackOk e
    | .overflow e => StackOk e := by
  induction fuel generalizing c d with
  | zero =>
    unfold expand at h
    split at h <;> subst h <;> exact hs
  | succ n ih =>
    unfold expand at h
    split at h
    · subst h; exact hs
    · simp only at h
      split at h
      · subst h; exact hs
      · have := ih h (hs.push _ ‹_›)
        cases w <;> exact this

/-! ## Emission keeps the stack and moves OCNT up to NPIX at most -/

theorem popAll_top (n : Nat) (s : State) (ht : s.dec.top.toNat = n) : (popAll n s).1.dec.top.toNat ≤ n := by
  induction n generalizing s with
  | zero => simp only [popAll]; omega
  | succ n ih =>
    have hpop : (emit s.dec.pop.poppedByte (s.withDec s.dec.pop)).dec.top.toNat = n := pop_top ht
    simp only [popAll]
    split
    · simp only [hpop]; omega
    · exact Nat.le_succ_of_le (ih _ hpop)

theorem emitExpansion_top (s : State) : (emitExpansion s).1.dec.top.toNat ≤ s.dec.top.toNat := by
  simp only [emitExpansion]
  split
  · exact Nat.le_refl _
  · exact popAll_top _ _ rfl

/-- Everything emit_expansion can do below NPIX: all is emitted and OCNT stays below NPIX, or OCNT reaches NPIX. -/
theorem emitExpansion_cases {s t : State} {b : Bool} (ho : s.dec.ocnt.toNat < s.dec.npix.toNat) (h : emitExpansion s = (t, b)) :
    ∃ bs, bs ≠ [] ∧ Emitted s t bs ∧ t.dec.top.toNat ≤ s.dec.top.toNat ∧
      ((b = false ∧ t.dec.ocnt.toNat < t.dec.npix.toNat) ∨ (b = true ∧ t.dec.ocnt = t.dec.npix)) := by
  have htop := emitExpansion_top s
  rw [h] at htop
  obtain ⟨ha, hb⟩ := emitExpansion_spec s ho
  by_cases hc : s.dec.ocnt.toNat + s.dec.top.toNat + 1 < s.dec.npix.toNat
  · obtain ⟨u, hu, e⟩ := ha hc
    rw [h] at hu
    cases hu
    refine ⟨_, by simp, e, htop, .inl ⟨rfl, ?_⟩⟩
    rw [e.ocnt, e.dec_npix]
    simp only [List.length_cons, length_stackList]
    omega
  · obtain ⟨u, hu, he, e⟩ := hb (by omega)
    rw [h] at hu
    cases hu
    refine ⟨_, ?_, e, htop, .inr ⟨rfl, he⟩⟩
    have hk : s.dec.npix.toNat - s.dec.ocnt.toNat = (s.dec.npix.toNat - s.dec.ocnt.toNat - 1) + 1 := by omega
    rw [hk, List.take_succ_cons]
    simp

/-! ## define and widen -/

/-- Everything define() and widen() can do. -/
theorem define_cases (d : Decoder) :
    (4096 ≤ d.avail.toNat ∧ d.define = d) ∨
    (d.avail.toNat < 4096 ∧ ∃ cs m, d.define =
        { d with pfx := Table.put d.pfx d.avail.toNat d.prev, sfx := Table.put d.sfx d.avail.toNat (d.first.setWidth 8),
                 avail := d.avail + 1#13, csize := cs, mask := m } ∧
      ((d.mask.toNat < d.avail.toNat + 1 ∧ d.avail.toNat + 1 < 4096 ∧ cs = d.csize + 1#4 ∧ m = maskOf (d.csize + 1#4)) ∨
        (¬ (d.mask.toNat < d.avail.toNat + 1 ∧ d.avail.toNat + 1 < 4096) ∧ cs = d.csize ∧ m = d.mask))) := by
  have hmax : Config.maxCodes = 4096 := rfl
  unfold Decoder.define
  by_cases h : d.avail.toNat < 4096
  · right
    rw [if_pos (by rw [hmax]; exact h)]
    refine ⟨h, ?_⟩
    have hav : (d.avail + 1#13).toNat = d.avail.toNat + 1 := by
      rw [BitVec.toNat_add]
      have : (1#13).toNat = 1 := rfl
      omega
    unfold Decoder.widen
    simp only [hav, hmax]
    by_cases hw : d.mask.toNat < d.avail.toNat + 1 ∧ d.avail.toNat + 1 < 4096
    · rw [if_pos hw]
      exact ⟨_, _, rfl, .inl ⟨hw.1, hw.2, rfl, rfl⟩⟩
    · rw [if_neg hw]
      exact ⟨_, _, rfl, .inr ⟨hw, rfl, rfl⟩⟩
  · left
    exact ⟨by omega, if_neg (by rw [hmax]; exact h)⟩

/-! What define() leaves, register by register. -/

@[simp] theorem define_mcs (d : Decoder) : d.define.mcs = d.mcs := by
  rcases define_cases d with ⟨_, h⟩ | ⟨_, _, _, h, _⟩ <;> rw [h]
@[simp] theorem define_clear (d : Decoder) : d.define.clear = d.clear := by
  rcases define_cases d with ⟨_, h⟩ | ⟨_, _, _, h, _⟩ <;> rw [h]
@[simp] theorem define_endCode (d : Decoder) : d.define.endCode = d.endCode := by
  rcases define_cases d with ⟨_, h⟩ | ⟨_, _, _, h, _⟩ <;> rw [h]
@[simp] theorem define_prev (d : Decoder) : d.define.prev = d.prev := by
  rcases define_cases d with ⟨_, h⟩ | ⟨_, _, _, h, _⟩ <;> rw [h]
@[simp] theorem define_prevV (d : Decoder) : d.define.prevV = d.prevV := by
  rcases define_cases d with ⟨_, h⟩ | ⟨_, _, _, h, _⟩ <;> rw [h]
@[simp] theorem define_first (d : Decoder) : d.define.first = d.first := by
  rcases define_cases d with ⟨_, h⟩ | ⟨_, _, _, h, _⟩ <;> rw [h]
@[simp] theorem define_acc (d : Decoder) : d.define.acc = d.acc := by
  rcases define_cases d with ⟨_, h⟩ | ⟨_, _, _, h, _⟩ <;> rw [h]
@[simp] theorem define_nbits (d : Decoder) : d.define.nbits = d.nbits := by
  rcases define_cases d with ⟨_, h⟩ | ⟨_, _, _, h, _⟩ <;> rw [h]
@[simp] theorem define_brem (d : Decoder) : d.define.brem = d.brem := by
  rcases define_cases d with ⟨_, h⟩ | ⟨_, _, _, h, _⟩ <;> rw [h]
@[simp] theorem define_ipos (d : Decoder) : d.define.ipos = d.ipos := by
  rcases define_cases d with ⟨_, h⟩ | ⟨_, _, _, h, _⟩ <;> rw [h]
@[simp] theorem define_ocnt (d : Decoder) : d.define.ocnt = d.ocnt := by
  rcases define_cases d with ⟨_, h⟩ | ⟨_, _, _, h, _⟩ <;> rw [h]
@[simp] theorem define_npix (d : Decoder) : d.define.npix = d.npix := by
  rcases define_cases d with ⟨_, h⟩ | ⟨_, _, _, h, _⟩ <;> rw [h]
@[simp] theorem define_top (d : Decoder) : d.define.top = d.top := by
  rcases define_cases d with ⟨_, h⟩ | ⟨_, _, _, h, _⟩ <;> rw [h]
@[simp] theorem define_stack (d : Decoder) : d.define.stack = d.stack := by
  rcases define_cases d with ⟨_, h⟩ | ⟨_, _, _, h, _⟩ <;> rw [h]
@[simp] theorem define_tableDraw (d : Decoder) : d.define.tableDraw = d.tableDraw := by
  rcases define_cases d with ⟨_, h⟩ | ⟨_, _, _, h, _⟩ <;> rw [h]

theorem define_full {d : Decoder} (h : 4096 ≤ d.avail.toNat) : d.define = d := by
  rcases define_cases d with ⟨_, h'⟩ | ⟨h', _⟩
  · exact h'
  · omega

/-- AVAIL goes up by one while the table is not full (R168). -/
theorem define_avail {d : Decoder} (h : d.avail.toNat < 4096) : d.define.avail.toNat = d.avail.toNat + 1 := by
  rcases define_cases d with ⟨h', _⟩ | ⟨_, _, _, h', _⟩
  · omega
  · rw [h']
    simp only [BitVec.toNat_add, BitVec.toNat_ofNat]
    omega

/-- The entry at AVAIL becomes (PREV, FIRST[7:0]); every other entry stays (R168). -/
theorem define_prefixAt {d : Decoder} (h : d.avail.toNat < 4096) (c : Nat) :
    d.define.prefixAt c = if c = d.avail.toNat then d.prev else d.prefixAt c := by
  rcases define_cases d with ⟨h', _⟩ | ⟨_, _, _, h', _⟩
  · omega
  · rw [h']; exact Decoder.prefixAt_put d _ _ _

theorem define_suffixAt {d : Decoder} (h : d.avail.toNat < 4096) (c : Nat) :
    d.define.suffixAt c = if c = d.avail.toNat then d.first.setWidth 8 else d.suffixAt c := by
  rcases define_cases d with ⟨h', _⟩ | ⟨_, _, _, h', _⟩
  · omega
  · rw [h']; exact Decoder.suffixAt_put d _ _ _

/-- The width and the mask after a definition (R169). -/
theorem define_width {d : Decoder} (h : d.avail.toNat < 4096) :
    (d.define.csize = d.csize + 1#4 ∧ d.define.mask = maskOf (d.csize + 1#4) ∧ d.mask.toNat < d.avail.toNat + 1 ∧
        d.avail.toNat + 1 < 4096) ∨
      (d.define.csize = d.csize ∧ d.define.mask = d.mask ∧ ¬ (d.mask.toNat < d.avail.toNat + 1 ∧ d.avail.toNat + 1 < 4096)) := by
  rcases define_cases d with ⟨h', _⟩ | ⟨_, cs, m, h', hw⟩
  · omega
  · rw [h']
    rcases hw with ⟨h1, h2, h3, h4⟩ | ⟨h1, h2, h3⟩
    · exact .inl ⟨h3, h4, h1, h2⟩
    · exact .inr ⟨h2, h3, h1⟩

/-! ## The common part of DEFINED and KWKWK -/

/-- Everything the common part of DEFINED and KWKWK can do: overflow before any byte, the count stop, or the whole effect. -/
theorem expandCode_cases (start incode : BitVec 12) (s : State) (hs : StackOk s.dec) (ho : s.dec.ocnt.toNat < s.dec.npix.toNat) :
    (∃ e, SameButStack s.dec e ∧ StackOk e ∧ expandCode start incode s = stopDecode .stackOverflow (s.withDec e)) ∨
    (∃ e f t bs, SameButStack s.dec e ∧ StackOk e ∧ bs ≠ [] ∧ Emitted (s.withDec (e.withFirst f)) t bs ∧ StackOk t.dec ∧
      ((t.dec.ocnt = t.dec.npix ∧ expandCode start incode s = stopDecode .count t) ∨
        (t.dec.ocnt.toNat < t.dec.npix.toNat ∧
          expandCode start incode s = t.withDec (t.dec.define.withPrev incode)))) := by
  unfold expandCode
  cases hw : expand Config.stackCap start s.dec with
  | overflow e => exact .inl ⟨e, expand_frame hw, expand_stackOk hw hs, rfl⟩
  | root r e =>
    right
    have hf : SameButStack s.dec e := (expand_frame hw).1
    have hk : StackOk e := expand_stackOk hw hs
    simp only
    generalize hx : emitExpansion (s.withDec (e.withFirst ((e.suffixAt r.toNat).setWidth 12))) = x
    obtain ⟨t, b⟩ := x
    have hon : e.ocnt.toNat < e.npix.toNat := by rw [hf]; exact ho
    obtain ⟨bs, h0, h1, h2, h3⟩ := emitExpansion_cases hon hx
    have hkt : StackOk t.dec := by
      unfold StackOk
      rw [h1.dec_stack]
      exact ⟨hk.1, hk.2.1, Nat.le_trans h2 hk.2.2⟩
    refine ⟨e, _, t, bs, hf, hk, h0, h1, hkt, ?_⟩
    rcases h3 with ⟨hb, h3⟩ | ⟨hb, h3⟩
    · subst hb; exact .inr ⟨h3, rfl⟩
    · subst hb; exact .inl ⟨h3, rfl⟩

/-- The common part of DEFINED and KWKWK when the walk from `start` spells `bs`: the output is `bs` and then the entries that were on the
stack, whole when NPIX lies beyond it, else cut at NPIX by the count stop. -/
theorem expandCode_spells (start incode : BitVec 12) (s : State) (bs : List Byte) (hs : Spells s.dec start bs)
    (hw : Memory.wf s.dec.stack) (hl : s.dec.top.toNat + bs.length ≤ 4098) (ho : s.dec.ocnt.toNat < s.dec.npix.toNat) :
    let out := bs ++ stackList s.dec.stack s.dec.top.toNat
    ∃ e f, SameButStack s.dec e ∧ f.toNat = (bs.headD 0).toNat ∧
      ((s.dec.ocnt.toNat + out.length < s.dec.npix.toNat →
          ∃ t, Emitted (s.withDec (e.withFirst f)) t out ∧
            expandCode start incode s = t.withDec (t.dec.define.withPrev incode)) ∧
        (s.dec.npix.toNat ≤ s.dec.ocnt.toNat + out.length →
          ∃ t, Emitted (s.withDec (e.withFirst f)) t (out.take (s.dec.npix.toNat - s.dec.ocnt.toNat)) ∧
            t.dec.ocnt = t.dec.npix ∧ expandCode start incode s = stopDecode .count t)) := by
  intro out
  have hcap : Config.stackCap = 4097 := rfl
  have hpos := List.length_pos_iff.2 hs.ne_nil
  obtain ⟨r, e, h1, h2, h3, h4, h5⟩ := expand_spells Config.stackCap s.dec hs hw (by omega) (by omega)
  have hhead : e.suffixAt r.toNat = bs.headD 0 := by
    cases bs with
    | nil => simp at hpos
    | cons b bs => simpa using congrArg (List.headD · 0) h4
  refine ⟨e, (e.suffixAt r.toNat).setWidth 12, h2, ?_, ?_⟩
  · rw [← hhead, BitVec.toNat_setWidth]
    have := (e.suffixAt r.toNat).isLt
    omega
  have hbyte : ((e.suffixAt r.toNat).setWidth 12).setWidth 8 = e.suffixAt r.toNat := by
    apply BitVec.eq_of_toNat_eq
    simp only [BitVec.toNat_setWidth]
    have := (e.suffixAt r.toNat).isLt
    omega
  have hout : e.suffixAt r.toNat :: stackList e.stack e.top.toNat = out := h4
  have hlen : out.length = e.top.toNat + 1 := by rw [← hout]; simp
  have hx : expandCode start incode s = match emitExpansion (s.withDec (e.withFirst ((e.suffixAt r.toNat).setWidth 12))) with
    | (t, true) => stopDecode .count t
    | (t, false) => t.withDec (t.dec.define.withPrev incode) := by
    unfold expandCode
    generalize expand Config.stackCap start s.dec = w at h1
    subst h1
    rfl
  have eo : (s.withDec (e.withFirst ((e.suffixAt r.toNat).setWidth 12))).dec.ocnt = s.dec.ocnt := by
    show e.ocnt = _; rw [h2]
  have en : (s.withDec (e.withFirst ((e.suffixAt r.toNat).setWidth 12))).dec.npix = s.dec.npix := by
    show e.npix = _; rw [h2]
  have es : (s.withDec (e.withFirst ((e.suffixAt r.toNat).setWidth 12))).dec.first.setWidth 8 ::
      stackList (s.withDec (e.withFirst ((e.suffixAt r.toNat).setWidth 12))).dec.stack
        (s.withDec (e.withFirst ((e.suffixAt r.toNat).setWidth 12))).dec.top.toNat = out := by
    show ((e.suffixAt r.toNat).setWidth 12).setWidth 8 :: stackList e.stack e.top.toNat = out
    rw [hbyte]; exact hout
  have et : (s.withDec (e.withFirst ((e.suffixAt r.toNat).setWidth 12))).dec.top.toNat + 1 = out.length := hlen.symm
  generalize (s.withDec (e.withFirst ((e.suffixAt r.toNat).setWidth 12))) = x at *
  obtain ⟨ha, hb⟩ := emitExpansion_spec x (by rw [eo, en]; exact ho)
  rw [es, eo, en] at ha hb
  refine ⟨fun h => ?_, fun h => ?_⟩
  · obtain ⟨t, ht, et⟩ := ha (by omega)
    rw [ht] at hx
    exact ⟨t, et, hx⟩
  · obtain ⟨t, ht, hc, et⟩ := hb (by omega)
    rw [ht] at hx
    exact ⟨t, et, hc, hx⟩

end Sys2Proof.Machine
end

