-- ==== Sys2Proof/Laws/Step.lean ====
section
/-! SUPPORT. Everything a step can do, said once: the moves of the sequencer, of the host, and the instructions they run. -/

namespace Sys2Proof.Machine

/-- What is performed made a move, or ran the instruction its word decodes to. -/
theorem perform_cases {ctx : Ctx} {f : Fetched} {t : State} (h : perform ctx f = .next t) :
    f = .move t ∨ ∃ raw u i, f = .word raw u ∧ decode ctx raw = .ok i ∧ exec i u = .next t := by
  unfold perform at h
  cases f with
  | move u => cases h; exact .inl rfl
  | fault r => cases h
  | refused r => cases h
  | word raw u =>
    simp only at h
    cases hd : decode ctx raw with
    | ok i => rw [hd] at h; exact .inr ⟨raw, u, i, rfl, hd, h⟩
    | error e => rw [hd] at h; cases h

theorem perform_word {ctx : Ctx} {u : State} {raw : Raw} {i : Instr} (hd : decode ctx raw = .ok i) :
    perform ctx (.word raw u) = exec i u := by
  simp only [perform, hd]

/-- A step that answers a next state made a move, or ran the instruction its word decodes to. -/
theorem step_cases {s t : State} (h : step s = .next t) :
    fetch s = .move t ∨ ∃ raw u i, fetch s = .word raw u ∧ decode s.ctx raw = .ok i ∧ exec i u = .next t :=
  perform_cases h

theorem step_move {s t : State} (h : fetch s = .move t) : step s = .next t := by
  unfold step; rw [h]; rfl

theorem step_word {s u : State} {raw : Raw} {i : Instr} (h : fetch s = .word raw u) (hd : decode s.ctx raw = .ok i) :
    step s = exec i u := by
  unfold step; rw [h]; exact perform_word hd

/-- Everything the sequencer can do next. -/
theorem sequencer_cases (s : State) :
    (s.seq = .idle ∧ sequencer s = .move s) ∨
    (s.seq = .decode ∧ s.dec.npix.toNat ≤ s.dec.ocnt.toNat ∧ sequencer s = .move (stopDecode .count s)) ∨
    (s.seq = .decode ∧ s.dec.ocnt.toNat < s.dec.npix.toNat ∧ s.dec.nbits.toNat < s.dec.csize.toNat ∧
      s.regs.inLen.toNat ≤ s.dec.ipos.toNat ∧ sequencer s = .move (stopDecode .inExhausted s)) ∨
    (s.seq = .decode ∧ s.dec.ocnt.toNat < s.dec.npix.toNat ∧ s.dec.nbits.toNat < s.dec.csize.toNat ∧
      s.dec.ipos.toNat < s.regs.inLen.toNat ∧ sequencer s = .word (.stream (Memory.read s.buf.inp s.dec.ipos.toNat)) s) ∨
    (s.seq = .decode ∧ s.dec.ocnt.toNat < s.dec.npix.toNat ∧ s.dec.csize.toNat ≤ s.dec.nbits.toNat ∧
      sequencer s = .word (.code s.dec.codeBits) (s.withDec s.dec.consume)) ∨
    (s.seq = .composite ∧ s.regs.positions ≤ s.cmp.cpos.toNat ∧ sequencer s = .move (finish s)) ∨
    (s.seq = .composite ∧ s.cmp.cpos.toNat < s.regs.positions ∧
      sequencer s = .word (.index (Memory.read s.buf.idx s.cmp.cpos.toNat)) s) := by
  unfold sequencer
  cases hs : s.seq with
  | idle => simp
  | decode =>
    by_cases h1 : s.dec.npix.toNat ≤ s.dec.ocnt.toNat
    · simp [h1]
    by_cases h2 : s.dec.nbits.toNat < s.dec.csize.toNat
    · by_cases h3 : s.regs.inLen.toNat ≤ s.dec.ipos.toNat
      · simp [h1, h2, h3]; omega
      · simp [h1, h2, h3]; omega
    · simp [h1, h2]; omega
  | composite =>
    by_cases h1 : s.regs.positions ≤ s.cmp.cpos.toNat
    · simp [h1]
    · simp [h1]; omega

/-- On the sequencer's turn, what is fetched is its next step. -/
theorem fetch_of_turn {s t : State} (h : SequencerTurn s t) : fetch s = sequencer t := by
  rcases h with ⟨h1, h2⟩ | ⟨rest, h1, h2⟩
  · subst h2; unfold fetch; rw [h1]
  · subst h2; unfold fetch; rw [h1]; rfl

/-- The groups the script's update leaves alone. -/
theorem turn_groups {s t : State} (h : SequencerTurn s t) :
    t.seq = s.seq ∧ t.op = s.op ∧ t.status = s.status ∧ t.regs = s.regs ∧ t.results = s.results ∧ t.dec = s.dec ∧
      t.cmp = s.cmp ∧ t.buf = s.buf := by
  rcases h with ⟨_, h⟩ | ⟨_, _, h⟩ <;> subst h <;> exact ⟨rfl, rfl, rfl, rfl, rfl, rfl, rfl, rfl⟩

/-- What is fetched is the sequencer's next step, or a move of the host. -/
theorem fetch_cases (s : State) :
    (∃ t, SequencerTurn s t ∧ fetch s = sequencer t) ∨
    (∃ m rest, m ≠ .tick ∧ s.env.host = m :: rest ∧ fetch s = hostMove m (s.pop rest)) := by
  cases h : s.env.host with
  | nil => exact .inl ⟨s, .inl ⟨h, rfl⟩, fetch_of_turn (.inl ⟨h, rfl⟩)⟩
  | cons m rest =>
    by_cases hm : m = .tick
    · subst hm; exact .inl ⟨_, .inr ⟨rest, h, rfl⟩, fetch_of_turn (.inr ⟨rest, h, rfl⟩)⟩
    · refine .inr ⟨m, rest, hm, rfl, ?_⟩
      unfold fetch; rw [h]; rfl

/-! ## What the host reads from a buffer -/

/-- A unit of IN or IDX is a byte, whatever is drawn (20_memory.md R67). -/
theorem bufferRead_byte (s : State) (k : Nat) : (bufferRead s .inp k).toNat < 256 ∧ (bufferRead s .idx k).toNat < 256 := by
  have h : ∀ v : Byte, (v.setWidth 32).toNat < 256 := fun v => by simp [BitVec.toNat_setWidth]; omega
  refine ⟨h _, ?_⟩
  unfold bufferRead
  simp only
  split
  · exact h _
  · exact h _

/-! ## What the decoder answers -/

/-- An instruction has the format of the word it is decoded from. -/
theorem decode_format {ctx : Ctx} {raw : Raw} {i : Instr} (h : decode ctx raw = .ok i) : i.format = raw.format := by
  cases raw with
  | cmd w => cases h; unfold decodeCmd; (repeat' split) <;> rfl
  | bus a =>
    simp only [decode, decodeBus] at h
    split at h
    · cases h
    split at h
    · cases h
    split at h
    · cases h
    split at h <;> cases h <;> rfl
  | code b =>
    simp only [decode, decodeCode] at h
    split at h
    · cases h
    · cases h; unfold classifyCode; (repeat' split) <;> rfl
  | stream b => cases h; unfold decodeStream; split <;> rfl
  | index b => cases h; unfold classifyIndex; (repeat' split) <;> rfl

/-- A code field that decodes, decodes to the class of its value (R92, R94). -/
theorem decode_code {ctx : Ctx} {bits : List Bool} {i : Instr} (h : decode ctx (.code bits) = .ok i) :
    bits.length = ctx.csize ∧ 1 ≤ ctx.csize ∧ ctx.csize ≤ 12 ∧ i = classifyCode ctx (BitVec.ofNat 12 (ofBits bits)) := by
  have hm : Config.maxCodeSize = 12 := rfl
  simp only [decode, decodeCode] at h
  split at h
  · cases h
  · cases h
    exact ⟨by omega, by omega, by omega, rfl⟩

/-- A bus access that decodes is 4 bytes wide, aligned and in the window (R68, R97). -/
theorem decode_bus {ctx : Ctx} {a : BusAccess} {i : Instr} (h : decode ctx (.bus a) = .ok i) :
    a.size = 4 ∧ a.offset % 4 = 0 ∧ a.offset ≤ 0xFC ∧
      ((a.dir = .write ∧ i = .wr (BitVec.ofNat 8 a.offset) a.data) ∨ (a.dir = .read ∧ i = .rd (BitVec.ofNat 8 a.offset))) := by
  simp only [decode, decodeBus] at h
  split at h
  · cases h
  split at h
  · cases h
  split at h
  · cases h
  rename_i h1 h2 h3
  simp only [bne_iff_ne, ne_eq, Decidable.not_not] at h1 h2
  refine ⟨h1, h2, by omega, ?_⟩
  cases hd : a.dir <;> rw [hd] at h <;> cases h
  · exact .inr ⟨rfl, rfl⟩
  · exact .inl ⟨rfl, rfl⟩

/-! ## Every way a step can go -/

/-- What the sequencer's step from `w` to `t` was. -/
inductive SequencerStep (w t : State) : Prop where
  | idle (hs : w.seq = .idle) (ht : t = w)
  | count (hs : w.seq = .decode) (ho : w.dec.npix.toNat ≤ w.dec.ocnt.toNat) (ht : t = stopDecode .count w)
  | exhausted (hs : w.seq = .decode) (ho : w.dec.ocnt.toNat < w.dec.npix.toNat) (hn : w.dec.nbits.toNat < w.dec.csize.toNat)
      (hi : w.regs.inLen.toNat ≤ w.dec.ipos.toNat) (ht : t = stopDecode .inExhausted w)
  | byte (hs : w.seq = .decode) (ho : w.dec.ocnt.toNat < w.dec.npix.toNat) (hn : w.dec.nbits.toNat < w.dec.csize.toNat)
      (hi : w.dec.ipos.toNat < w.regs.inLen.toNat)
      (ht : exec (decodeStream w.ctx (Memory.read w.buf.inp w.dec.ipos.toNat)) w = .next t)
  | code (hs : w.seq = .decode) (ho : w.dec.ocnt.toNat < w.dec.npix.toNat) (hn : w.dec.csize.toNat ≤ w.dec.nbits.toNat)
      (h1 : 1 ≤ w.dec.csize.toNat) (h12 : w.dec.csize.toNat ≤ 12)
      (ht : exec (classifyCode w.ctx (BitVec.ofNat 12 (w.dec.acc.toNat % 2 ^ w.dec.csize.toNat))) (w.withDec w.dec.consume) = .next t)
  | finished (hs : w.seq = .composite) (hc : w.regs.positions ≤ w.cmp.cpos.toNat) (ht : t = finish w)
  | index (hs : w.seq = .composite) (hc : w.cmp.cpos.toNat < w.regs.positions)
      (ht : exec (classifyIndex w.ctx (Memory.read w.buf.idx w.cmp.cpos.toNat)) w = .next t)

/-- What the host's move `m` from `s` to `t` did. -/
inductive HostStep (m : HostMove) (s t : State) : Prop where
  | reset (hm : m = .reset) (ht : t = resetBlock s)
  | put (sp : Space) (k : Nat) (v : Word) (hm : m = .put sp k v) (hk : k < sp.limit) (hf : forbiddenPut s sp k = false)
      (ht : t = s.withBuf (s.buf.set sp k v))
  | get (sp : Space) (k : Nat) (hm : m = .get sp k) (ht : t = answerRead (bufferRead s sp k) s)
  | command (w : Word) (hm : m = .access ⟨.write, 0, 4, w⟩) (hb : s.status.busy = false) (ht : exec (decodeCmd w) s = .next t)
  | write (off : Nat) (d : Word) (hm : m = .access ⟨.write, off, 4, d⟩) (ha : off % 4 = 0) (hr : off ≤ 0xFC)
      (hb : s.status.busy = true ∨ off ≠ 0) (ht : exec (.wr (BitVec.ofNat 8 off) d) s = .next t)
  | read (off : Nat) (d : Word) (hm : m = .access ⟨.read, off, 4, d⟩) (ha : off % 4 = 0) (hr : off ≤ 0xFC)
      (ht : exec (.rd (BitVec.ofNat 8 off)) s = .next t)
  | wait (u : State) (hm : m = .wait) (hu : u = s ∨ u = s.script [.tick, .wait]) (ht : exec (.rd 4) u = .next t)

theorem sequencerStep_of_perform {w t : State} (hp : perform w.ctx (sequencer w) = .next t) : SequencerStep w t := by
  rcases perform_cases hp with hm | ⟨raw, u, i, hm, hd, hx⟩
  · rcases sequencer_cases w with h | h | h | h | h | h | h
    · rw [h.2] at hm; cases hm; exact .idle h.1 rfl
    · rw [h.2.2] at hm; cases hm; exact .count h.1 h.2.1 rfl
    · rw [h.2.2.2.2] at hm; cases hm; exact .exhausted h.1 h.2.1 h.2.2.1 h.2.2.2.1 rfl
    · rw [h.2.2.2.2] at hm; cases hm
    · rw [h.2.2.2] at hm; cases hm
    · rw [h.2.2] at hm; cases hm; exact .finished h.1 h.2.1 rfl
    · rw [h.2.2] at hm; cases hm
  · rcases sequencer_cases w with h | h | h | h | h | h | h
    · rw [h.2] at hm; cases hm
    · rw [h.2.2] at hm; cases hm
    · rw [h.2.2.2.2] at hm; cases hm
    · rw [h.2.2.2.2] at hm; cases hm; cases hd; exact .byte h.1 h.2.1 h.2.2.1 h.2.2.2.1 hx
    · rw [h.2.2.2] at hm; cases hm
      obtain ⟨-, h1, h12, rfl⟩ := decode_code hd
      rw [show ofBits w.dec.codeBits = w.dec.acc.toNat % 2 ^ w.dec.csize.toNat from ofBits_toBits_mod _ _] at hx
      exact .code h.1 h.2.1 h.2.2.1 h1 h12 hx
    · rw [h.2.2] at hm; cases hm
    · rw [h.2.2] at hm; cases hm; cases hd; exact .index h.1 h.2.1 hx

theorem sequencerStep_of_step {s w t : State} (hw : SequencerTurn s w) (hst : step s = .next t) : SequencerStep w t := by
  have hctx : s.ctx = w.ctx := by
    obtain ⟨g1, g2, g3, g4, g5, g6, g7, g8⟩ := turn_groups hw
    unfold State.ctx
    rw [g4, g6]
  rw [step, fetch_of_turn hw, hctx] at hst
  exact sequencerStep_of_perform hst

theorem hostStep_of_step {s t : State} {m : HostMove} {rest : List HostMove} (hh : s.env.host = m :: rest) (hm : m ≠ .tick)
    (h : step s = .next t) : HostStep m (s.pop rest) t := by
  have hf : fetch s = hostMove m (s.pop rest) := by unfold fetch; rw [hh]; rfl
  rcases step_cases h with hv | ⟨raw, u, i, hv, hd, hx⟩ <;> rw [hf] at hv <;> clear hf h
  · cases m <;> simp only [hostMove] at hv
    case access => cases hv
    case tick => exact absurd rfl hm
    case wait => cases hv
    case reset => cases hv; exact .reset rfl rfl
    case put sp k v =>
      split at hv
      · cases hv
      split at hv
      · cases hv
      rename_i h1 h2
      cases hv
      exact .put sp k v rfl (by omega) (by simpa using h2) rfl
    case get sp k =>
      split at hv
      · cases hv
      · cases hv; exact .get sp k rfl rfl
  · cases m <;> simp only [hostMove] at hv
    case access a =>
      cases hv
      unfold rawOfAccess at hd
      split at hd
      · rename_i hc
        obtain ⟨h1, h2, h3, h4⟩ := hc
        cases hd
        obtain ⟨d, o, n, v⟩ := a
        simp only at h2 h3 h4
        subst h2 h3 h4
        exact .command v rfl h1 hx
      · rename_i hc
        obtain ⟨h1, h2, h3, h4⟩ := decode_bus hd
        obtain ⟨d, o, n, v⟩ := a
        simp only at h1 h2 h3 h4 hc
        subst h1
        rcases h4 with ⟨rfl, rfl⟩ | ⟨rfl, rfl⟩
        · refine .write o v rfl h2 h3 ?_ hx
          cases hb : s.status.busy with
          | true => exact .inl hb
          | false => exact .inr fun ho => hc ⟨hb, rfl, rfl, ho⟩
        · exact .read o v rfl h2 h3 hx
    case tick => exact absurd rfl hm
    case wait =>
      cases hv
      cases hd
      exact .wait _ rfl (by split <;> simp) hx
    case reset => cases hv
    case put =>
      split at hv
      · cases hv
      split at hv <;> cases hv
    case get => split at hv <;> cases hv

/-- Every way a step that answers a next state can go. -/
theorem step_ways {s t : State} (h : step s = .next t) :
    (∃ w, SequencerTurn s w ∧ SequencerStep w t) ∨
    (∃ m rest, m ≠ .tick ∧ s.env.host = m :: rest ∧ HostStep m (s.pop rest) t) := by
  rcases fetch_cases s with ⟨w, hw, _⟩ | ⟨m, rest, hm, hh, _⟩
  · exact .inl ⟨w, hw, sequencerStep_of_step hw h⟩
  · exact .inr ⟨m, rest, hm, hh, hostStep_of_step hh hm h⟩

end Sys2Proof.Machine
end

