-- ==== Sys2Proof/Laws/Arrays.lean ====
section
/-! SUPPORT. What keeps the arrays in range and the buffers in canonical form (41_lzw_decoder.md R174, 42_compositor.md R213): one lemma per
shared operation, and per instruction. -/

namespace Sys2Proof.Machine

/-- The part of the invariant about arrays depends on the buffers, the table, the stack and its depth only. -/
theorem arraysOk_congr {s t : State} (h : s.arraysOk) (hb : t.buf = s.buf) (hs : t.dec.stack = s.dec.stack) (hp : t.dec.pfx = s.dec.pfx)
    (hx : t.dec.sfx = s.dec.sfx) (ht : t.dec.top = s.dec.top) : t.arraysOk := by
  unfold State.arraysOk at *
  rw [hb, hs, hp, hx, ht]
  exact h

/-! Each shared operation keeps the arrays in range. -/

theorem arraysOk_stopDecode {r : DecStop} {s : State} (h : s.arraysOk) : (stopDecode r s).arraysOk :=
  arraysOk_congr h (by simp) (by simp) (by simp) (by simp) (by simp)

theorem arraysOk_runDecode {s : State} (h : s.arraysOk) : (runDecode s).arraysOk := by
  rcases runDecode_cases s with ⟨_, h'⟩ | ⟨_, _, h'⟩ | ⟨_, hm, h'⟩ <;> rw [h']
  · exact arraysOk_stopDecode h
  · exact h
  · have hp : 2 ^ (Memory.read s.buf.inp 0).toNat ≤ 2 ^ 8 := Nat.pow_le_pow_right (by omega) hm
    obtain ⟨h1, h2, h3, h4, h5, h6, h7, h8, h9, h10, h11⟩ := h
    refine ⟨h1, h2, h3, h4, h5, rising_rootPrefixes _, rising_rootSuffixes _, fun e he => ?_, fun e he => ?_, h10, Nat.zero_le _⟩
    · obtain ⟨c, hc, rfl⟩ := List.mem_map.1 he
      have := List.mem_range.1 hc
      show c < 4096
      omega
    · obtain ⟨c, hc, rfl⟩ := List.mem_map.1 he
      have := List.mem_range.1 hc
      show c < 4096
      omega

theorem arraysOk_commandDecode {s : State} (h : s.arraysOk) : (commandDecode s).arraysOk := by
  rcases commandDecode_cases s with ⟨_, h'⟩ | ⟨_, h'⟩ <;> rw [h']
  · exact h
  · exact arraysOk_runDecode h

theorem arraysOk_runComposite {s : State} (h : s.arraysOk) : (runComposite s).arraysOk :=
  arraysOk_congr h (by simp) (by simp) (by simp) (by simp) (by simp)

theorem arraysOk_commandDecodeComposite {s : State} (h : s.arraysOk) : (commandDecodeComposite s).arraysOk := by
  rcases commandDecodeComposite_cases s with ⟨_, h'⟩ | ⟨_, _, h'⟩ | ⟨_, _, h'⟩ <;> rw [h']
  · exact h
  · exact h
  · exact arraysOk_runDecode h

theorem arraysOk_cmdWrite {body : State → State} {s : State} (h : s.arraysOk) (hb : ∀ t, t.arraysOk → (body t).arraysOk) :
    (cmdWrite body s).arraysOk := by
  unfold cmdWrite
  split
  · exact h
  · exact hb s h

theorem arraysOk_startCommand {w : Word} {s : State} (h : s.arraysOk) : (startCommand w s).arraysOk := by
  unfold startCommand
  split
  · exact h
  split
  · exact arraysOk_commandDecode h
  split
  · exact arraysOk_runComposite h
  split
  · exact arraysOk_commandDecodeComposite h
  · exact h

theorem arraysOk_writeRegister {n : RegName} {d : Word} {s : State} (h : s.arraysOk) : (writeRegister n d s).arraysOk := by
  have hc : ∀ m, (configWrite m d s).arraysOk := fun m => by unfold configWrite; split <;> exact h
  cases n <;> simp only [writeRegister] <;> first | exact h | exact hc _ | exact arraysOk_cmdWrite h fun t ht => arraysOk_startCommand ht

theorem arraysOk_define {t : State} {p : BitVec 12} (h : t.arraysOk) : (t.withDec (t.dec.define.withPrev p)).arraysOk := by
  obtain ⟨h1, h2, h3, h4, h5, h6, h7, h8, h9, h10, h11⟩ := h
  rcases define_cases t.dec with ⟨_, h'⟩ | ⟨hlt, cs, m, h', _⟩
  · rw [h']; exact ⟨h1, h2, h3, h4, h5, h6, h7, h8, h9, h10, h11⟩
  · rw [h']
    refine ⟨h1, h2, h3, h4, h5, Table.rising_put h6 _ _, Table.rising_put h7 _ _, fun e he => ?_, fun e he => ?_, h10, h11⟩
    · rcases Table.mem_put he with he | he
      · rw [he]; exact hlt
      · exact h8 e he
    · rcases Table.mem_put he with he | he
      · rw [he]; exact hlt
      · exact h9 e he


theorem stackOk_of {s : State} (h : s.arraysOk) : StackOk s.dec := ⟨h.2.2.2.2.1, h.2.2.2.2.2.2.2.2.2.1, h.2.2.2.2.2.2.2.2.2.2⟩

theorem arraysOk_withStack {s : State} {e : Decoder} {f : BitVec 12} (h : s.arraysOk) (hb : SameButStack s.dec e) (hk : StackOk e) :
    (s.withDec (e.withFirst f)).arraysOk := by
  obtain ⟨h1, h2, h3, h4, h5, h6, h7, h8, h9, h10, h11⟩ := h
  exact ⟨h1, h2, h3, h4, hk.1, by simpa [hb.pfx] using h6, by simpa [hb.sfx] using h7, by simpa [hb.pfx] using h8, by simpa [hb.sfx] using h9, hk.2.1, hk.2.2⟩

theorem arraysOk_emitted {s t : State} {bs : List Byte} (h : s.arraysOk) (e : Emitted s t bs) (hk : StackOk t.dec) : t.arraysOk := by
  obtain ⟨h1, h2, h3, h4, h5, h6, h7, h8, h9, h10, h11⟩ := h
  refine ⟨?_, (e.idx h2).1, ?_, ?_, hk.1, ?_, ?_, ?_, ?_, hk.2.1, hk.2.2⟩
  · rw [e.inp]; exact h1
  · rw [e.ct]; exact h3
  · rw [e.pix]; exact h4
  · rw [e.dec_pfx]; exact h6
  · rw [e.dec_sfx]; exact h7
  · rw [e.dec_pfx]; exact h8
  · rw [e.dec_sfx]; exact h9

theorem arraysOk_expandCode {a i : BitVec 12} {s : State} (h : s.arraysOk) (ho : s.dec.ocnt.toNat < s.dec.npix.toNat) :
    (expandCode a i s).arraysOk := by
  rcases expandCode_cases a i s (stackOk_of h) ho with ⟨e, h1, h2, h3⟩ | ⟨e, f, t, bs, h1, h2, h3, h4, h5, h6⟩
  · rw [h3]
    exact arraysOk_stopDecode (arraysOk_withStack (f := e.first) h h1 h2)
  · have ht := arraysOk_emitted (arraysOk_withStack h h1 h2) h4 h5
    rcases h6 with ⟨_, h6⟩ | ⟨_, h6⟩ <;> rw [h6]
    · exact arraysOk_stopDecode ht
    · exact arraysOk_define ht

theorem arraysOk_emit {v : Byte} {s : State} (h : s.arraysOk) : (emit v s).arraysOk := by
  obtain ⟨h1, h2, h3, h4, h5, h6, h7, h8, h9, h10, h11⟩ := h
  exact ⟨h1, Memory.wf_write h2 _ _, h3, h4, h5, h6, h7, h8, h9, h10, h11⟩

/-- Every instruction keeps the arrays in range; a code does so below the count stop, where R155 runs it. -/
theorem arraysOk_exec {i : Instr} {s t : State} (h : s.arraysOk) (ho : i.format = .code → s.dec.ocnt.toNat < s.dec.npix.toNat)
   (he : exec i s = .next t) : t.arraysOk := by
  cases i <;> simp only [exec] at he
  case decode => cases he; exact arraysOk_cmdWrite h fun t ht => arraysOk_commandDecode ht
  case composite => cases he; exact arraysOk_cmdWrite h fun t ht => arraysOk_runComposite ht
  case decodeComposite => cases he; exact arraysOk_cmdWrite h fun t ht => arraysOk_commandDecodeComposite ht
  case badCmd => cases he; exact arraysOk_cmdWrite h fun t ht => ht
  case wr =>
    unfold execWr at he
    split at he <;> cases he
    exact arraysOk_writeRegister h
  case rd =>
    unfold execRd at he
    split at he <;> cases he
    exact h
  case clear => cases he; exact h
  case endCode => cases he; exact arraysOk_stopDecode h
  case range => cases he; exact arraysOk_stopDecode h
  case first => cases he; exact arraysOk_emit h
  case defined =>
    cases he
    refine arraysOk_expandCode ?_ (ho rfl)
    obtain ⟨h1, h2, h3, h4, h5, h6, h7, h8, h9, h10, h11⟩ := h
    exact ⟨h1, h2, h3, h4, h5, h6, h7, h8, h9, h10, Nat.zero_le _⟩
  case kwkwk =>
    cases he
    refine arraysOk_expandCode ?_ (ho rfl)
    obtain ⟨h1, h2, h3, h4, h5, h6, h7, h8, h9, h10, h11⟩ := h
    have hk : StackOk s.dec.emptyStack := ⟨h5, h10, Nat.zero_le _⟩
    have hk' := hk.push (s.dec.first.setWidth 8) (by simp [Config.stackCap])
    exact ⟨h1, h2, h3, h4, hk'.1, h6, h7, h8, h9, hk'.2.1, hk'.2.2⟩
  case blockHeader =>
    cases he
    unfold takeByte
    split
    · exact arraysOk_stopDecode h
    · simp only
      split
      · exact arraysOk_stopDecode h
      · exact h
  case dataByte =>
    cases he
    unfold takeByte
    split
    · exact arraysOk_stopDecode h
    · exact h
  case transparent => cases he; exact h
  case ctRange => cases he; exact h
  case write =>
    cases he
    obtain ⟨h1, h2, h3, h4, h5, h6, h7, h8, h9, h10, h11⟩ := h
    exact ⟨h1, h2, h3, Memory.wf_writeWord h4 _ _, h5, h6, h7, h8, h9, h10, h11⟩

theorem arraysOk_set {s : State} (h : s.arraysOk) (sp : Space) (k : Nat) (v : Word) : (s.withBuf (s.buf.set sp k v)).arraysOk := by
  obtain ⟨h1, h2, h3, h4, h5, h6, h7, h8, h9, h10, h11⟩ := h
  cases sp
  · exact ⟨Memory.wf_write h1 _ _, h2, h3, h4, h5, h6, h7, h8, h9, h10, h11⟩
  · exact ⟨h1, Memory.wf_write h2 _ _, h3, h4, h5, h6, h7, h8, h9, h10, h11⟩
  · exact ⟨h1, h2, Memory.wf_writeWord h3 _ _, h4, h5, h6, h7, h8, h9, h10, h11⟩
  · exact ⟨h1, h2, h3, Memory.wf_writeWord h4 _ _, h5, h6, h7, h8, h9, h10, h11⟩

end Sys2Proof.Machine
end

