-- ==== Sys2Proof/Laws/Reset.lean ====
section
/-! SUPPORT. The rest of a command, and what a reset leaves of it (70_reset_and_hazards.md R261): whatever every step of the sequencer keeps,
the completed command keeps; every write is in the log with what it overwrote; undoing writes gives a location its value or one from the
log. -/

namespace Sys2Proof.Machine

/-! ## The rest of a command -/

/-- Advancing makes one step of the sequencer, or none. -/
theorem advance_ways (s : State) : advance s = s ∨ SequencerStep s (advance s) := by
  unfold advance
  cases h : perform s.ctx (sequencer s) with
  | next t => exact .inr (sequencerStep_of_perform h)
  | fault r => exact .inl rfl
  | refused r => exact .inl rfl

/-- What every step of the sequencer keeps holds of the command brought to its end. -/
theorem runOut_keeps {P : State → Prop} (hstep : ∀ w t, P w → SequencerStep w t → P t) (n : Nat) {s : State} (h : P s) :
    P (runOut n s) := by
  induction n generalizing s with
  | zero => exact h
  | succ n ih =>
    unfold runOut
    split
    · exact h
    · apply ih
      rcases advance_ways s with ha | ha
      · rw [ha]; exact h
      · exact hstep _ _ h ha

/-- A step of the sequencer keeps the arrays in range. -/
theorem arraysOk_sequencerStep {w t : State} (h : w.arraysOk) (hs : SequencerStep w t) : t.arraysOk := by
  cases hs with
  | idle _ ht => rw [ht]; exact h
  | count _ _ ht => rw [ht]; exact arraysOk_stopDecode h
  | exhausted _ _ _ _ ht => rw [ht]; exact arraysOk_stopDecode h
  | byte _ ho _ _ ht => exact arraysOk_exec h (fun _ => ho) ht
  | code _ ho _ _ _ ht => exact arraysOk_exec (s := w.withDec w.dec.consume) h (fun _ => ho) ht
  | finished _ _ ht => rw [ht]; exact h
  | index _ _ ht =>
    refine arraysOk_exec h (fun hf => ?_) ht
    unfold classifyIndex at hf
    (repeat' split at hf) <;> cases hf

theorem arraysOk_completed {s : State} (h : s.arraysOk) : (completed s).arraysOk :=
  runOut_keeps (P := State.arraysOk) (fun _ _ hw hs => arraysOk_sequencerStep hw hs) _ h

/-! ## The log holds every write -/

theorem undoBytes_append (l k : List (Nat × Byte)) (m : Memory) : undoBytes (l ++ k) m = undoBytes k (undoBytes l m) := List.foldl_append
theorem undoWords_append (l k : List (Nat × Word)) (m : Memory) : undoWords (l ++ k) m = undoWords k (undoWords l m) := List.foldl_append

theorem wf_undoBytes (l : List (Nat × Byte)) {m : Memory} (h : Memory.wf m) : Memory.wf (undoBytes l m) := by
  induction l generalizing m with
  | nil => exact h
  | cons e l ih => exact ih (Memory.wf_write h _ _)

theorem wf_undoWords (l : List (Nat × Word)) {m : Memory} (h : Memory.wf m) : Memory.wf (undoWords l m) := by
  induction l generalizing m with
  | nil => exact h
  | cons e l ih => exact ih (Memory.wf_writeWord h _ _)

/-- Undoing reads of its memory only what reads there. -/
theorem read_undoBytes_congr (l : List (Nat × Byte)) {m n : Memory} (hm : Memory.wf m) (hn : Memory.wf n)
    (h : ∀ a, Memory.read m a = Memory.read n a) (a : Nat) : Memory.read (undoBytes l m) a = Memory.read (undoBytes l n) a := by
  induction l generalizing m n with
  | nil => exact h a
  | cons e l ih =>
    refine ih (Memory.wf_write hm _ _) (Memory.wf_write hn _ _) fun b => ?_
    by_cases hb : b = e.1
    · rw [hb, Memory.read_write_same hm, Memory.read_write_same hn]
    · rw [Memory.read_write_other _ _ hb, Memory.read_write_other _ _ hb, h b]

theorem readWord_undoWords_congr (l : List (Nat × Word)) {m n : Memory} (hm : Memory.wf m) (hn : Memory.wf n)
    (h : ∀ k, Memory.readWord m k = Memory.readWord n k) (k : Nat) :
    Memory.readWord (undoWords l m) k = Memory.readWord (undoWords l n) k := by
  induction l generalizing m n with
  | nil => exact h k
  | cons e l ih =>
    refine ih (Memory.wf_writeWord hm _ _) (Memory.wf_writeWord hn _ _) fun b => ?_
    by_cases hb : b = e.1
    · rw [hb, Memory.readWord_writeWord_same hm, Memory.readWord_writeWord_same hn]
    · rw [Memory.readWord_writeWord_other _ _ hb, Memory.readWord_writeWord_other _ _ hb, h b]

/-- Undoing leaves alone what the log does not name. -/
theorem read_undoBytes_other (l : List (Nat × Byte)) (m : Memory) {a : Nat} (h : ∀ v, (a, v) ∉ l) :
    Memory.read (undoBytes l m) a = Memory.read m a := by
  induction l generalizing m with
  | nil => rfl
  | cons e l ih =>
    refine (ih (Memory.write m e.1 e.2) fun v hv => h v (List.mem_cons_of_mem _ hv)).trans (Memory.read_write_other _ _ fun he => ?_)
    exact h e.2 (by rw [he]; exact List.mem_cons_self)

theorem readWord_undoWords_other (l : List (Nat × Word)) (m : Memory) {k : Nat} (h : ∀ v, (k, v) ∉ l) :
    Memory.readWord (undoWords l m) k = Memory.readWord m k := by
  induction l generalizing m with
  | nil => rfl
  | cons e l ih =>
    refine (ih (Memory.writeWord m e.1 e.2) fun v hv => h v (List.mem_cons_of_mem _ hv)).trans
      (Memory.readWord_writeWord_other _ _ fun he => ?_)
    exact h e.2 (by rw [he]; exact List.mem_cons_self)

/-- What the log of `t` does not name is as before. -/
theorem LogsItsWrites.idx {s t : State} (h : LogsItsWrites s t) {a : Nat} (ha : ∀ v, (a, v) ∉ t.env.idxLog) :
    Memory.read t.buf.idx a = Memory.read s.buf.idx a := by
  obtain ⟨bs, ws, hb, -, hr, -⟩ := h
  rw [← hr a, read_undoBytes_other]
  exact fun v hv => ha v (by rw [hb]; exact List.mem_append_left _ hv)

theorem LogsItsWrites.pix {s t : State} (h : LogsItsWrites s t) {k : Nat} (hk : ∀ v, (k, v) ∉ t.env.pixLog) :
    Memory.readWord t.buf.pix k = Memory.readWord s.buf.pix k := by
  obtain ⟨bs, ws, -, hw, -, hr⟩ := h
  rw [← hr k, readWord_undoWords_other]
  exact fun v hv => hk v (by rw [hw]; exact List.mem_append_left _ hv)

/-- From `s` to `t` IDX and PIX stay canonical, and the logs grow by what is overwritten. -/
def Logged (s t : State) : Prop :=
  Memory.wf s.buf.idx → Memory.wf s.buf.pix → Memory.wf t.buf.idx ∧ Memory.wf t.buf.pix ∧ LogsItsWrites s t

/-- Nothing was written. -/
theorem Logged.of_eq {s t : State} (hb : t.buf = s.buf) (he : t.env = s.env) : Logged s t := fun hi hp => by
  unfold LogsItsWrites
  rw [hb, he]
  exact ⟨hi, hp, [], [], rfl, rfl, fun _ => rfl, fun _ => rfl⟩

theorem Logged.trans {s t u : State} (h1 : Logged s t) (h2 : Logged t u) : Logged s u := fun hi hp => by
  obtain ⟨ti, tp, bs, ws, hb, hw, hbr, hwr⟩ := h1 hi hp
  obtain ⟨ui, up, bs', ws', hb', hw', hbr', hwr'⟩ := h2 ti tp
  refine ⟨ui, up, bs' ++ bs, ws' ++ ws, by rw [hb', hb, List.append_assoc], by rw [hw', hw, List.append_assoc], fun a => ?_, fun k => ?_⟩
  · rw [undoBytes_append, read_undoBytes_congr bs (wf_undoBytes _ ui) ti hbr', hbr]
  · rw [undoWords_append, readWord_undoWords_congr ws (wf_undoWords _ up) tp hwr', hwr]

/-- A change of the decoder's registers writes no buffer. -/
theorem Logged.withDec {s t : State} {d : Decoder} (h : Logged (s.withDec d) t) : Logged s t := h

theorem logged_emit (v : Byte) (s : State) : Logged s (emit v s) := fun hi hp => by
  have hw := Memory.wf_write hi s.dec.ocnt.toNat v
  refine ⟨hw, hp, [_], [], rfl, rfl, fun a => ?_, fun _ => rfl⟩
  simp only [undoBytes, List.foldl, emit_buf]
  by_cases ha : a = s.dec.ocnt.toNat
  · rw [ha, Memory.read_write_same hw]
  · rw [Memory.read_write_other _ _ ha, Memory.read_write_other _ _ ha]

theorem logged_writePixel (d : Nat) (c : Word) (s : State) : Logged s (writePixel d c s) := fun hi hp => by
  have hw := Memory.wf_writeWord hp d c
  refine ⟨hi, hw, [], [_], rfl, rfl, fun _ => rfl, fun k => ?_⟩
  simp only [undoWords, List.foldl, writePixel_buf]
  by_cases hk : k = d
  · rw [hk, Memory.readWord_writeWord_same hw]
  · rw [Memory.readWord_writeWord_other _ _ hk, Memory.readWord_writeWord_other _ _ hk]

theorem logged_stopDecode (r : DecStop) (s : State) : Logged s (stopDecode r s) := .of_eq (by simp) (by simp)

theorem logged_popAll (n : Nat) (s : State) : Logged s (popAll n s).1 := by
  induction n generalizing s with
  | zero => exact .of_eq rfl rfl
  | succ n ih =>
    have h1 : Logged s (emit s.dec.pop.poppedByte (s.withDec s.dec.pop)) :=
      .withDec (logged_emit _ _)
    simp only [popAll]
    split
    · exact h1
    · exact h1.trans (ih _)

theorem logged_emitExpansion (s : State) : Logged s (emitExpansion s).1 := by
  simp only [emitExpansion]
  split
  · exact logged_emit _ _
  · exact (logged_emit _ _).trans (logged_popAll _ _)

theorem logged_expandCode (a i : BitVec 12) (s : State) : Logged s (expandCode a i s) := by
  unfold expandCode
  split
  · exact .withDec (logged_stopDecode _ _)
  · rename_i r d _
    have h : Logged s _ := .withDec (logged_emitExpansion (s.withDec (d.withFirst ((d.suffixAt r.toNat).setWidth 12))))
    split <;> rename_i t hx <;> rw [hx] at h
    · exact h.trans (logged_stopDecode _ _)
    · exact h.trans (.of_eq rfl rfl)

/-- Every instruction of the sequencer logs what it writes. -/
theorem logged_exec {i : Instr} {s t : State} (hc : i.format ≠ .cmd) (hb : i.format ≠ .bus) (he : exec i s = .next t) : Logged s t := by
  cases i <;> simp only [Instr.format, ne_eq, not_true_eq_false, reduceCtorEq, not_false_eq_true] at hc hb <;> cases he
  case clear.refl => exact .of_eq rfl rfl
  case endCode.refl => exact logged_stopDecode _ _
  case range.refl => exact logged_stopDecode _ _
  case first.refl => exact (logged_emit _ _).trans (.of_eq rfl rfl)
  case defined.refl => exact .withDec (logged_expandCode _ _ _)
  case kwkwk.refl => exact .withDec (logged_expandCode _ _ _)
  case blockHeader.refl len =>
    unfold takeByte
    split
    · exact logged_stopDecode _ _
    · simp only
      split
      · exact .withDec (logged_stopDecode _ _)
      · exact .of_eq rfl rfl
  case dataByte.refl =>
    unfold takeByte
    split
    · exact logged_stopDecode _ _
    · exact .of_eq rfl rfl
  case transparent.refl => exact .of_eq rfl rfl
  case ctRange.refl => exact .of_eq rfl rfl
  case write.refl => exact (logged_writePixel _ _ _).trans (.of_eq rfl rfl)

/-- A step of the sequencer logs what it writes. -/
theorem logged_sequencerStep {w t : State} (hs : SequencerStep w t) : Logged w t := by
  cases hs with
  | idle _ ht => rw [ht]; exact .of_eq rfl rfl
  | count _ _ ht => rw [ht]; exact logged_stopDecode _ _
  | exhausted _ _ _ _ ht => rw [ht]; exact logged_stopDecode _ _
  | byte _ _ _ _ ht => refine logged_exec ?_ ?_ ht <;> unfold decodeStream <;> split <;> simp [Instr.format]
  | code _ _ _ _ _ ht =>
    refine .withDec (logged_exec ?_ ?_ ht) <;> unfold classifyCode <;>
      (repeat' split) <;> simp [Instr.format]
  | finished _ _ ht => rw [ht]; exact .of_eq rfl rfl
  | index _ _ ht => refine logged_exec ?_ ?_ ht <;> unfold classifyIndex <;> (repeat' split) <;> simp [Instr.format]

/-- The rest of a command logs every location it writes. -/
theorem logged_completed (s : State) : Logged s (completed s) :=
  runOut_keeps (P := Logged s) (fun _ _ hw hs => hw.trans (logged_sequencerStep hs)) _ (.of_eq rfl rfl)

/-! ## Undoing writes -/

theorem wf_rollBackIdx (d i : Nat) (log : List (Nat × Byte)) (m : Memory) (h : Memory.wf m) : Memory.wf (rollBackIdx d i log m) := by
  induction log generalizing i m with
  | nil => exact h
  | cons x log ih =>
    obtain ⟨a, o⟩ := x
    simp only [rollBackIdx]
    apply ih
    split
    · exact Memory.wf_write h _ _
    · exact h

theorem wf_rollBackPix (d i : Nat) (log : List (Nat × Word)) (m : Memory) (h : Memory.wf m) : Memory.wf (rollBackPix d i log m) := by
  induction log generalizing i m with
  | nil => exact h
  | cons x log ih =>
    obtain ⟨a, o⟩ := x
    simp only [rollBackPix]
    apply ih
    split
    · exact Memory.wf_writeWord h _ _
    · exact h

/-- A byte of IDX is what it was, or one the log gives it. -/
theorem read_rollBackIdx (d i : Nat) (log : List (Nat × Byte)) {m : Memory} (h : Memory.wf m) (a : Nat) :
    Memory.read (rollBackIdx d i log m) a = Memory.read m a ∨ (a, Memory.read (rollBackIdx d i log m) a) ∈ log := by
  induction log generalizing i m with
  | nil => exact .inl rfl
  | cons x log ih =>
    obtain ⟨b, o⟩ := x
    simp only [rollBackIdx]
    split
    · rcases ih (i + 1) (Memory.wf_write h b o) with hr | hr
      · by_cases hab : a = b
        · subst hab
          rw [Memory.read_write_same h] at hr
          rw [hr]
          exact .inr List.mem_cons_self
        · rw [Memory.read_write_other _ _ hab] at hr
          exact .inl hr
      · exact .inr (List.mem_cons_of_mem _ hr)
    · exact (ih (i + 1) h).imp_right (List.mem_cons_of_mem _)

/-- A word of PIX is what it was, or one the log gives it. -/
theorem read_rollBackPix (d i : Nat) (log : List (Nat × Word)) {m : Memory} (h : Memory.wf m) (k : Nat) :
    Memory.readWord (rollBackPix d i log m) k = Memory.readWord m k ∨ (k, Memory.readWord (rollBackPix d i log m) k) ∈ log := by
  induction log generalizing i m with
  | nil => exact .inl rfl
  | cons x log ih =>
    obtain ⟨b, o⟩ := x
    simp only [rollBackPix]
    split
    · rcases ih (i + 1) (Memory.wf_writeWord h b o) with hr | hr
      · by_cases hab : k = b
        · subst hab
          rw [Memory.readWord_writeWord_same h] at hr
          rw [hr]
          exact .inr List.mem_cons_self
        · rw [Memory.readWord_writeWord_other _ _ hab] at hr
          exact .inl hr
      · exact .inr (List.mem_cons_of_mem _ hr)
    · exact (ih (i + 1) h).imp_right (List.mem_cons_of_mem _)

/-! ## Reset -/

theorem buffersAfterReset_idle {s : State} (h : s.status.busy = false) : buffersAfterReset s = s.buf := by
  unfold buffersAfterReset
  simp [h]

theorem buffersAfterReset_busy {s : State} (h : s.status.busy = true) : buffersAfterReset s =
    { s.buf with
      idx := rollBackIdx s.env.draws 0 (completed s).env.idxLog (completed s).buf.idx
      pix := rollBackPix (s.env.draws + 1) 0 (completed s).env.pixLog (completed s).buf.pix } := by
  unfold buffersAfterReset
  simp [h]

@[simp] theorem buffersAfterReset_inp (s : State) : (buffersAfterReset s).inp = s.buf.inp := by
  unfold buffersAfterReset
  split <;> rfl

@[simp] theorem buffersAfterReset_ct (s : State) : (buffersAfterReset s).ct = s.buf.ct := by
  unfold buffersAfterReset
  split <;> rfl

@[simp] theorem resetBlock_seq (s : State) : (resetBlock s).seq = .idle := rfl
@[simp] theorem resetBlock_status (s : State) : (resetBlock s).status = Status.reset := rfl
@[simp] theorem resetBlock_regs (s : State) : (resetBlock s).regs = Regs.reset := rfl
@[simp] theorem resetBlock_results (s : State) : (resetBlock s).results = Results.reset := rfl
@[simp] theorem resetBlock_buf (s : State) : (resetBlock s).buf = buffersAfterReset s := rfl

/-- A host's reset is the reset event. -/
theorem step_reset {s : State} {rest : List HostMove} (h : s.env.host = .reset :: rest) : step s = .next (resetBlock (s.pop rest)) :=
  step_move (by unfold fetch; rw [h]; rfl)

theorem arraysOk_resetBlock {s : State} (h : s.arraysOk) : (resetBlock s).arraysOk := by
  have hc := arraysOk_completed h
  have : Memory.wf (buffersAfterReset s).idx ∧ Memory.wf (buffersAfterReset s).pix := by
    cases hb : s.status.busy with
    | true => rw [buffersAfterReset_busy hb]; exact ⟨wf_rollBackIdx _ _ _ _ hc.2.1, wf_rollBackPix _ _ _ _ hc.2.2.2.1⟩
    | false => rw [buffersAfterReset_idle hb]; exact ⟨h.2.1, h.2.2.2.1⟩
  refine ⟨by simpa using h.1, this.1, by simpa using h.2.2.1, this.2, Memory.wf_nil, List.Pairwise.nil, List.Pairwise.nil, ?_, ?_, ?_,
    Nat.zero_le _⟩ <;> simp [resetBlock, Decoder.reset]

end Sys2Proof.Machine
end

