-- ==== Sys2Proof/Laws/Ends.lean ====
section
/-! SUPPORT. How each instruction can end: it goes on in its phase, stops the decode, or ends the command; and what it never touches. -/

namespace Sys2Proof.Machine

/-! ## The format of a class -/

theorem classifyCode_format (ctx : Ctx) (c : BitVec 12) : (classifyCode ctx c).format = .code := by
  unfold classifyCode
  (repeat' split) <;> rfl

theorem decodeStream_format (ctx : Ctx) (c : Byte) : (decodeStream ctx c).format = .stream := by
  unfold decodeStream
  (repeat' split) <;> rfl

theorem classifyIndex_format (ctx : Ctx) (c : Byte) : (classifyIndex ctx c).format = .index := by
  unfold classifyIndex
  (repeat' split) <;> rfl

theorem decodeCmd_format (w : Word) : (decodeCmd w).format = .cmd := by
  unfold decodeCmd
  (repeat' split) <;> rfl

/-! ## Commands and registers -/

/-- A command word that reaches an idle block is start_command (R122). -/
theorem exec_decodeCmd (w : Word) (s : State) (hb : s.status.busy = false) : exec (decodeCmd w) s = .next (startCommand w s) := by
  unfold decodeCmd startCommand
  split
  · simp [exec, execBadCmd, cmdWrite_idle hb]
  split
  · simp [exec, execDecode, cmdWrite_idle hb]
  split
  · simp [exec, execComposite, cmdWrite_idle hb]
  split
  · simp [exec, execDecodeComposite, cmdWrite_idle hb]
  · simp [exec, execBadCmd, cmdWrite_idle hb]

/-- A register write that answers a next state was aligned and has its register's effect. -/
theorem write_ends {off : BitVec 8} {d : Word} {s t : State} (h : exec (.wr off d) s = .next t) :
    misaligned off = false ∧ t = writeRegister (regAt off) d s := by
  simp only [exec, execWr] at h
  split at h
  · cases h
  · rename_i hm; cases h; exact ⟨by simpa using hm, rfl⟩

/-- A register read that answers a next state hands one value to the host and changes nothing else. -/
theorem read_ends {off : BitVec 8} {s t : State} (h : exec (.rd off) s = .next t) :
    ∃ v, t = answerRead v s := by
  simp only [exec, execRd] at h
  split at h
  · cases h
  · cases h; exact ⟨_, rfl⟩

/-- Everything a register write can do: start a command, be turned away, acknowledge, configure, or nothing (R120). -/
theorem writeRegister_cases (n : RegName) (d : Word) (s : State) :
    (s.status.busy = false ∧ writeRegister n d s = startCommand d s) ∨
    (s.status.busy = true ∧ writeRegister n d s = busyWrite s) ∨
    writeRegister n d s = s.withStatus (s.status.acknowledge d) ∨
    (s.status.busy = false ∧ writeRegister n d s = s.withRegs (s.regs.store n d)) ∨
    writeRegister n d s = s := by
  cases hb : s.status.busy <;> cases n <;> simp [writeRegister, cmdWrite, configWrite, hb]

/-- A stop of DECODE_COMPOSITE's decode phase, whose checks have passed, goes on to the composite phase (R125, R171). -/
theorem stopDecode_goesOn {s : State} (r : DecStop) (ho : s.op = .decodeComposite) (hn : s.regs.positions ≤ s.regs.idxLen.toNat)
    (hg : s.regs.geometryOk = true) : stopDecode r s = s.compositeAfter r := by
  unfold stopDecode
  simp only [ho]
  unfold runComposite
  rw [if_neg (by simpa using hn), if_neg (by simp [hg])]
  rfl

/-! ## Codes -/

/-- What no code and no stream byte that goes on touches, but for the registers of the bit accumulator that a byte sets. -/
structure OutsideEmission (s t : State) : Prop where
  seq : t.seq = s.seq
  op : t.op = s.op
  status : t.status = s.status
  regs : t.regs = s.regs
  results : t.results = s.results
  cmp : t.cmp = s.cmp
  inp : t.buf.inp = s.buf.inp
  ct : t.buf.ct = s.buf.ct
  pix : t.buf.pix = s.buf.pix
  host : t.env.host = s.env.host
  mcs : t.dec.mcs = s.dec.mcs
  clear : t.dec.clear = s.dec.clear
  endCode : t.dec.endCode = s.dec.endCode
  npix : t.dec.npix = s.dec.npix
  tableDraw : t.dec.tableDraw = s.dec.tableDraw

/-- The registers of the bit accumulator and the input cursor. -/
structure SameAccumulator (s t : State) : Prop where
  acc : t.dec.acc = s.dec.acc
  nbits : t.dec.nbits = s.dec.nbits
  brem : t.dec.brem = s.dec.brem
  ipos : t.dec.ipos = s.dec.ipos

theorem OutsideEmission.trans {s t u : State} (h1 : OutsideEmission s t) (h2 : OutsideEmission t u) : OutsideEmission s u :=
  ⟨h2.seq.trans h1.seq, h2.op.trans h1.op, h2.status.trans h1.status, h2.regs.trans h1.regs, h2.results.trans h1.results,
    h2.cmp.trans h1.cmp, h2.inp.trans h1.inp, h2.ct.trans h1.ct, h2.pix.trans h1.pix, h2.host.trans h1.host, h2.mcs.trans h1.mcs,
    h2.clear.trans h1.clear, h2.endCode.trans h1.endCode, h2.npix.trans h1.npix, h2.tableDraw.trans h1.tableDraw⟩

theorem SameAccumulator.trans {s t u : State} (h1 : SameAccumulator s t) (h2 : SameAccumulator t u) : SameAccumulator s u :=
  ⟨h2.acc.trans h1.acc, h2.nbits.trans h1.nbits, h2.brem.trans h1.brem, h2.ipos.trans h1.ipos⟩

theorem outside_emit (v : Byte) (s : State) : OutsideEmission s (emit v s) ∧ SameAccumulator s (emit v s) := by
  constructor <;> constructor <;> rfl

theorem outside_popAll (n : Nat) (s : State) : OutsideEmission s (popAll n s).1 ∧ SameAccumulator s (popAll n s).1 := by
  induction n generalizing s with
  | zero => constructor <;> constructor <;> rfl
  | succ n ih =>
    have h1 : OutsideEmission s (emit s.dec.pop.poppedByte (s.withDec s.dec.pop)) ∧
        SameAccumulator s (emit s.dec.pop.poppedByte (s.withDec s.dec.pop)) := by
      constructor <;> constructor <;> rfl
    simp only [popAll]
    split
    · exact h1
    · exact ⟨h1.1.trans (ih _).1, h1.2.trans (ih _).2⟩

theorem outside_emitExpansion (s : State) : OutsideEmission s (emitExpansion s).1 ∧ SameAccumulator s (emitExpansion s).1 := by
  have h1 := outside_emit (s.dec.first.setWidth 8) s
  simp only [emitExpansion]
  split
  · exact h1
  · have h2 := outside_popAll (emit (s.dec.first.setWidth 8) s).dec.top.toNat (emit (s.dec.first.setWidth 8) s)
    exact ⟨h1.1.trans h2.1, h1.2.trans h2.2⟩

/-- The walk and the setting of FIRST touch neither. -/
theorem outside_walk {s : State} {d e : Decoder} (hd : s.dec = d) (h : SameButStack d e) (f : BitVec 12) :
    OutsideEmission s (s.withDec (e.withFirst f)) ∧ SameAccumulator s (s.withDec (e.withFirst f)) := by
  subst hd
  constructor <;> constructor <;> first | rfl | simp [h.mcs, h.clear, h.endCode, h.npix, h.tableDraw, h.acc, h.nbits, h.brem, h.ipos]

/-- So does the definition. -/
theorem outside_define (t : State) (i : BitVec 12) :
    OutsideEmission t (t.withDec (t.dec.define.withPrev i)) ∧ SameAccumulator t (t.withDec (t.dec.define.withPrev i)) := by
  constructor <;> constructor <;> simp

/-- Whatever the table holds, the common part of DEFINED and KWKWK goes on in the decode phase or stops it. -/
theorem expandCode_ends (a i : BitVec 12) (s : State) :
    ∃ t, OutsideEmission s t ∧ SameAccumulator s t ∧ (expandCode a i s = t ∨ ∃ r, expandCode a i s = stopDecode r t) := by
  unfold expandCode
  cases hw : expand Config.stackCap a s.dec with
  | overflow d =>
    have h := outside_walk rfl (expand_frame hw) d.first
    exact ⟨s.withDec d, h.1, h.2, .inr ⟨_, rfl⟩⟩
  | root r d =>
    have h0 := outside_walk rfl (expand_frame hw).1 ((d.suffixAt r.toNat).setWidth 12)
    have h1 := outside_emitExpansion (s.withDec (d.withFirst ((d.suffixAt r.toNat).setWidth 12)))
    have h := And.intro (h0.1.trans h1.1) (h0.2.trans h1.2)
    clear h0 h1
    simp only
    generalize emitExpansion (s.withDec (d.withFirst ((d.suffixAt r.toNat).setWidth 12))) = x at h
    obtain ⟨t, b⟩ := x
    have hd := outside_define t i
    cases b
    · exact ⟨_, h.1.trans hd.1, h.2.trans hd.2, .inl rfl⟩
    · exact ⟨t, h.1, h.2, .inr ⟨_, rfl⟩⟩

/-- Every code goes on in the decode phase, or stops it. -/
theorem code_ends {i : Instr} {w t : State} (hf : i.format = .code) (h : exec i w = .next t) :
    ∃ u, OutsideEmission w u ∧ SameAccumulator w u ∧ (t = u ∨ ∃ r, t = stopDecode r u) := by
  cases i <;> simp only [Instr.format, reduceCtorEq] at hf <;> cases h
  case clear => refine ⟨_, ?_, ?_, .inl rfl⟩ <;> constructor <;> rfl
  case endCode => refine ⟨w, ?_, ?_, .inr ⟨_, rfl⟩⟩ <;> constructor <;> rfl
  case range => refine ⟨w, ?_, ?_, .inr ⟨_, rfl⟩⟩ <;> constructor <;> rfl
  case first => refine ⟨_, ?_, ?_, .inl rfl⟩ <;> constructor <;> rfl
  case defined c =>
    have h0 : OutsideEmission w (w.withDec w.dec.emptyStack) ∧ SameAccumulator w (w.withDec w.dec.emptyStack) := by
      constructor <;> constructor <;> rfl
    obtain ⟨u, h1, h2, h3⟩ := expandCode_ends c c (w.withDec w.dec.emptyStack)
    exact ⟨u, h0.1.trans h1, h0.2.trans h2, h3⟩
  case kwkwk c =>
    have h0 : OutsideEmission w (w.withDec (w.dec.emptyStack.push (w.dec.first.setWidth 8))) ∧
        SameAccumulator w (w.withDec (w.dec.emptyStack.push (w.dec.first.setWidth 8))) := by
      constructor <;> constructor <;> rfl
    obtain ⟨u, h1, h2, h3⟩ := expandCode_ends w.dec.prev c (w.withDec (w.dec.emptyStack.push (w.dec.first.setWidth 8)))
    exact ⟨u, h0.1.trans h1, h0.2.trans h2, h3⟩

/-! ## Stream and index bytes -/

/-- Every byte of the stream goes on in the decode phase, or stops it; no buffer changes. -/
theorem byte_ends {i : Instr} {w t : State} (hf : i.format = .stream) (h : exec i w = .next t) :
    ∃ u, OutsideEmission w u ∧ u.buf = w.buf ∧ (t = u ∨ ∃ r, t = stopDecode r u) := by
  cases i <;> simp only [Instr.format, reduceCtorEq] at hf <;> cases h <;> unfold takeByte <;> split
  case blockHeader.refl.isTrue => exact ⟨w, (by constructor <;> rfl), rfl, .inr ⟨_, rfl⟩⟩
  case blockHeader.refl.isFalse =>
    simp only
    split
    · refine ⟨_, ?_, ?_, .inr ⟨_, rfl⟩⟩
      · constructor <;> rfl
      · rfl
    · refine ⟨_, ?_, ?_, .inl rfl⟩
      · constructor <;> rfl
      · rfl
  case dataByte.refl.isTrue => exact ⟨w, (by constructor <;> rfl), rfl, .inr ⟨_, rfl⟩⟩
  case dataByte.refl.isFalse =>
    refine ⟨_, ?_, ?_, .inl rfl⟩
    · constructor <;> rfl
    · rfl

/-- Every index byte steps to the next position, with or without a PIX write, or ends the command with CT_RANGE. -/
theorem index_ends {w t : State} {v : Byte} (h : exec (classifyIndex w.ctx v) w = .next t) :
    t = nextPosition w ∨ t = raiseError .ctRange w ∨
      t = nextPosition (writePixel (w.regs.destOf w.cmp.cpos.toNat) (Memory.readWord w.buf.ct v.toNat) w) := by
  unfold classifyIndex at h
  split at h
  · cases h; exact .inl rfl
  split at h
  · cases h; exact .inr (.inl rfl)
  · cases h; exact .inr (.inr rfl)

end Sys2Proof.Machine
end

