-- ==== Sys2Proof/Laws/PerInstr.lean ====
section
/-! SUPPORT. Per-instruction families. Format: an instruction is written in the format the opcode table gives its row. -/

namespace Sys2Proof.Laws.Format

/-- In every decoder state the word of `i` is of the format of `i`'s row. -/
def Statement (i : Instr) : Prop := ∀ ctx : Ctx, (encode ctx i).format = i.format

theorem decode : Statement .decode := fun _ => rfl
theorem composite : Statement .composite := fun _ => rfl
theorem decodeComposite : Statement .decodeComposite := fun _ => rfl
theorem badCmd (w : Word) : Statement (.badCmd w) := fun _ => rfl
theorem wr (offset : BitVec 8) (data : Word) : Statement (.wr offset data) := fun _ => rfl
theorem rd (offset : BitVec 8) : Statement (.rd offset) := fun _ => rfl
theorem clear (code : BitVec 12) : Statement (.clear code) := fun _ => rfl
theorem endCode (code : BitVec 12) : Statement (.endCode code) := fun _ => rfl
theorem range (code : BitVec 12) : Statement (.range code) := fun _ => rfl
theorem first (code : BitVec 12) : Statement (.first code) := fun _ => rfl
theorem defined (code : BitVec 12) : Statement (.defined code) := fun _ => rfl
theorem kwkwk (code : BitVec 12) : Statement (.kwkwk code) := fun _ => rfl
theorem blockHeader (len : Byte) : Statement (.blockHeader len) := fun _ => rfl
theorem dataByte (byte : Byte) : Statement (.dataByte byte) := fun _ => rfl
theorem transparent (v : Byte) : Statement (.transparent v) := fun _ => rfl
theorem ctRange (v : Byte) : Statement (.ctRange v) := fun _ => rfl
theorem write (v : Byte) : Statement (.write v) := fun _ => rfl

end Sys2Proof.Laws.Format
end

