-- ==== Sys2Proof/Tests/Slice0.lean ====
section
/-! SUPPORT. The model's own tests: expected values come from spec/ (the vectors of 95_test_vectors.md and the rules' examples), never
from the model; and for every obligation with hypotheses a witness that meets them. -/

namespace Sys2Proof.Tests

open Sys2Proof Sys2Proof.Machine

/-! ## Well-formedness: each check refuses an ill-formed term -/

theorem test_wr_unaligned_is_ill_formed : (Instr.wr 0x11 0).wellFormed = false := by decide
theorem test_rd_unaligned_is_ill_formed : (Instr.rd 0x06).wellFormed = false := by decide
theorem test_legal_word_is_no_bad_cmd : (Instr.badCmd 3).wellFormed = false := by decide
theorem test_clear_not_a_power_of_two : (Instr.clear 6).wellFormed = false := by decide
theorem test_clear_above_256 : (Instr.clear 512).wellFormed = false := by decide
theorem test_end_not_above_a_clear : (Instr.endCode 4).wellFormed = false := by decide
theorem test_end_zero : (Instr.endCode 0).wellFormed = false := by decide
theorem test_range_too_small : (Instr.range 3).wellFormed = false := by decide
theorem test_kwkwk_too_small : (Instr.kwkwk 2).wellFormed = false := by decide

/-! ## Decoding: words written out from 30_encoding.md -/

/-- The decoder state of vector DV1 before a previous code is remembered, TRANSP as in CV1, CT_LEN = 4. -/
def c0 : Ctx := ⟨4, 5, 6, false, 3, 0, true, 2, 4⟩

/-- The same with a previous code, inside a sub-block. -/
def c1 : Ctx := ⟨4, 5, 6, true, 3, 5, true, 2, 4⟩

/-- R96: OP = 0b01, RSV = 0. -/
theorem test_decode_DECODE : (decode c0 (.cmd 0b00000000000000000000000000000001)).toOption = some .decode := by decide
theorem test_decode_COMPOSITE : (decode c0 (.cmd 0b00000000000000000000000000000010)).toOption = some .composite := by decide
theorem test_decode_DECODE_COMPOSITE : (decode c0 (.cmd 0b00000000000000000000000000000011)).toOption = some .decodeComposite := by
  decide
/-- R126: OP = 0b01 with a reserved bit set does not start DECODE. -/
theorem test_decode_BAD_CMD : (decode c0 (.cmd 0b00000000000000000000000000000101)).toOption = some (.badCmd 5) := by decide
theorem test_decode_BAD_CMD_top_bit :
    (decode c0 (.cmd 0b10000000000000000000000000000010)).toOption = some (.badCmd 0x80000002) := by decide
/-- R97: `W 0x10 0x00000007`. -/
theorem test_decode_WR : (decode c0 (.bus ⟨.write, 0x10, 4, 7⟩)).toOption = some (.wr 0x10 7) := by decide
/-- R97: `R 0xFC`. -/
theorem test_decode_RD : (decode c0 (.bus ⟨.read, 0xFC, 4, 0⟩)).toOption = some (.rd 0xFC) := by decide
/-- R68: a narrow access, an unaligned one and one outside the window are refused by name. -/
theorem test_decode_refuses_shapes :
    [BusAccess.mk .write 0x10 2 7, ⟨.read, 0x12, 4, 0⟩, ⟨.read, 0x100, 4, 0⟩].map (fun a => match decodeBus a with
      | .ok _ => Option.none
      | .error e => some e) = [some .busWidth, some .busAlignment, some .busOffset] := by decide
/-- R94 at CSIZE = 3, bit 0 first: 4 is CLEAR, 5 END, 7 RANGE, 6 FIRST or KWKWK, 2 DEFINED. -/
theorem test_decode_CLEAR : (decode c1 (.code [false, false, true])).toOption = some (.clear 4) := by decide
theorem test_decode_END : (decode c1 (.code [true, false, true])).toOption = some (.endCode 5) := by decide
theorem test_decode_RANGE : (decode c1 (.code [true, true, true])).toOption = some (.range 7) := by decide
theorem test_decode_FIRST : (decode c0 (.code [false, true, true])).toOption = some (.first 6) := by decide
theorem test_decode_DEFINED : (decode c1 (.code [false, true, false])).toOption = some (.defined 2) := by decide
theorem test_decode_KWKWK : (decode c1 (.code [false, true, true])).toOption = some (.kwkwk 6) := by decide
/-- R94: END at MCS = 8, code 257 in nine bits (vector DV15). -/
theorem test_decode_END_nine_bits :
    (decode ⟨256, 257, 260, true, 9, 1, false, 0, 0⟩ (.code [true, false, false, false, false, false, false, false, true])).toOption
      = some (.endCode 257) := by decide
theorem test_decode_BLOCK_HEADER : (decode c0 (.stream 0b00000101)).toOption = some (.blockHeader 5) := by decide
theorem test_decode_DATA_BYTE : (decode c1 (.stream 0b10000100)).toOption = some (.dataByte 0x84) := by decide
/-- R98: TINDEX = 2 is transparent, 4 = CT_LEN is beyond the table, 3 is the last color. -/
theorem test_decode_TRANSPARENT : (decode c0 (.index 0b00000010)).toOption = some (.transparent 2) := by decide
theorem test_decode_CT_RANGE : (decode c0 (.index 0b00000100)).toOption = some (.ctRange 4) := by decide
theorem test_decode_WRITE : (decode c0 (.index 0b00000011)).toOption = some (.write 3) := by decide

/-! ## CODES listings (R102): the bytes of vectors DV4, DV5, DV7 and DV16 -/

theorem test_listing_DV4 : codesListing 2 [] [⟨4, 3⟩, ⟨5, 3⟩] = [0x02, 0x01, 0x2C] := by decide
theorem test_listing_DV5 : codesListing 2 [] [⟨4, 3⟩, ⟨1, 3⟩, ⟨6, 3⟩, ⟨5, 3⟩] = [0x02, 0x02, 0x8C, 0x0B] := by decide
theorem test_listing_DV7 :
    codesListing 2 [] [⟨4, 3⟩, ⟨0, 3⟩, ⟨1, 3⟩, ⟨6, 3⟩, ⟨7, 4⟩, ⟨4, 4⟩, ⟨0, 3⟩, ⟨7, 3⟩] = [0x02, 0x04, 0x44, 0x7C, 0x84, 0x03] := by
  decide
theorem test_listing_DV16 :
    codesListing 2 [2, 3] [⟨4, 3⟩, ⟨0, 3⟩, ⟨2, 3⟩, ⟨7, 3⟩, ⟨6, 4⟩, ⟨7, 4⟩, ⟨2, 4⟩, ⟨1, 4⟩, ⟨12, 4⟩, ⟨13, 4⟩, ⟨5, 4⟩]
      = [0x02, 0x02, 0x84, 0x6E, 0x03, 0x27, 0xC1, 0x5D] := by decide

/-- DV1z: DV1's bytes followed by the zero-length sub-block that the listing asks for (R102). -/
theorem test_listing_DV1z :
    codesListing 2 [5, 0] [⟨4, 3⟩, ⟨0, 3⟩, ⟨2, 3⟩, ⟨7, 3⟩, ⟨6, 4⟩, ⟨7, 4⟩, ⟨2, 4⟩, ⟨1, 4⟩, ⟨12, 4⟩, ⟨13, 4⟩, ⟨5, 4⟩]
      = [0x02, 0x05, 0x84, 0x6E, 0x27, 0xC1, 0x5D, 0x00] := by decide
/-- R102: zero-length sub-blocks before the data drop none of it. -/
theorem test_listing_zero_sizes : codesListing 2 [0, 0] [⟨4, 3⟩, ⟨5, 3⟩] = [0x02, 0x00, 0x00, 0x01, 0x2C] := by decide

/-! ## The opcode table's numbering -/

theorem test_table_word : decodeTableWord 32 3 = some .decodeComposite := by decide

/-- Register words have little-endian lanes (R66): byte 0 of 0x11223344 is 0x44. -/
theorem test_register_lanes : laneByte 0x11223344 0 = 0x44 ∧ laneByte 0x11223344 3 = 0x11 ∧ wordOfLanes 0x44 0x33 0x22 0x11 = 0x11223344 := by
  decide

/-! ## States -/

/-- The next state of an outcome. -/
def nextOf (o : Host.Outcome State Fault Refusal) : Option State :=
  match o with
  | .next t => some t
  | .fault _ => Option.none
  | .refused _ => Option.none

/-- The registers of DV1 (IN_LEN 7, PIXEL_COUNT 15, IDX_LEN 15) and of CV1 (a 2x2 frame at (1,1) on a 4x3 canvas, CT_LEN 4, TINDEX 2). -/
def regs0 : Regs := ⟨false, false, 2, true, 7, 15, 15, 4, 4, 3, 2, 2, 1, 1⟩

/-- DV1's IN. -/
def in0 : Memory := [(0, 0x02), (1, 0x05), (2, 0x84), (3, 0x6E), (4, 0x27), (5, 0xC1), (6, 0x5D)]

/-- CV1's IDX: 00 01 02 03. -/
def idx0 : Memory := [(1, 1), (2, 2), (3, 3)]

/-- CT = FF000000, FFFF0000, FF00FF00, FF0000FF. -/
def ct0 : Memory :=
  Memory.writeWord (Memory.writeWord (Memory.writeWord (Memory.writeWord [] 0 0xFF000000) 1 0xFFFF0000) 2 0xFF00FF00) 3 0xFF0000FF

/-- An idle block set up for DV1 and CV1. -/
def idle0 : State := { State.reset with regs := regs0, buf := ⟨in0, idx0, ct0, []⟩ }

/-- `idle0` with other registers. -/
def idleWith (g : Regs) : State := { idle0 with regs := g }

/-- DV1's decoder after its initialisation, all of IN taken. -/
def dec0 : Decoder :=
  { Decoder.reset with
    mcs := 2, clear := 4, endCode := 5, csize := 3, mask := 7, avail := 6, npix := 15, ipos := 7
    pfx := rootPrefixes 4, sfx := rootSuffixes 4 }

/-- DV1 before its code 4: entry 6 = (0, 2), PREV = 2. -/
def dec4 : Decoder :=
  { dec0 with avail := 7, prev := 2, prevV := true, first := 2, ocnt := 2
              pfx := rootPrefixes 4 ++ [(6, 0)], sfx := rootSuffixes 4 ++ [(6, 2)] }

/-- DV1 before its code 5: entries 6 = (0, 2) and 7 = (2, 2), PREV = 7, width 4. -/
def dec5 : Decoder :=
  { dec0 with csize := 4, mask := 15, avail := 8, prev := 7, prevV := true, first := 2, ocnt := 4
              pfx := rootPrefixes 4 ++ [(6, 0), (7, 2)], sfx := rootSuffixes 4 ++ [(6, 2), (7, 2)] }

/-- DV1 before its code 10: entry 12 = (1, 1), PREV = 12, 12 bytes written. -/
def dec10 : Decoder :=
  { dec5 with avail := 13, prev := 12, first := 1, ocnt := 12
              pfx := rootPrefixes 4 ++ [(12, 1)], sfx := rootSuffixes 4 ++ [(12, 1)] }

/-- DV13b before its last code: entry 6 = (6, 0), a self-reference. -/
def decLoop : Decoder :=
  { dec0 with avail := 7, prev := 0, prevV := true, ocnt := 2
              pfx := rootPrefixes 4 ++ [(6, 6)], sfx := rootSuffixes 4 ++ [(6, 0)] }

/-- A running DECODE with the decoder `d`. -/
def decoding (d : Decoder) : State :=
  { idle0 with seq := .decode, op := .decode, status := { Status.reset with busy := true }, dec := d }

/-- A running COMPOSITE of CV1 at position `i`, `w` words written. -/
def compositing (g : Regs) (i w : Word) : State :=
  { idle0 with seq := .composite, op := .composite, status := { Status.reset with busy := true }, regs := g, cmp := ⟨i, w⟩ }

/-- CV2's geometry: a 2x5 frame on a 2x5 canvas, interlaced, no transparency. -/
def regsCV2 : Regs := { regs0 with interlaced := true, ten := false, imgW := 2, imgH := 5, frameW := 2, frameH := 5, offX := 0, offY := 0 }

/-- `s` with the script `ms`. -/
def scripted (ms : List HostMove) (s : State) : State := s.script ms

/-! ## One step of each instruction -/

/-- R123 and DV1's initialisation (R93: MCS 2 gives CSIZE 3, AVAIL 6). -/
theorem test_DECODE_starts :
    (nextOf (exec .decode idle0)).map (fun t => (t.dec.csize, t.dec.avail, t.dec.ipos, t.status.busy)) = some (3, 6, 1, true) := by
  decide
/-- DV10: MCS byte 9, STATUS 0x00020006, IN_POS = 1. -/
theorem test_DECODE_bad_mcs :
    (nextOf (exec .decode { idle0 with buf := { idle0.buf with inp := [(0, 9), (1, 1)] } })).map
      (fun t => (t.status.word 0, t.results.inPos)) = some (0x00020006, 1) := by decide
/-- CV5b: the largest destination offset is 12 >= 12, PIX_RANGE (ERR_CODE 4). -/
theorem test_COMPOSITE_pix_range :
    (nextOf (exec .composite (idleWith { regs0 with offX := 3 }))).map (fun t => t.status.word 0) = some 0x00040006 := by decide
/-- CV1 passes its checks. -/
theorem test_COMPOSITE_starts :
    (nextOf (exec .composite idle0)).map (fun t => (t.seq, t.cmp.cpos)) = some (.composite, 0) := by decide
/-- P4: FRAME_W * FRAME_H = 2 > IDX_LEN = 1, STATUS 0x00030006, IN_POS = 0. -/
theorem test_DECODE_COMPOSITE_idx_range :
    (nextOf (exec .decodeComposite (idleWith { regs0 with frameH := 1, idxLen := 1 }))).map
      (fun t => (t.status.word 0, t.results.inPos)) = some (0x00030006, 0) := by decide
/-- P1: NPIX = FRAME_W * FRAME_H = 15. -/
theorem test_DECODE_COMPOSITE_npix :
    (nextOf (exec .decodeComposite (idleWith { regs0 with pixelCount := 1, frameW := 5, frameH := 3, imgW := 5, offX := 0, offY := 0 }))).map
      (fun t => (t.dec.npix, t.seq)) = some (15, .decode) := by decide
/-- P4, R126: STATUS 0x00010006. -/
theorem test_BAD_CMD : (nextOf (exec (.badCmd 4) idle0)).map (fun t => t.status.word 0) = some 0x00010006 := by decide
/-- R120: a write of CT_LEN = 0x1FF stores 256. -/
theorem test_WR_ct_len : (nextOf (exec (.wr 0x1C 0x1FF) idle0)).map (fun t => t.regs.ctLen) = some 256 := by decide
/-- R120: a write of IMG_W = 0x00012345 stores 0x2345. -/
theorem test_WR_img_w : (nextOf (exec (.wr 0x20 0x00012345) idle0)).map (fun t => t.regs.imgW) = some 0x2345 := by decide
/-- DV1: STATUS 0x00000102 after COUNT. -/
theorem test_RD_status :
    (nextOf (exec (.rd 0x04) { idle0 with status := ⟨false, true, false, .count, .none⟩ })).map (fun t => t.env.rdata)
      = some 0x00000102 := by decide
/-- P3: TRANSP = 0x1EE reads back. -/
theorem test_RD_transp :
    (nextOf (exec (.rd 0x0C) (idleWith { regs0 with tindex := 0xEE }))).map (fun t => t.env.rdata) = some 0x000001EE := by decide
/-- R160, vector DV7: a clear at width 4 goes back to width 3 and AVAIL 6. -/
theorem test_CLEAR :
    (nextOf (exec (.clear 4) (decoding { dec5 with avail := 9 }))).map (fun t => (t.dec.csize, t.dec.mask, t.dec.avail, t.dec.prevV))
      = some (3, 7, 6, false) := by decide
/-- DV4: STATUS 0x00000202. -/
theorem test_END : (nextOf (exec (.endCode 5) (decoding dec0))).map (fun t => (t.status.word 0, t.results.outCount)) = some (0x202, 0) := by
  decide
/-- DV6: STATUS 0x00000302. -/
theorem test_RANGE : (nextOf (exec (.range 7) (decoding dec0))).map (fun t => t.status.word 0) = some 0x00000302 := by decide
/-- DV18: code 3 is FIRST and emits 03. -/
theorem test_FIRST :
    (nextOf (exec (.first 3) (decoding dec0))).map (fun t => (Memory.read t.buf.idx 0, t.dec.ocnt, t.dec.prev, t.dec.first, t.dec.prevV))
      = some (3, 1, 3, 3, true) := by decide
/-- R163: a stale first code is remembered as FIRST, code and all, and no entry is defined. -/
theorem test_FIRST_stale :
    (nextOf (exec (.first 6) (decoding dec0))).map (fun t => (t.dec.first, t.dec.prev, t.dec.avail)) = some (6, 6, 6) := by decide
/-- DV1 code 5: DEFINED 6 emits 0 2 and defines 8 = (7, 0). -/
theorem test_DEFINED :
    (nextOf (exec (.defined 6) (decoding dec5))).map (fun t => (Memory.read t.buf.idx 4, Memory.read t.buf.idx 5, t.dec.prefixAt 8,
      t.dec.suffixAt 8, t.dec.avail, t.dec.csize, t.dec.prev)) = some (0, 2, 7, 0, 9, 4, 6) := by decide
/-- DV1 code 4: KWKWK 7 emits 2 2, defines 7 = (2, 2) and widens to 4. -/
theorem test_KWKWK :
    (nextOf (exec (.kwkwk 7) (decoding dec4))).map (fun t => (Memory.read t.buf.idx 2, Memory.read t.buf.idx 3, t.dec.prefixAt 7,
      t.dec.suffixAt 7, t.dec.avail, t.dec.csize, t.dec.mask)) = some (2, 2, 2, 2, 8, 4, 15) := by decide
/-- DV1 code 10: KWKWK 13 reaches COUNT after its third byte; nothing is defined. -/
theorem test_KWKWK_count_stop :
    (nextOf (exec (.kwkwk 13) (decoding dec10))).map (fun t => (Memory.read t.buf.idx 14, t.status.word 0, t.results.outCount, t.dec.avail))
      = some (1, 0x102, 15, 13) := by decide
/-- DV1: the length byte 5. -/
theorem test_BLOCK_HEADER :
    (nextOf (exec (.blockHeader 5) (decoding { dec0 with ipos := 1 }))).map (fun t => (t.dec.brem, t.dec.ipos)) = some (5, 2) := by
  decide
/-- DV8: a length byte 0 stops with ZERO_BLOCK, STATUS 0x00000602, IN_POS = 2. -/
theorem test_BLOCK_HEADER_zero :
    (nextOf (exec (.blockHeader 0) (decoding { dec0 with ipos := 1 }))).map (fun t => (t.status.word 0, t.results.inPos))
      = some (0x602, 2) := by decide
/-- R157's example: ACC = 0b01, NBITS = 2, byte 0x6E gives 0x1B9 and NBITS = 10. -/
theorem test_DATA_BYTE :
    (nextOf (exec (.dataByte 0x6E) (decoding { dec0 with acc := 0b01, nbits := 2, ipos := 3, brem := 4 }))).map
      (fun t => (t.dec.acc, t.dec.nbits, t.dec.ipos, t.dec.brem)) = some (0x1B9, 10, 4, 3) := by decide
/-- DV9: a missing data byte stops with IN_EXHAUSTED, STATUS 0x00000502. -/
theorem test_DATA_BYTE_exhausted :
    (nextOf (exec (.dataByte 0) (decoding { dec0 with brem := 3 }))).map (fun t => t.status.word 0) = some 0x00000502 := by decide
/-- CV1 position 2: nothing is written. -/
theorem test_TRANSPARENT :
    (nextOf (exec (.transparent 2) (compositing regs0 2 2))).map (fun t => (Memory.readWord t.buf.pix 9, t.cmp.cpos, t.cmp.pwr))
      = some (0, 3, 2) := by decide
/-- CV3 position 2: CT_RANGE, STATUS 0x00050006, CMP_COUNT = PIX_WRITTEN = 2. -/
theorem test_CT_RANGE :
    (nextOf (exec (.ctRange 5) (compositing { regs0 with ctLen := 2 } 2 2))).map
      (fun t => (t.status.word 0, t.results.cmpCount, t.results.pixWritten)) = some (0x00050006, 2, 2) := by decide
/-- CV1 position 3: CT[3] goes to PIX[10]. -/
theorem test_WRITE :
    (nextOf (exec (.write 3) (compositing regs0 3 2))).map (fun t => (Memory.readWord t.buf.pix 10, t.cmp.cpos, t.cmp.pwr))
      = some (0xFF0000FF, 4, 3) := by decide
/-- CV2: source row 1 of an interlaced frame of 5 rows is display row 4, so position 2 is PIX[8]. -/
theorem test_WRITE_interlaced :
    (nextOf (exec (.write 1) (compositing regsCV2 2 2))).map (fun t => Memory.readWord t.buf.pix 8) = some 0xFFFF0000 := by decide

/-- X3: the display rows of an interlaced frame of 17 and of 10 rows. -/
theorem test_rowmap :
    (List.range 17).map (rowmap · 17) = [0, 8, 16, 4, 12, 2, 6, 10, 14, 1, 3, 5, 7, 9, 11, 13, 15] ∧
    (List.range 10).map (rowmap · 10) = [0, 8, 4, 2, 6, 1, 3, 5, 7, 9] := by decide

/-! ## Steps -/

/-- The word placed by `withFetchWord` runs as the first instruction after reset: BAD_CMD, STATUS 0x00010006. -/
theorem test_fetch_word : (nextOf (step (State.reset.withFetchWord 32 0))).map (fun t => t.status.word 0) = some 0x00010006 := by decide
/-- X1: ACC = 0x84, 0x84 & 7 = 4 is CLEAR and 5 bits remain. -/
theorem test_step_code :
    (nextOf (step (decoding { dec0 with acc := 0x84, nbits := 8, prevV := true }))).map (fun t => (t.dec.acc, t.dec.nbits, t.dec.prevV))
      = some (0x10, 5, false) := by decide
/-- R128: `W 0x10 1` while BUSY = 1 sets WBUSY and changes nothing. -/
theorem test_step_busy_write :
    (nextOf (step (scripted [.access (.wr 0x10 1)] (decoding dec0)))).map (fun t => (t.status.wbusy, t.regs.inLen)) = some (true, 7) := by
  decide
/-- R260: reset. -/
theorem test_step_reset : (nextOf (step (scripted [.reset] (decoding dec0)))).map (fun t => (t.status.word 0, t.regs.inLen)) = some (0, 0) := by
  decide
/-- R101: START and ACK are the bus writes the notation gives. -/
theorem test_start_ack :
    HostMove.start .decodeComposite = .access ⟨.write, 0x00, 4, 3⟩ ∧ HostMove.ack = .access ⟨.write, 0x04, 4, 0x12⟩ := by decide

/-! ## Witnesses: for every obligation with hypotheses, states and operands that meet them, at the boundary of each clause -/

/-- MCS = 8 at width 9, at its start. -/
def c8 : Ctx := ⟨256, 257, 258, true, 9, 255, false, 0, 256⟩

/-- MCS = 8 with the last entry still to define, width 12. -/
def c12 : Ctx := ⟨256, 257, 4095, true, 12, 0, false, 0, 256⟩

theorem witness_DecodeOfEncodeIsTheInstruction :
    [(c8, Instr.clear 256), (c8, .endCode 257), (c0, .range 7), (c0, .first 6), (c12, .defined 4094), (c12, .kwkwk 4095),
      (c0, .wr 0xFC 1), (c0, .rd 0xFC), (c0, .badCmd 0), (c12, .blockHeader 255), (c8, .dataByte 255), (c0, .transparent 2),
      (c0, .ctRange 4), (c8, .write 255)].all (fun p => p.2.wellFormed && p.2.fits p.1) = true := by decide

theorem witness_EveryCodeFallsInExactlyOneClass :
    ([true].length = (Ctx.mk 1 2 3 false 1 0 false 0 0).csize ∧ 1 ≤ (Ctx.mk 1 2 3 false 1 0 false 0 0).csize) ∧
    (List.replicate 12 true).length = c12.csize ∧ 1 ≤ c12.csize ∧ c12.csize ≤ 12 := by decide

theorem witness_EveryCodeFallsInExactlyOneClass_unique :
    (Instr.kwkwk 6).fits c1 = true ∧ encode c1 (.kwkwk 6) = .code [false, true, true] := by decide

theorem witness_EveryIndexByteFallsInExactlyOneClass :
    (c0.ten = true ∧ (2 : Byte) = c0.tindex) ∧
    (¬ (c0.ten = true ∧ (4 : Byte) = c0.tindex) ∧ c0.ctLen ≤ (4 : Byte).toNat) ∧
    (¬ (c0.ten = true ∧ (3 : Byte) = c0.tindex) ∧ (3 : Byte).toNat < c0.ctLen) ∧
    (Instr.write 3).fits c0 = true ∧ encode c0 (.write 3) = .index 3 := by decide

theorem witness_DecodedInstructionsAreWellFormed :
    decode c8 (.code [false, false, false, false, false, false, false, false, true]) = .ok (.clear 256) ∧ c8.legal = true ∧
    decode c8 (.bus ⟨.read, 0xFC, 4, 0⟩) = .ok (.rd 0xFC) ∧
    ∀ o n d, Raw.bus ⟨.read, 0xFC, 4, 0⟩ = .bus ⟨.read, o, n, d⟩ → d = 0 := by
  refine ⟨rfl, by decide, rfl, fun o n d h => ?_⟩
  injection h with h
  injection h with _ _ _ h
  exact h.symm

theorem witness_MisshapenRegisterAccessesAreRefused :
    (scripted [.access ⟨.write, 0x10, 3, 0⟩] idle0).env.host = .access ⟨.write, 0x10, 3, 0⟩ :: [] ∧ 3 ≠ 4 ∧
    (scripted [.access ⟨.read, 0xFD, 4, 0⟩] idle0).env.host = .access ⟨.read, 0xFD, 4, 0⟩ :: [] ∧ 0xFD % 4 ≠ 0 ∧
    (scripted [.access ⟨.read, 0x100, 4, 0⟩] idle0).env.host = .access ⟨.read, 0x100, 4, 0⟩ :: [] ∧ 0xFC < 0x100 ∧
    (1 : BitVec 8).toNat % 4 ≠ 0 := by decide

theorem witness_StepRunsTheHostsAccess :
    ((scripted [.access ⟨.write, 0, 4, 3⟩] idle0).env.host = [.access ⟨.write, 0, 4, 3⟩] ∧ idle0.status.busy = false ∧
      decode idle0.ctx (.cmd 3) = .ok .decodeComposite) ∧
    ((decoding dec0).status.busy = true ∧ decode (decoding dec0).ctx (.bus ⟨.write, 0, 4, 3⟩) = .ok (.wr 0 3)) ∧
    ((BusAccess.rd 0).dir = .read ∧ decode idle0.ctx (.bus (.rd 0)) = .ok (.rd 0)) ∧
    ((BusAccess.wr 0xFC 1).offset ≠ 0 ∧ decode idle0.ctx (.bus (.wr 0xFC 1)) = .ok (.wr 0xFC 1)) := by
  refine ⟨⟨?_, ?_, rfl⟩, ⟨?_, rfl⟩, ⟨?_, rfl⟩, ⟨?_, rfl⟩⟩ <;> decide

/-- A decoder with a 12-bit code in its accumulator, one byte still to write. -/
def dec12 : Decoder :=
  { dec5 with csize := 12, mask := 4095, avail := 4095, acc := 0xFFF, nbits := 12, ocnt := 14 }

theorem witness_StepRunsTheNextCode :
    SequencerTurn (decoding dec12) (decoding dec12) ∧ (decoding dec12).seq = .decode ∧ dec12.ocnt.toNat < dec12.npix.toNat ∧
    dec12.csize.toNat ≤ dec12.nbits.toNat ∧ 1 ≤ dec12.csize.toNat ∧ dec12.csize.toNat ≤ 12 ∧
    classifyCode (decoding dec12).ctx (BitVec.ofNat 12 (dec12.acc.toNat % 2 ^ dec12.csize.toNat)) = .kwkwk 4095 := by
  refine ⟨.inl ⟨rfl, rfl⟩, ?_⟩
  decide

/-- A decoder that needs a byte: the last of IN, in a new sub-block or in one with 255 bytes left. -/
def decRefill (brem : Byte) : Decoder := { dec0 with nbits := 2, acc := 1, ocnt := 14, ipos := 6, brem := brem }

theorem witness_StepFetchesTheByteRefillNeeds :
    let s := decoding (decRefill 0);
    SequencerTurn s s ∧ s.seq = .decode ∧ s.dec.ocnt.toNat < s.dec.npix.toNat ∧ s.dec.nbits.toNat < s.dec.csize.toNat ∧
      s.dec.ipos.toNat < s.regs.inLen.toNat ∧ (decRefill 0).brem = 0 ∧ (decRefill 255).brem ≠ 0 := by
  refine ⟨.inl ⟨rfl, rfl⟩, ?_⟩
  decide

theorem witness_StepTakesTheNextIndexByte :
    SequencerTurn (scripted [.tick] (compositing regs0 3 2)) (compositing regs0 3 2) ∧
    (scripted [.tick] (compositing regs0 3 2)).seq = .composite ∧
    (compositing regs0 3 2).cmp.cpos.toNat < regs0.frameW.toNat * regs0.frameH.toNat := by
  refine ⟨.inr ⟨[], rfl, rfl⟩, ?_⟩
  decide

theorem witness_PhasesEndAtTheLoopTop :
    (let s := decoding { dec0 with ocnt := 15 };
      SequencerTurn s s ∧ s.seq = .decode ∧ s.op = .decode ∧ s.dec.npix.toNat ≤ s.dec.ocnt.toNat) ∧
    (let s := decoding { dec0 with ocnt := 14, nbits := 2 };
      SequencerTurn s s ∧ s.seq = .decode ∧ s.op = .decode ∧ s.dec.ocnt.toNat < s.dec.npix.toNat ∧
      s.dec.nbits.toNat < s.dec.csize.toNat ∧ s.regs.inLen.toNat ≤ s.dec.ipos.toNat) ∧
    (let s := compositing regs0 4 3;
      SequencerTurn s s ∧ s.seq = .composite ∧ s.regs.frameW.toNat * s.regs.frameH.toNat ≤ s.cmp.cpos.toNat ∧ s.controlOk) := by
  refine ⟨⟨.inl ⟨rfl, rfl⟩, ?_⟩, ⟨.inl ⟨rfl, rfl⟩, ?_⟩, .inl ⟨rfl, rfl⟩, ?_⟩ <;> decide

theorem witness_IdleBlockWaits :
    (SequencerTurn State.reset State.reset ∧ State.reset.seq = .idle) ∧
    SequencerTurn (scripted [.tick] idle0) idle0 ∧ (scripted [.tick] idle0).seq = .idle := by
  refine ⟨⟨.inl ⟨rfl, rfl⟩, rfl⟩, .inr ⟨[], rfl, rfl⟩, rfl⟩

theorem witness_WaitPollsStatus :
    (let s := scripted [.wait] { idle0 with status := ⟨false, true, false, .count, .none⟩ };
      s.env.host = .wait :: [] ∧ s.status.busy = false ∧ s.status.done = true) ∧
    ((scripted [.wait] (decoding dec0)).env.host = .wait :: [] ∧ (scripted [.wait] (decoding dec0)).status.busy = true) ∧
    (scripted [.wait] idle0).env.host = .wait :: [] ∧ (scripted [.wait] idle0).status.done = false := by decide

/-- `idle0` with the largest legal minimum code size. -/
def idleMcs8 : State := { idle0 with buf := { idle0.buf with inp := [(0, 8), (1, 1)] } }

/-- `idle0` with the smallest illegal one. -/
def idleMcs9 : State := { idle0 with buf := { idle0.buf with inp := [(0, 9), (1, 1)] } }

theorem witness_DecodeStartsTheDecoder :
    idleMcs8.status.busy = false ∧ idleMcs8.regs.pixelCount.toNat ≤ idleMcs8.regs.idxLen.toNat ∧ idleMcs8.regs.inLen ≠ 0 ∧
    (Memory.read idleMcs8.buf.inp 0).toNat ≤ 8 := by decide

theorem witness_DecodeChecksBeforeItDecodes :
    ((idleWith { regs0 with idxLen := 14 }).status.busy = false ∧
      (idleWith { regs0 with idxLen := 14 }).regs.idxLen.toNat < (idleWith { regs0 with idxLen := 14 }).regs.pixelCount.toNat) ∧
    ((idleWith { regs0 with inLen := 0 }).regs.pixelCount.toNat ≤ (idleWith { regs0 with inLen := 0 }).regs.idxLen.toNat ∧
      (idleWith { regs0 with inLen := 0 }).regs.inLen = 0) ∧
    idleMcs9.regs.pixelCount.toNat ≤ idleMcs9.regs.idxLen.toNat ∧ idleMcs9.regs.inLen ≠ 0 ∧
      8 < (Memory.read idleMcs9.buf.inp 0).toNat := by decide

/-- CV5c: the largest destination offset is the last word of the canvas; IDX holds exactly the frame. -/
def regsCV5c : Regs := { regs0 with offX := 2, idxLen := 4 }

theorem witness_CompositeStartsTheWalk :
    (idleWith regsCV5c).status.busy = false ∧ regsCV5c.frameW.toNat * regsCV5c.frameH.toNat ≤ regsCV5c.idxLen.toNat ∧
    regsCV5c.geometryOk = true := by decide

theorem witness_DecodeCompositeStartsTheDecoder :
    idleMcs8.status.busy = false ∧ idleMcs8.regs.frameW.toNat * idleMcs8.regs.frameH.toNat ≤ idleMcs8.regs.idxLen.toNat ∧
    idleMcs8.regs.geometryOk = true ∧ idleMcs8.regs.inLen ≠ 0 ∧ (Memory.read idleMcs8.buf.inp 0).toNat ≤ 8 := by decide

theorem witness_CompositingCommandsCheckBeforeAnyAccess :
    ((idleWith { regs0 with idxLen := 3 }).status.busy = false ∧ (Instr.composite = .composite ∨ Instr.composite = .decodeComposite) ∧
      (3 : Word).toNat < regs0.frameW.toNat * regs0.frameH.toNat) ∧
    (Instr.decodeComposite = .composite ∨ Instr.decodeComposite = .decodeComposite) ∧
      regs0.frameW.toNat * regs0.frameH.toNat ≤ regs0.idxLen.toNat ∧ ({ regs0 with offX := 3 } : Regs).geometryOk = false := by decide

theorem witness_DecodeCompositeWithoutAStream :
    ((idleWith { regsCV5c with inLen := 0 }).status.busy = false ∧ regsCV5c.frameW.toNat * regsCV5c.frameH.toNat ≤ regsCV5c.idxLen.toNat ∧
      regsCV5c.geometryOk = true ∧ ({ regsCV5c with inLen := 0 } : Regs).inLen = 0) ∧
    idleMcs9.regs.geometryOk = true ∧ idleMcs9.regs.inLen ≠ 0 ∧ 8 < (Memory.read idleMcs9.buf.inp 0).toNat := by decide

theorem witness_ReservedCommandWordEndsAtOnce :
    idle0.status.busy = false ∧ idle0.status.wbusy = false ∧ (0 : Word) ≠ 1 ∧ (0 : Word) ≠ 2 ∧ (0 : Word) ≠ 3 ∧ (4 : Word) ≠ 1 ∧
    (4 : Word) ≠ 2 ∧ (4 : Word) ≠ 3 := by decide

/-- A running decode with WBUSY set. -/
def turnedAway : State := { decoding dec0 with status := ⟨true, false, true, .none, .none⟩ }

theorem witness_WritesWhileBusyAreTurnedAway :
    ((decoding dec0).status.busy = true ∧ (0x34 : BitVec 8).toNat % 4 = 0 ∧ (0x34 : BitVec 8).toNat ≤ 0x34 ∧ (0x34 : BitVec 8) ≠ 4 ∧
      (0 : BitVec 8) ≠ 4) ∧
    ∃ t, exec (.wr 4 0x10) turnedAway = .next t ∧ turnedAway.status.wbusy = true ∧ t.status.wbusy = false :=
  ⟨by decide, _, rfl, by decide, by decide⟩

theorem witness_CmdRegisterWriteIsTheCommand : decode idle0.ctx (.cmd 3) = .ok .decodeComposite ∧ decode idle0.ctx (.cmd 4) = .ok (.badCmd 4) :=
  ⟨rfl, rfl⟩

theorem witness_ConfigWriteStoresTheLegalValue :
    idle0.status.busy = false ∧ (8 : BitVec 8).toNat % 4 = 0 ∧ 8 ≤ (8 : BitVec 8).toNat ∧ (0x34 : BitVec 8).toNat % 4 = 0 ∧
    (0x34 : BitVec 8).toNat ≤ 0x34 ∧ RegName.status ≠ regAt 8 := by decide

theorem witness_ReservedOffsetsReadZeroAndIgnoreWrites :
    (0x38 : BitVec 8).toNat % 4 = 0 ∧ 0x38 ≤ (0x38 : BitVec 8).toNat ∧ (0x48 : BitVec 8).toNat % 4 = 0 ∧ 0x48 ≤ (0x48 : BitVec 8).toNat ∧
    (0xFC : BitVec 8).toNat % 4 = 0 := by decide

theorem witness_StatusWriteClearsWhatItNames : (0x12 : Word).getLsbD 1 = true := by decide

theorem witness_IdleReadReturnsTheRegister : idle0.status.busy = false := by decide

/-- R121's corner case: IN_LEN reads back while BUSY = 1, and so does CMD as 0. -/
theorem test_RD_config_while_busy :
    (nextOf (exec (.rd 0x10) (decoding dec0))).map (fun t => t.env.rdata) = some 7 ∧
    (nextOf (exec (.rd 0x00) (decoding dec0))).map (fun t => t.env.rdata) = some 0 := by decide

theorem witness_ReadHasNoSideEffect : (0xFC : BitVec 8).toNat % 4 = 0 ∧ (0 : BitVec 8).toNat % 4 = 0 := by decide

theorem witness_BusyStatusReadShowsItsValidBits : (decoding dec0).status.busy = true := by decide

theorem witness_EveryRegisterReadsZeroAfterReset : (0x44 : BitVec 8).toNat % 4 = 0 := by decide

theorem witness_ResetEventClearsTheBlock :
    (scripted [.reset] (decoding dec0)).env.host = .reset :: [] ∧ (scripted [.reset] idle0).env.host = .reset :: [] := by decide

/-- MCS = 8. -/
def dec8 : Decoder := { dec0 with mcs := 8, clear := 256, endCode := 257, csize := 12, mask := 4095, avail := 4096, prevV := true }

theorem witness_ClearCodeRestartsTheWidth :
    decode (decoding dec0).ctx (.code [false, false, true]) = .ok (.clear 4) ∧ (decoding dec8).dec.mcs.toNat ≤ 8 ∧
    (decoding dec8).dec.clear.toNat = 2 ^ dec8.mcs.toNat := ⟨rfl, by decide⟩

theorem witness_EndAndRangeStopADecode : (decoding dec0).op = .decode := by decide

/-- The decode phase of a DECODE_COMPOSITE of CV5c's geometry. -/
def decodingComposite : State := { decoding { dec0 with npix := 4 } with op := .decodeComposite, regs := regsCV5c }

/-- `decodingComposite` with the decoder `d`, NPIX = 4. -/
def decodingCompositeWith (d : Decoder) : State := decodingComposite.withDec { d with npix := 4 }

theorem witness_StopGoesOnToTheCompositePhase :
    decodingComposite.op = .decodeComposite ∧
    decodingComposite.regs.frameW.toNat * decodingComposite.regs.frameH.toNat ≤ decodingComposite.regs.idxLen.toNat ∧
    decodingComposite.regs.geometryOk = true ∧ decodingComposite.regs.inLen.toNat ≤ decodingComposite.dec.ipos.toNat := by decide

theorem witness_StopGoesOnToTheCompositePhase_byte :
    let s := decodingCompositeWith { dec0 with ipos := 6 };
    s.op = .decodeComposite ∧ s.regs.frameW.toNat * s.regs.frameH.toNat ≤ s.regs.idxLen.toNat ∧ s.regs.geometryOk = true ∧
      s.dec.ipos.toNat < s.regs.inLen.toNat := by decide

theorem witness_StopGoesOnToTheCompositePhase_loop_top :
    (let s := decodingCompositeWith { dec0 with ocnt := 4 };
      SequencerTurn s s ∧ s.op = .decodeComposite ∧ s.regs.frameW.toNat * s.regs.frameH.toNat ≤ s.regs.idxLen.toNat ∧
      s.regs.geometryOk = true ∧ s.seq = .decode ∧ s.dec.npix.toNat ≤ s.dec.ocnt.toNat) ∧
    (let s := decodingCompositeWith { dec0 with ocnt := 3, nbits := 2 };
      SequencerTurn s s ∧ s.seq = .decode ∧ s.dec.ocnt.toNat < s.dec.npix.toNat ∧ s.dec.nbits.toNat < s.dec.csize.toNat ∧
      s.regs.inLen.toNat ≤ s.dec.ipos.toNat) := by
  refine ⟨⟨.inl ⟨rfl, rfl⟩, ?_⟩, .inl ⟨rfl, rfl⟩, ?_⟩ <;> decide

theorem witness_FirstCodeEmitsItsSuffix :
    let s := decoding { dec0 with ocnt := 14 };
    decode s.ctx (.code [false, true, true]) = .ok (.first 6) ∧ Memory.wf s.buf.idx ∧ s.dec.ocnt.toNat < s.dec.npix.toNat :=
  ⟨rfl, by decide⟩

theorem spells_dec5 : Spells dec5 6 [0, 2] :=
  Spells.entry 6 [0] (by decide) (Spells.root 0 (by decide))

theorem witness_DefinedCodeEmitsItsString :
    let s := decoding { dec5 with ocnt := 12 };
    Memory.wf s.buf.idx ∧ Memory.wf s.dec.stack ∧ Spells s.dec 6 [0, 2] ∧ [(0 : Byte), 2].length ≤ 4098 ∧
      s.dec.ocnt.toNat + [(0 : Byte), 2].length < s.dec.npix.toNat :=
  ⟨by decide, by decide, Spells.entry 6 [0] (by decide) (Spells.root 0 (by decide)), by decide, by decide⟩

theorem witness_KwkwkCodeEmitsPrevAndFirst :
    let s := decoding { dec4 with ocnt := 12 };
    Memory.wf s.buf.idx ∧ Memory.wf s.dec.stack ∧ Spells s.dec s.dec.prev [2] ∧ [(2 : Byte)].length ≤ 4097 ∧
      s.dec.ocnt.toNat + [(2 : Byte)].length + 1 < s.dec.npix.toNat :=
  ⟨by decide, by decide, Spells.root 2 (by decide), by decide, by decide⟩

theorem witness_CountStopCutsAnExpansion :
    (let s := decoding { dec5 with ocnt := 14 };
      Memory.wf s.buf.idx ∧ Memory.wf s.dec.stack ∧ s.op = .decode ∧ s.dec.ocnt.toNat < s.dec.npix.toNat ∧ Spells s.dec 6 [0, 2] ∧
      [(0 : Byte), 2].length ≤ 4098 ∧ s.dec.npix.toNat ≤ s.dec.ocnt.toNat + [(0 : Byte), 2].length) ∧
    (let s := decoding dec10;
      Spells s.dec s.dec.prev [1, 1] ∧ [(1 : Byte), 1].length ≤ 4097 ∧
      s.dec.npix.toNat ≤ s.dec.ocnt.toNat + [(1 : Byte), 1].length + 1) :=
  ⟨⟨by decide, by decide, by decide, by decide, Spells.entry 6 [0] (by decide) (Spells.root 0 (by decide)), by decide, by decide⟩,
    Spells.entry 12 [1] (by decide) (Spells.root 1 (by decide)), by decide, by decide⟩

/-- Vector DV13b: the chain of the self-reference 6 = (6, 0) reaches no root. -/
theorem loop_spells_nothing (d : Decoder) (h : d.clear.toNat ≤ 6) (hp : d.prefixAt 6 = 6) (bs : List Byte) : ¬ Spells d 6 bs := by
  intro hs
  generalize hc : (6 : BitVec 12) = c at hs
  induction hs with
  | root c h' => subst hc; exact absurd h' (Nat.not_lt.mpr h)
  | entry c bs _ _ ih => subst hc; exact ih hp.symm

theorem witness_UnendingWalkOverflowsTheStack :
    (decoding decLoop).op = .decode ∧ (∀ bs, Spells (decoding decLoop).dec 6 bs → 4098 < bs.length) ∧
    (decoding { decLoop with prev := 6 }).op = .decode ∧
    ∀ bs, Spells (decoding { decLoop with prev := 6 }).dec (decoding { decLoop with prev := 6 }).dec.prev bs → 4097 < bs.length :=
  ⟨by decide, fun bs h => absurd h (loop_spells_nothing _ (by decide) (by decide) bs), by decide,
    fun bs h => absurd h (loop_spells_nothing _ (by decide) (by decide) bs)⟩

theorem witness_StopGoesOnToTheCompositePhase_overflow :
    let s := decodingCompositeWith { decLoop with prev := 6 };
    s.op = .decodeComposite ∧ s.regs.frameW.toNat * s.regs.frameH.toNat ≤ s.regs.idxLen.toNat ∧ s.regs.geometryOk = true ∧
      (∀ bs, Spells s.dec 6 bs → 4098 < bs.length) ∧ ∀ bs, Spells s.dec s.dec.prev bs → 4097 < bs.length :=
  ⟨by decide, by decide, by decide, fun bs h => absurd h (loop_spells_nothing _ (by decide) (by decide) bs),
    fun bs h => absurd h (loop_spells_nothing _ (by decide) (by decide) bs)⟩

theorem witness_StopGoesOnToTheCompositePhase_count :
    (let s := decodingCompositeWith { dec5 with ocnt := 3 };
      s.op = .decodeComposite ∧ s.regs.frameW.toNat * s.regs.frameH.toNat ≤ s.regs.idxLen.toNat ∧ s.regs.geometryOk = true ∧
      Memory.wf s.buf.idx ∧ Memory.wf s.dec.stack ∧ s.dec.ocnt.toNat < s.dec.npix.toNat ∧ Spells s.dec 6 [0, 2] ∧
      [(0 : Byte), 2].length ≤ 4098 ∧ s.dec.npix.toNat ≤ s.dec.ocnt.toNat + [(0 : Byte), 2].length) ∧
    (let s := decodingCompositeWith { dec4 with ocnt := 2 };
      Memory.wf s.buf.idx ∧ Memory.wf s.dec.stack ∧ s.dec.ocnt.toNat < s.dec.npix.toNat ∧ Spells s.dec s.dec.prev [2] ∧
      [(2 : Byte)].length ≤ 4097 ∧ s.dec.npix.toNat ≤ s.dec.ocnt.toNat + [(2 : Byte)].length + 1) :=
  ⟨⟨by decide, by decide, by decide, by decide, by decide, by decide, Spells.entry 6 [0] (by decide) (Spells.root 0 (by decide)),
    by decide, by decide⟩, by decide, by decide, by decide, Spells.root 2 (by decide), by decide, by decide⟩

/-- The width grows at AVAIL = MASK (DV1's code 4, a KWKWK) and stays where AVAIL + 1 = 4096. -/
theorem witness_CodeWidthGrowsAtTheMask :
    (let s := decoding { dec4 with ocnt := 12 };
      Memory.wf s.dec.stack ∧ s.dec.avail.toNat < 4096 ∧ s.dec.csize.toNat ≤ 12 ∧ s.dec.mask.toNat = 2 ^ s.dec.csize.toNat - 1 ∧
      s.dec.mask.toNat < s.dec.avail.toNat + 1 ∧ Spells s.dec 1 [1] ∧ [(1 : Byte)].length ≤ 4098 ∧
      s.dec.ocnt.toNat + [(1 : Byte)].length < s.dec.npix.toNat ∧ Spells s.dec s.dec.prev [2] ∧ [(2 : Byte)].length ≤ 4097 ∧
      s.dec.ocnt.toNat + [(2 : Byte)].length + 1 < s.dec.npix.toNat) ∧
    (let s := decoding { dec8 with clear := 4, avail := 4095 };
      s.dec.avail.toNat < 4096 ∧ s.dec.csize.toNat ≤ 12 ∧ s.dec.mask.toNat = 2 ^ s.dec.csize.toNat - 1) :=
  ⟨⟨by decide, by decide, by decide, by decide, by decide, Spells.root 1 (by decide), by decide, by decide, Spells.root 2 (by decide),
    by decide, by decide⟩, by decide⟩

theorem witness_FullTableIsFrozen :
    (decoding dec8).dec.avail.toNat = 4096 ∧ ∃ t, exec (.first 3) (decoding dec8) = .next t := ⟨by decide, _, rfl⟩

theorem witness_LengthByteOpensASubBlock :
    ((decoding (decRefill 0)).dec.ipos.toNat < (decoding (decRefill 0)).regs.inLen.toNat ∧ (255 : Byte) ≠ 0 ∧ (1 : Byte) ≠ 0 ∧
      (decoding (decRefill 0)).op = .decode) ∧
    (decoding dec0).regs.inLen.toNat ≤ (decoding dec0).dec.ipos.toNat ∧ (decoding dec0).op = .decode := by decide

theorem witness_DataByteGoesAboveTheBufferedBits :
    (let s := decoding { dec0 with ipos := 6, brem := 1, nbits := 11, acc := 0x7FF };
      s.dec.ipos.toNat < s.regs.inLen.toNat ∧ s.dec.brem ≠ 0 ∧ s.dec.nbits.toNat ≤ 11 ∧ s.dec.acc.toNat < 2 ^ s.dec.nbits.toNat) ∧
    (decoding dec0).regs.inLen.toNat ≤ (decoding dec0).dec.ipos.toNat ∧ (decoding dec0).op = .decode := by decide

theorem witness_TransparentIndexWritesNothing : (compositing regs0 0xFFFFFFFE 2).cmp.cpos.toNat + 1 < 2 ^ 32 := by decide

theorem witness_OpaqueIndexCopiesTheColor :
    let s := compositing regs0 0xFFFFFFFE 0xFFFFFFFE;
    Memory.wf s.buf.pix ∧ s.cmp.cpos.toNat + 1 < 2 ^ 32 ∧ s.cmp.pwr.toNat + 1 < 2 ^ 32 := by decide

theorem witness_IndexBeyondTheTableEndsTheCommand :
    decode (compositing regs0 2 2).ctx (.index 4) = .ok (.ctRange 4) ∧ (compositing { regs0 with ctLen := 256 } 2 2).regs.ctLen.toNat = 256 :=
  ⟨rfl, by decide⟩

theorem witness_InterlacedRowsAreAPermutation :
    regsCV2.interlaced = true ∧ 8 * 2 < 17 ∧ 8 * 1 + 4 < 17 ∧ 4 * 3 + 2 < 17 ∧ 2 * 7 + 1 < 17 ∧ 16 < 17 ∧ 8 * 0 < 1 := by decide

theorem witness_GeometryCheckIsExact :
    3 < regsCV5c.frameW.toNat * regsCV5c.frameH.toNat ∧ regsCV5c.geometryOk = true ∧ regsCV5c.destOf 3 + 1 = regsCV5c.canvas := by decide

theorem witness_StepKeepsTheArraysInRange : (decoding dec0).arraysOk ∧ ∃ t, step (decoding dec0) = .next t := ⟨by decide, _, rfl⟩

theorem witness_StepKeepsTheSequencerConsistent :
    (decoding dec0).controlOk ∧ (compositing regs0 0 0).controlOk ∧ ∃ t, step (decoding dec0) = .next t := ⟨by decide, by decide, _, rfl⟩

theorem inv_decoding : (decoding { dec5 with acc := 6, nbits := 4 }).Inv := ⟨by decide, by decide, by decide, by decide, by decide⟩

theorem inv_compositing : (compositing regs0 0 0).Inv := ⟨by decide, by decide, by decide, by decide, by decide⟩

theorem witness_StepKeepsTheInvariant :
    ((decoding { dec5 with acc := 6, nbits := 4 }).Inv ∧ ∃ t, step (decoding { dec5 with acc := 6, nbits := 4 }) = .next t) ∧
    (compositing regs0 0 0).Inv ∧ ∃ t, step (compositing regs0 0 0) = .next t :=
  ⟨⟨inv_decoding, _, rfl⟩, inv_compositing, _, rfl⟩

theorem witness_ConfigurationChangesOnlyByTheHost :
    ∃ t, step (scripted [.access (.wr 0x34 7)] idle0) = .next t ∧ t.regs ≠ (scripted [.access (.wr 0x34 7)] idle0).regs :=
  ⟨_, rfl, by decide⟩

theorem witness_BlockNeverWritesItsInputs :
    (∃ t, step (compositing regs0 0 0) = .next t) ∧ ∀ sp k v rest, (compositing regs0 0 0).env.host ≠ .put sp k v :: rest :=
  ⟨⟨_, rfl⟩, fun _ _ _ _ h => by cases h⟩

/-- A busy block steps; a put to IN at its last unit, and one to PIX[5], CV1's position 0, meet the hypotheses of the refusal. -/
theorem witness_BlockNeverWritesItsInputs_busy :
    ((∃ t, step (decoding dec0) = .next t) ∧ (decoding dec0).status.busy = true) ∧
    ((scripted [.put .inp 0xFFFFFFFE 0] (decoding dec0)).env.host = .put .inp 0xFFFFFFFE 0 :: [] ∧ 0xFFFFFFFE < Space.inp.limit) ∧
    (let s := scripted [.put .pix 5 0] (compositing regs0 0 0);
      s.env.host = .put .pix 5 0 :: [] ∧ s.status.busy = true ∧ 5 < Space.pix.limit ∧ s.op ≠ .decode ∧
      0 < s.regs.frameW.toNat * s.regs.frameH.toNat ∧ 5 = s.regs.destOf 0) :=
  ⟨⟨⟨_, rfl⟩, rfl⟩, by decide, by decide⟩

theorem witness_NoWriteLeavesABuffer :
    (∃ t, (decoding { dec5 with acc := 6, nbits := 4 }).Inv ∧ step (decoding { dec5 with acc := 6, nbits := 4 }) = .next t ∧
      Memory.read t.buf.idx 5 ≠ Memory.read idx0 5) ∧
    ∃ t, (compositing regs0 0 0).Inv ∧ step (compositing regs0 0 0) = .next t ∧
      Memory.readWord t.buf.pix 5 ≠ Memory.readWord (compositing regs0 0 0).buf.pix 5 :=
  ⟨⟨_, inv_decoding, rfl, by decide⟩, _, inv_compositing, rfl, by decide⟩

/-- `compositing regs0 0 0` over another PIX. -/
def otherPix : State := { compositing regs0 0 0 with buf := { idle0.buf with pix := [(20, 0x78), (40, 0x12)] } }

theorem witness_PixIsWriteOnly :
    (∀ k rest, (compositing regs0 0 0).env.host ≠ .get .pix k :: rest) ∧ (∀ rest, (compositing regs0 0 0).env.host ≠ .reset :: rest) ∧
    Memory.wf (compositing regs0 0 0).buf.pix ∧ Memory.wf otherPix.buf.pix ∧ (compositing regs0 0 0).erasePix = otherPix.erasePix ∧
    otherPix.buf.pix ≠ (compositing regs0 0 0).buf.pix ∧ ∃ t, step (compositing regs0 0 0) = .next t :=
  ⟨fun _ _ h => (by cases h), fun _ h => (by cases h), by decide, by decide, rfl, by decide, _, rfl⟩

theorem witness_EveryCommandEnds :
    (decoding { dec5 with acc := 6, nbits := 4 }).Inv ∧ (decoding { dec5 with acc := 6, nbits := 4 }).env.host = [] ∧
    (decoding { dec5 with acc := 6, nbits := 4 }).status.busy = true := ⟨inv_decoding, rfl, rfl⟩

theorem witness_EveryEndRaisesTheInterrupt :
    ∃ t, exec (.endCode 5) (decoding dec0) = .next t ∧ (decoding dec0).status.busy = true ∧ t.status.busy = false ∧
      (decoding dec0).status.done = false ∧ t.status.done = true := ⟨_, rfl, by decide, by decide, by decide, by decide⟩

/-- The ends that run no instruction: COUNT and IN_EXHAUSTED at the loop top, and the normal end of a composite. -/
theorem witness_EveryEndRaisesTheInterrupt_step :
    ∀ s ∈ [decoding { dec0 with ocnt := 15 }, decoding { dec0 with nbits := 2 }, compositing regs0 4 3],
      (∃ t, step s = .next t ∧ s.status.busy = true ∧ t.status.busy = false ∧ s.status.done = false ∧ t.status.done = true) ∧
        ∀ rest, s.env.host ≠ .reset :: rest := by
  intro s hs
  simp only [List.mem_cons, List.not_mem_nil, or_false] at hs
  rcases hs with rfl | rfl | rfl <;> exact ⟨⟨_, rfl, rfl, rfl, rfl, rfl⟩, fun _ h => by cases h⟩

theorem witness_NoInstructionTraps :
    (Instr.wr 0xFC 0).wellFormed = true ∧ (Instr.kwkwk 4095).wellFormed = true ∧ (Instr.endCode 257).wellFormed = true := by decide

/-- A decode one code before COUNT: its code 6 emits 0 2 (at IDX[13..14]) and ends the command in the same step. -/
def aboutToEnd : State :=
  (decoding { dec5 with ocnt := 13, acc := 6, nbits := 4 }).withEnv { State.reset.env with idxLog := [(12, 7)] }

/-- A busy abort with a log: the completed command has logged the earlier write and both bytes of its last expansion. -/
theorem witness_ResetKeepsOrUndoesTheWritesOfACommand :
    (scripted [.reset] aboutToEnd).env.host = .reset :: [] ∧ aboutToEnd.status.busy = true ∧ aboutToEnd.arraysOk ∧
    (completed aboutToEnd).env.idxLog = [(14, 0), (13, 0), (12, 7)] ∧ (completed aboutToEnd).status.busy = false ∧
    Memory.read (completed aboutToEnd).buf.idx 14 = 2 ∧ (scripted [.reset] idle0).status.busy = false := by decide

/-- A composite aborted at its start: the words still to write are in the log of the completed command (CV1). -/
theorem witness_ResetKeepsOrUndoesTheWritesOfACommand_pix :
    (compositing regs0 0 0).arraysOk ∧ (completed (compositing regs0 0 0)).env.pixLog = [(10, 0), (6, 0), (5, 0)] := by decide

/-- The three commands start on an idle block that still lists an old write; a step of the sequencer adds to the log. -/
theorem witness_ResetKeepsOrUndoesTheWritesOfACommand_log :
    (let s := idle0.withEnv { idle0.env with idxLog := [(12, 7)] };
      s.status.busy = false ∧ (∃ t, exec .decode s = .next t) ∧ (∃ t, exec .composite s = .next t) ∧
        ∃ t, exec .decodeComposite s = .next t) ∧
    aboutToEnd.arraysOk ∧ SequencerTurn aboutToEnd aboutToEnd ∧
      ∃ t, step aboutToEnd = .next t ∧ t.env.idxLog = (14, 0) :: (13, 0) :: aboutToEnd.env.idxLog :=
  ⟨⟨rfl, ⟨_, rfl⟩, ⟨_, rfl⟩, _, rfl⟩, by decide, .inl ⟨rfl, rfl⟩, _, rfl, by decide⟩

end Sys2Proof.Tests
end

section
/-! Accesses to the registers that no write changes (10_state.md R34 to R38, 40_commands.md R120), and to the reserved offsets. -/

namespace Sys2Proof.Machine

/-! ## Aligned accesses -/

theorem misaligned_eq_false {off : BitVec 8} (ha : off.toNat % 4 = 0) : misaligned off = false := by simp [misaligned, ha]

/-- The converse of `write_ends` (R68, R120). -/
theorem exec_wr_aligned {off : BitVec 8} (ha : off.toNat % 4 = 0) (d : Word) (s : State) :
    exec (.wr off d) s = .next (writeRegister (regAt off) d s) := by
  simp [exec, execWr, misaligned_eq_false ha]

/-- R121; `read_ends` does not say which value. -/
theorem exec_rd_aligned {off : BitVec 8} (ha : off.toNat % 4 = 0) (s : State) :
    exec (.rd off) s = .next (answerRead (readRegister (regAt off) s) s) := by
  simp [exec, execRd, misaligned_eq_false ha]

@[simp] theorem answerRead_rdata (v : Word) (s : State) : (answerRead v s).env.rdata = v := rfl

/-! ## Where the window ignores writes, and where it reads 0 -/

/-- A result register or a reserved word. -/
def RegName.isReadOnly : RegName → Bool
  | .outCount | .inPos | .cmpCount | .pixWritten | .reserved => true
  | _ => false

theorem writeRegister_readOnly {n : RegName} (hn : n.isReadOnly = true) (d : Word) (s : State) : writeRegister n d s = s := by
  cases n
  case outCount | inPos | cmpCount | pixWritten | reserved => rfl
  all_goals cases hn

/-- The map has 14 words below the result registers (R20). -/
theorem regAt_isReadOnly {off : BitVec 8} (h : 0x38 ≤ off.toNat) : (regAt off).isReadOnly = true := by
  obtain ⟨k, hk⟩ := Nat.exists_eq_add_of_le' (show 14 ≤ off.toNat / 4 by omega)
  rw [regAt, hk]
  rcases k with _ | _ | _ | _ | k <;> rfl

/-- The map has 18 words below the reserved ones (R20, R38). -/
theorem regAt_eq_reserved {off : BitVec 8} (h : 0x48 ≤ off.toNat) : regAt off = .reserved := by
  obtain ⟨k, hk⟩ := Nat.exists_eq_add_of_le' (show 18 ≤ off.toNat / 4 by omega)
  rw [regAt, hk]
  rfl

/-- Settles O25: from 0x38 on the window names only registers that ignore writes, from 0x48 on only reserved words, which read 0. -/
theorem reservedOffsetsReadZeroAndIgnoreWrites : Obligations.ReservedOffsetsReadZeroAndIgnoreWrites := by
  intro s off d ha
  constructor
  · intro hoff
    rw [exec_wr_aligned ha, writeRegister_readOnly (regAt_isReadOnly hoff)]
  · intro hoff
    have hread : readRegister (regAt off) s = 0 := by rw [regAt_eq_reserved hoff]; rfl
    exact ⟨_, exec_rd_aligned ha s, by rw [hread, answerRead_rdata]⟩

end Sys2Proof.Machine
end

section
/-! The classes of a code (30_encoding.md R94) and of an index byte (R98): the row that fits an operand is the one its classification
answers, and the encoder's word decodes to it again. -/

namespace Sys2Proof

/-- A word has the format of the instruction it encodes. -/
theorem encode_format (ctx : Ctx) (i : Instr) : (encode ctx i).format = i.format := by
  cases i <;> rfl

/-! ## Codes -/

theorem Ctx.holdsCode_iff {ctx : Ctx} {c : BitVec 12} :
    ctx.holdsCode c = true ↔ 1 ≤ ctx.csize ∧ ctx.csize ≤ 12 ∧ c.toNat < 2 ^ ctx.csize := by
  have hm : Config.maxCodeSize = 12 := rfl
  simp [Ctx.holdsCode, hm, and_assoc]

theorem Ctx.inTable_iff {ctx : Ctx} {c : BitVec 12} :
    ctx.inTable c = true ↔ c.toNat ≠ ctx.clear ∧ c.toNat ≠ ctx.endCode ∧ c.toNat ≤ ctx.avail := by
  simp [Ctx.inTable, and_assoc]

/-- The row a code is classified into is one that matches, whenever a field can hold the code. -/
theorem classifyCode_fits {ctx : Ctx} {c : BitVec 12} (hc : ctx.holdsCode c = true) : (classifyCode ctx c).fits ctx = true := by
  unfold classifyCode
  split
  case isTrue hclear => simp [Instr.fits, hc, hclear]
  split
  case isTrue hclear hend => simp [Instr.fits, hc, hend, hend ▸ hclear]
  split
  case isTrue hclear hend havail => simp [Instr.fits, hc, hclear, hend, havail]
  rename_i hclear hend havail
  have hin : ctx.inTable c = true := Ctx.inTable_iff.2 ⟨hclear, hend, Nat.le_of_not_lt havail⟩
  split
  case isTrue hprev => simp [Instr.fits, hc, hin, hprev]
  split
  case isTrue hprev hlt => simp [Instr.fits, hc, hin, hprev, hlt]
  case isFalse hprev hlt =>
    have heq : c.toNat = ctx.avail := by omega
    simp [Instr.fits, hc, hin, hprev, heq]

/-- A row of the code map that matches is the class of a code the field can hold: each row excludes the ones before it. -/
theorem eq_classifyCode_of_fits {ctx : Ctx} {i : Instr} (hf : i.format = .code) (h : i.fits ctx = true) :
    ∃ c, ctx.holdsCode c = true ∧ i = classifyCode ctx c := by
  cases i with
  | clear c =>
    obtain ⟨hc, hclear⟩ : ctx.holdsCode c = true ∧ c.toNat = ctx.clear := by simpa [Instr.fits] using h
    exact ⟨c, hc, by simp [classifyCode, hclear]⟩
  | endCode c =>
    obtain ⟨⟨hc, hclear⟩, hend⟩ : (ctx.holdsCode c = true ∧ c.toNat ≠ ctx.clear) ∧ c.toNat = ctx.endCode := by
      simpa [Instr.fits] using h
    exact ⟨c, hc, by rw [classifyCode, if_neg hclear, if_pos hend]⟩
  | range c =>
    obtain ⟨⟨⟨hc, hclear⟩, hend⟩, havail⟩ :
        ((ctx.holdsCode c = true ∧ c.toNat ≠ ctx.clear) ∧ c.toNat ≠ ctx.endCode) ∧ ctx.avail < c.toNat := by
      simpa [Instr.fits] using h
    exact ⟨c, hc, by rw [classifyCode, if_neg hclear, if_neg hend, if_pos havail]⟩
  | first c =>
    obtain ⟨⟨hc, hin⟩, hprev⟩ : (ctx.holdsCode c = true ∧ ctx.inTable c = true) ∧ ctx.prevV = false := by
      simpa [Instr.fits] using h
    obtain ⟨hclear, hend, havail⟩ := Ctx.inTable_iff.1 hin
    exact ⟨c, hc, by rw [classifyCode, if_neg hclear, if_neg hend, if_neg havail.not_gt, if_pos hprev]⟩
  | defined c =>
    obtain ⟨⟨⟨hc, hin⟩, hprev⟩, hlt⟩ :
        ((ctx.holdsCode c = true ∧ ctx.inTable c = true) ∧ ctx.prevV = true) ∧ c.toNat < ctx.avail := by
      simpa [Instr.fits] using h
    obtain ⟨hclear, hend, havail⟩ := Ctx.inTable_iff.1 hin
    exact ⟨c, hc, by rw [classifyCode, if_neg hclear, if_neg hend, if_neg havail.not_gt, if_neg (by simp [hprev]), if_pos hlt]⟩
  | kwkwk c =>
    obtain ⟨⟨⟨hc, hin⟩, hprev⟩, heq⟩ :
        ((ctx.holdsCode c = true ∧ ctx.inTable c = true) ∧ ctx.prevV = true) ∧ c.toNat = ctx.avail := by
      simpa [Instr.fits] using h
    obtain ⟨hclear, hend, havail⟩ := Ctx.inTable_iff.1 hin
    exact ⟨c, hc, by rw [classifyCode, if_neg hclear, if_neg hend, if_neg havail.not_gt, if_neg (by simp [hprev]), if_neg heq.not_lt]⟩
  | _ => cases hf

/-- Every class of a code is encoded as the bits of that code. -/
theorem encode_classifyCode (ctx : Ctx) (c : BitVec 12) : encode ctx (classifyCode ctx c) = encodeCode ctx c := by
  unfold classifyCode
  (repeat' split) <;> rfl

/-- The converse of `decode_code` (R92, R93). -/
theorem decode_code_eq {ctx : Ctx} {bits : List Bool} (hlen : bits.length = ctx.csize) (h1 : 1 ≤ ctx.csize) (h12 : ctx.csize ≤ 12) :
    decode ctx (.code bits) = .ok (classifyCode ctx (BitVec.ofNat 12 (ofBits bits))) := by
  have hm : Config.maxCodeSize = 12 := rfl
  rw [decode, decodeCode, if_neg (by omega)]

/-- The bits of a code the field can hold decode to its class. -/
theorem decode_encodeCode {ctx : Ctx} {c : BitVec 12} (hc : ctx.holdsCode c = true) :
    decode ctx (encodeCode ctx c) = .ok (classifyCode ctx c) := by
  obtain ⟨h1, h12, hlt⟩ := Ctx.holdsCode_iff.1 hc
  rw [encodeCode, decode_code_eq (length_toBits _ _) h1 h12, ofBits_toBits hlt, BitVec.ofNat_toNat, BitVec.setWidth_eq]

/-- A row of the code map that matches comes back from its own bits. -/
theorem decode_encode_of_code {ctx : Ctx} {i : Instr} (hf : i.format = .code) (h : i.fits ctx = true) :
    decode ctx (encode ctx i) = .ok i := by
  obtain ⟨c, hc, rfl⟩ := eq_classifyCode_of_fits hf h
  rw [encode_classifyCode, decode_encodeCode hc]

/-- A field of CSIZE bits, at most 12 of them, keeps its value in the 12 bits of a code. -/
theorem toNat_ofNat_ofBits {bits : List Bool} (h : bits.length ≤ 12) : (BitVec.ofNat 12 (ofBits bits)).toNat = ofBits bits := by
  rw [BitVec.toNat_ofNat, Nat.mod_eq_of_lt]
  exact (ofBits_lt bits).trans_le (Nat.pow_le_pow_right (by decide) h)

/-- Settles O4: the class is `classifyCode` of the field's value; a row that matches and encodes as the field is what it decodes to. -/
theorem everyCodeFallsInExactlyOneClass : Obligations.EveryCodeFallsInExactlyOneClass := by
  intro ctx bits hlen h1 h12
  have hval := toNat_ofNat_ofBits (hlen.trans_le h12)
  have hholds : ctx.holdsCode (BitVec.ofNat 12 (ofBits bits)) = true :=
    Ctx.holdsCode_iff.2 ⟨h1, h12, by rw [hval, ← hlen]; exact ofBits_lt bits⟩
  have hdec := decode_code_eq hlen h1 h12
  refine ⟨_, hdec, classifyCode_fits hholds, ?_, fun j hj he => ?_⟩
  · rw [encode_classifyCode, encodeCode, hval, ← hlen, toBits_ofBits]
  · have hformat : j.format = .code := by rw [← encode_format ctx, he]; rfl
    have hback := decode_encode_of_code hformat hj
    rw [he, hdec] at hback
    exact (Except.ok.inj hback).symm

/-! ## Index bytes -/

theorem Ctx.opaqueIndex_iff {ctx : Ctx} {v : Byte} : ctx.opaqueIndex v = true ↔ ¬ (ctx.ten = true ∧ v = ctx.tindex) := by
  cases hten : ctx.ten <;> simp [Ctx.opaqueIndex, hten]

theorem classifyIndex_of_transparent {ctx : Ctx} {v : Byte} (ht : ctx.ten = true ∧ v = ctx.tindex) :
    classifyIndex ctx v = .transparent v := if_pos ht

theorem classifyIndex_of_ctLen_le {ctx : Ctx} {v : Byte} (ht : ¬ (ctx.ten = true ∧ v = ctx.tindex)) (hle : ctx.ctLen ≤ v.toNat) :
    classifyIndex ctx v = .ctRange v := by
  rw [classifyIndex, if_neg ht, if_pos hle]

theorem classifyIndex_of_lt_ctLen {ctx : Ctx} {v : Byte} (ht : ¬ (ctx.ten = true ∧ v = ctx.tindex)) (hlt : v.toNat < ctx.ctLen) :
    classifyIndex ctx v = .write v := by
  rw [classifyIndex, if_neg ht, if_neg hlt.not_ge]

/-- A row of R98 that matches comes back from its own index byte. -/
theorem decode_encode_of_index {ctx : Ctx} {i : Instr} (hf : i.format = .index) (h : i.fits ctx = true) :
    decode ctx (encode ctx i) = .ok i := by
  cases i with
  | transparent v =>
    have ht : ctx.ten = true ∧ v = ctx.tindex := by simpa [Instr.fits] using h
    exact congrArg Except.ok (classifyIndex_of_transparent ht)
  | ctRange v =>
    obtain ⟨ho, hle⟩ : ctx.opaqueIndex v = true ∧ ctx.ctLen ≤ v.toNat := by simpa [Instr.fits] using h
    exact congrArg Except.ok (classifyIndex_of_ctLen_le (Ctx.opaqueIndex_iff.1 ho) hle)
  | write v =>
    obtain ⟨ho, hlt⟩ : ctx.opaqueIndex v = true ∧ v.toNat < ctx.ctLen := by simpa [Instr.fits] using h
    exact congrArg Except.ok (classifyIndex_of_lt_ctLen (Ctx.opaqueIndex_iff.1 ho) hlt)
  | _ => cases hf

/-- An instruction whose row matches is what its index byte decodes to. -/
theorem decode_index_of_fits {ctx : Ctx} {v : Byte} {i : Instr} (h : i.fits ctx = true) (he : encode ctx i = .index v) :
    decode ctx (.index v) = .ok i := by
  have hformat : i.format = .index := by rw [← encode_format ctx, he]; rfl
  rw [← he, decode_encode_of_index hformat h]

/-- Settles O5: the rows are tested in R98's order, and two rows that match the same byte are both what it decodes to. -/
theorem everyIndexByteFallsInExactlyOneClass : Obligations.EveryIndexByteFallsInExactlyOneClass := by
  intro ctx v
  refine ⟨fun ht => ?_, fun ht hle => ?_, fun ht hlt => ?_, fun i j hi hj hei hej => ?_⟩
  · exact congrArg Except.ok (classifyIndex_of_transparent ht)
  · exact congrArg Except.ok (classifyIndex_of_ctLen_le ht hle)
  · exact congrArg Except.ok (classifyIndex_of_lt_ctLen ht hlt)
  · exact Except.ok.inj ((decode_index_of_fits hi hei).symm.trans (decode_index_of_fits hj hej))

end Sys2Proof
end

section
/-! The reserved command words (30_encoding.md R96, 40_commands.md R126). -/

namespace Sys2Proof

/-- A word is its fields RSV and OP side by side (R96). -/
theorem eq_of_rsv_of_op {w : Word} {op : BitVec 2} (hrsv : w.extractLsb' 2 30 = 0#30) (hop : w.extractLsb' 0 2 = op) :
    w = 0#30 ++ op := by
  rw [← hrsv, ← hop, BitVec.extractLsb'_append_extractLsb'_eq_extractLsb' (by rfl), BitVec.extractLsb'_eq_self]

/-- R126: a word other than the three commands is reserved, whether a bit of RSV is set or OP = 0. -/
theorem decodeCmd_reserved {w : Word} (h1 : w ≠ 1#32) (h2 : w ≠ 2#32) (h3 : w ≠ 3#32) : decodeCmd w = .badCmd w := by
  rw [decodeCmd]
  split
  · rfl
  next hrsv =>
    have hword {op : BitVec 2} (hop : (w.extractLsb' 0 2 == op) = true) : w = 0#30 ++ op :=
      eq_of_rsv_of_op (by simpa using hrsv) (eq_of_beq hop)
    rw [if_neg fun hop => h1 (hword hop), if_neg fun hop => h2 (hword hop), if_neg fun hop => h3 (hword hop)]

end Sys2Proof

namespace Sys2Proof.Machine

/-! ## BAD_CMD -/

theorem exec_badCmd_idle {s : State} (hb : s.status.busy = false) (w : Word) : exec (.badCmd w) s = .next (startBad s) :=
  congrArg Host.Outcome.next (cmdWrite_idle hb startBad)

@[simp] theorem startBad_status (s : State) : (startBad s).status = ⟨false, true, s.status.wbusy, .none, .badCmd⟩ := rfl
@[simp] theorem startBad_buf (s : State) : (startBad s).buf = s.buf := rfl

/-- R122's start has cleared the stop and the counters that finish() latches, and left the rest of `s` that `Finished` speaks of. -/
theorem finished_startBad (s : State) : Finished s (startBad s) .none .badCmd ⟨0, 0, 0, 0⟩ :=
  finished_raiseError .badCmd (beginCommand s)

/-- Settles O21: the word decodes to BAD_CMD, which on an idle block is R122's start and the end with the error in one step. -/
theorem reservedCommandWordEndsAtOnce : Obligations.ReservedCommandWordEndsAtOnce := by
  intro s w hb h1 h2 h3
  refine ⟨congrArg Except.ok (decodeCmd_reserved h1 h2 h3), startBad s, exec_badCmd_idle hb w, finished_startBad s, startBad_buf s, ?_⟩
  intro hw n
  rw [startBad_status, hw]
  rfl

end Sys2Proof.Machine
end

section
/-! The STATUS write (40_commands.md R130) and the interrupt line it lowers (60_exceptions.md R235). -/

namespace Sys2Proof.Machine

@[simp] theorem acknowledge_done (t : Status) (v : Word) : (t.acknowledge v).done = (t.done && !v.getLsbD 1) := rfl
@[simp] theorem acknowledge_wbusy (t : Status) (v : Word) : (t.acknowledge v).wbusy = (t.wbusy && !v.getLsbD 4) := rfl

theorem acknowledge_frame (t : Status) (v : Word) :
    t.acknowledge v = { t with done := (t.acknowledge v).done, wbusy := (t.acknowledge v).wbusy } := rfl

theorem exec_wr_status (d : Word) (s : State) : exec (.wr 4 d) s = .next (s.withStatus (s.status.acknowledge d)) :=
  exec_wr_aligned (by decide) d s

/-- The line is low while DONE is 0 (R235). -/
theorem irq_eq_false {s : State} (h : s.status.done = false) : s.irq = false := by rw [State.irq, h, Bool.false_and]

/-- Settles O26: the write puts the acknowledged STATUS in place of the old one and touches no other group. -/
theorem statusWriteClearsWhatItNames : Obligations.StatusWriteClearsWhatItNames := by
  intro s d
  refine ⟨_, exec_wr_status d s, acknowledge_done _ d, acknowledge_wbusy _ d, congrArg s.withStatus (acknowledge_frame _ d), ?_⟩
  intro hd
  apply irq_eq_false
  rw [State.withStatus_status, acknowledge_done, hd, Bool.not_true, Bool.and_false]

end Sys2Proof.Machine
end

section
/-! The next code (41_lzw_decoder.md R158), and the two codes that walk no chain: CLEAR (R160) and FIRST (R163). -/

namespace Sys2Proof

/-- The condition of the row CLEAR (R160). -/
theorem fits_clear {ctx : Ctx} {c : BitVec 12} (h : (Instr.clear c).fits ctx = true) : c.toNat = ctx.clear := by
  obtain ⟨-, hclear⟩ : ctx.holdsCode c = true ∧ c.toNat = ctx.clear := by simpa [Instr.fits] using h
  exact hclear

/-- The condition of the row FIRST (R163). -/
theorem fits_first {ctx : Ctx} {c : BitVec 12} (h : (Instr.first c).fits ctx = true) :
    ctx.prevV = false ∧ c.toNat ≠ ctx.clear ∧ c.toNat ≠ ctx.endCode ∧ c.toNat ≤ ctx.avail := by
  obtain ⟨⟨-, hin⟩, hprev⟩ : (ctx.holdsCode c = true ∧ ctx.inTable c = true) ∧ ctx.prevV = false := by
    simpa [Instr.fits] using h
  exact ⟨hprev, Ctx.inTable_iff.1 hin⟩

end Sys2Proof

namespace Sys2Proof.Machine

/-! ## The next code -/

/-- A code field that decodes, decodes to a row that matches (R94). -/
theorem decode_code_fits {ctx : Ctx} {bits : List Bool} {i : Instr} (h : decode ctx (.code bits) = .ok i) : i.fits ctx = true := by
  obtain ⟨hlen, h1, h12, rfl⟩ := decode_code h
  refine classifyCode_fits (Ctx.holdsCode_iff.2 ⟨h1, h12, ?_⟩)
  rw [toNat_ofNat_ofBits (hlen.trans_le h12), ← hlen]
  exact ofBits_lt bits

/-- The value of the code field at the low end of the accumulator (R92, R158). -/
theorem ofBits_codeBits (d : Decoder) : ofBits d.codeBits = d.acc.toNat % 2 ^ d.csize.toNat := ofBits_toBits_mod _ _

/-- `extract` as arithmetic (R158). -/
theorem consume_acc_toNat (d : Decoder) : d.consume.acc.toNat = d.acc.toNat / 2 ^ d.csize.toNat := by
  rw [Decoder.consume_acc, BitVec.toNat_ushiftRight, Nat.shiftRight_eq_div_pow]

theorem consume_nbits_toNat (d : Decoder) : d.consume.nbits.toNat = d.nbits.toNat - d.csize.toNat := by
  rw [Decoder.consume_nbits, BitVec.toNat_ofNat, Nat.mod_eq_of_lt ((Nat.sub_le _ _).trans_lt d.nbits.isLt)]

/-- The sequencer below the count, with a whole code buffered (R155, R156, R158). -/
theorem sequencer_code {s : State} (hseq : s.seq = .decode) (ho : s.dec.ocnt.toNat < s.dec.npix.toNat)
    (hn : s.dec.csize.toNat ≤ s.dec.nbits.toNat) : sequencer s = .word (.code s.dec.codeBits) (s.withDec s.dec.consume) := by
  simp [sequencer, hseq, ho.not_ge, hn.not_gt]

/-- The code field of the sequencer decodes to the class of its value. -/
theorem decode_codeBits (s : State) (h1 : 1 ≤ s.dec.csize.toNat) (h12 : s.dec.csize.toNat ≤ 12) :
    decode s.ctx (.code s.dec.codeBits) = .ok (classifyCode s.ctx (BitVec.ofNat 12 (s.dec.acc.toNat % 2 ^ s.dec.csize.toNat))) := by
  rw [← ofBits_codeBits]
  exact decode_code_eq (length_toBits _ _) h1 h12

/-- Settles O9: the field fetched is the low CSIZE bits of ACC, and its class runs in the state `extract` leaves. -/
theorem stepRunsTheNextCode : Obligations.StepRunsTheNextCode := by
  rintro s t i hturn hseq ho hn h1 h12 rfl
  obtain ⟨tseq, -, -, -, -, tdec, -, -⟩ := turn_groups hturn
  have hfetch : fetch s = .word (.code s.dec.codeBits) (t.withDec s.dec.consume) := by
    rw [← tseq] at hseq
    rw [← tdec] at ho hn ⊢
    rw [fetch_of_turn hturn, sequencer_code hseq ho hn]
  refine ⟨_, step_word hfetch (decode_codeBits s h1 h12), consume_acc_toNat s.dec, consume_nbits_toNat s.dec, ?_⟩
  rw [tdec]
  rfl

/-! ## CLEAR -/

/-- MASK has all bits below CSIZE set, for every width a code can have (R152, R169). -/
theorem maskOf_toNat {csize : BitVec 4} (h : csize.toNat ≤ 12) : (maskOf csize).toNat = 2 ^ csize.toNat - 1 := by
  rw [maskOf, BitVec.toNat_ofNat, Nat.mod_eq_of_lt]
  exact (Nat.sub_lt (Nat.two_pow_pos _) Nat.one_pos).trans_le (Nat.pow_le_pow_right (by decide) h)

/-- The width a start or a clear gives does not wrap: MCS is at most 8 (R151, R152). -/
theorem mcs_add_one_toNat {mcs : BitVec 4} (h : mcs.toNat ≤ 8) : (mcs + 1#4).toNat = mcs.toNat + 1 :=
  BitVec.toNat_add_of_lt (by simp; omega)

/-- Settles O32: CLEAR makes R160's four updates of the decoder, none of which wraps. -/
theorem clearCodeRestartsTheWidth : Obligations.ClearCodeRestartsTheWidth := by
  intro s c
  refine ⟨fun bits hd => fits_clear (decode_code_fits hd), fun hmcs _ => ?_⟩
  have hwidth := mcs_add_one_toNat hmcs
  have hmask : (maskOf (s.dec.mcs + 1#4)).toNat = 2 ^ (s.dec.mcs.toNat + 1) - 1 := by
    rw [maskOf_toNat (by omega), hwidth]
  have havail : (BitVec.ofNat 13 (s.dec.clear.toNat + 2)).toNat = s.dec.clear.toNat + 2 := by
    have := s.dec.clear.isLt
    rw [BitVec.toNat_ofNat]
    omega
  exact ⟨_, rfl, hwidth, hmask, havail, rfl, rfl⟩

/-! ## FIRST -/

/-- Settles O35: FIRST is one emission, followed by the updates of PREV and FIRST. -/
theorem firstCodeEmitsItsSuffix : Obligations.FirstCodeEmitsItsSuffix := by
  intro s c
  refine ⟨fun bits hd => fits_first (decode_code_fits hd), fun hwf ho => ?_⟩
  have hroom : s.dec.ocnt.toNat + 1 < 2 ^ 32 := by
    have := s.dec.npix.isLt
    omega
  have he := Emitted.emit (s.dec.suffixAt c.toNat) hroom
  obtain ⟨-, happended⟩ := he.idx hwf
  exact ⟨_, rfl, happended, he.ocnt, rfl, ⟨he.inp, he.ct, he.pix⟩, he.seq, he.op, he.status, he.regs, he.results, he.cmp⟩

end Sys2Proof.Machine
end

section
/-! Index bytes: the class of a byte (30_encoding.md R98) and what each class does (42_compositor.md R203 to R209). -/

namespace Sys2Proof

/-! ## The class of an index byte -/

theorem fits_transparent_iff {ctx : Ctx} {v : Byte} :
    (Instr.transparent v).fits ctx = true ↔ ctx.ten = true ∧ v = ctx.tindex := by
  simp [Instr.fits]

theorem fits_ctRange_iff {ctx : Ctx} {v : Byte} :
    (Instr.ctRange v).fits ctx = true ↔ ¬ (ctx.ten = true ∧ v = ctx.tindex) ∧ ctx.ctLen ≤ v.toNat := by
  rw [← Ctx.opaqueIndex_iff]
  simp [Instr.fits]

theorem fits_write_iff {ctx : Ctx} {v : Byte} :
    (Instr.write v).fits ctx = true ↔ ¬ (ctx.ten = true ∧ v = ctx.tindex) ∧ v.toNat < ctx.ctLen := by
  rw [← Ctx.opaqueIndex_iff]
  simp [Instr.fits]

theorem classifyIndex_fits (ctx : Ctx) (v : Byte) : (classifyIndex ctx v).fits ctx = true := by
  by_cases ht : ctx.ten = true ∧ v = ctx.tindex
  · rw [classifyIndex_of_transparent ht]
    exact fits_transparent_iff.2 ht
  rcases Nat.lt_or_ge v.toNat ctx.ctLen with hlt | hle
  · rw [classifyIndex_of_lt_ctLen ht hlt]
    exact fits_write_iff.2 ⟨ht, hlt⟩
  · rw [classifyIndex_of_ctLen_le ht hle]
    exact fits_ctRange_iff.2 ⟨ht, hle⟩

/-- The rows of R98 are exact: an index byte decodes to an instruction of its own exactly when that row matches. -/
theorem decode_index_iff_fits {ctx : Ctx} {v : Byte} {i : Instr} (he : encode ctx i = .index v) :
    decode ctx (.index v) = .ok i ↔ i.fits ctx = true := by
  refine ⟨fun h => ?_, fun h => decode_index_of_fits h he⟩
  rw [← Except.ok.inj h]
  exact classifyIndex_fits ctx v

end Sys2Proof

namespace Sys2Proof.Machine

/-! ## What each class does -/

/-- A counter below its last value does not wrap. -/
theorem counter_succ_toNat {w : Word} (h : w.toNat + 1 < 2 ^ 32) : (w + 1#32).toNat = w.toNat + 1 :=
  BitVec.toNat_add_of_lt h

/-- Settles O44: the first row of R98 asks nothing of CT_LEN, and its step changes CPOS alone. -/
theorem transparentIndexWritesNothing : Obligations.TransparentIndexWritesNothing := by
  intro s v
  refine ⟨(decode_index_iff_fits rfl).trans fits_transparent_iff, fun hcpos => ?_⟩
  exact ⟨nextPosition s, rfl, counter_succ_toNat hcpos, rfl, rfl⟩

/-- Settles O46: CT_RANGE is the error's end with the counters of the failing position; no byte reaches a table of 256. -/
theorem indexBeyondTheTableEndsTheCommand : Obligations.IndexBeyondTheTableEndsTheCommand := by
  intro s v
  have hclass : decode s.ctx (.index v) = .ok (.ctRange v) ↔
      ¬ (s.regs.ten = true ∧ v = s.regs.tindex) ∧ s.regs.ctLen.toNat ≤ v.toNat :=
    (decode_index_iff_fits rfl).trans fits_ctRange_iff
  refine ⟨hclass, fun hfull hd => ?_, raiseError .ctRange s, rfl, finished_raiseError .ctRange s, rfl, rfl, raiseError_buf _ _⟩
  obtain ⟨-, hle⟩ := hclass.1 hd
  have := v.isLt
  omega

/-- The destination of an index position, written out (R203 to R206). -/
theorem destOf_eq (g : Regs) (i : Nat) :
    g.destOf i = ((if g.interlaced = true then rowmap (i / g.frameW.toNat) g.frameH.toNat else i / g.frameW.toNat) + g.offY.toNat) *
      g.imgW.toNat + g.offX.toNat + i % g.frameW.toNat := rfl

/-- Settles O45: WRITE is one word write at the destination of CPOS, whose four bytes hold the color, and two counter steps. -/
theorem opaqueIndexCopiesTheColor : Obligations.OpaqueIndexCopiesTheColor := by
  intro s v
  refine ⟨(decode_index_iff_fits rfl).trans fits_write_iff, fun hwf hcpos hpwr => ?_⟩
  simp only [← destOf_eq]
  refine ⟨nextPosition (writePixel (s.regs.destOf s.cmp.cpos.toNat) (Memory.readWord s.buf.ct v.toNat) s), rfl, ?color, ?others,
    counter_succ_toNat hcpos, counter_succ_toNat hpwr, rfl, rfl, rfl, rfl, rfl, rfl, rfl, rfl, rfl⟩
  case color => exact Memory.readWord_writeWord_same hwf _ _
  case others => exact fun a ha => Memory.read_writeWord_other _ _ ha

end Sys2Proof.Machine
end

section
/-! The display rows of an interlaced frame (42_compositor.md R205). -/

namespace Sys2Proof.Machine

section Rowmap

variable {fh : Nat}

/-! ## The four passes, in their order -/

theorem rowmap_first_pass {k : Nat} (h : 8 * k < fh) : rowmap k fh = 8 * k := by
  rw [rowmap, if_pos (by omega)]

theorem rowmap_second_pass {k : Nat} (h : 8 * k + 4 < fh) : rowmap ((fh + 7) / 8 + k) fh = 8 * k + 4 := by
  rw [rowmap, if_neg (by omega), if_pos (by omega)]
  omega

theorem rowmap_third_pass {k : Nat} (h : 4 * k + 2 < fh) : rowmap ((fh + 7) / 8 + (fh + 3) / 8 + k) fh = 4 * k + 2 := by
  rw [rowmap, if_neg (by omega), if_neg (by omega), if_pos (by omega)]
  omega

theorem rowmap_fourth_pass {k : Nat} (h : 2 * k + 1 < fh) :
    rowmap ((fh + 7) / 8 + (fh + 3) / 8 + (fh + 1) / 4 + k) fh = 2 * k + 1 := by
  rw [rowmap, if_neg (by omega), if_neg (by omega), if_neg (by omega)]
  omega

/-! ## The bijection -/

/-- The passes have as many rows as the frame. -/
theorem pass_rows_sum (fh : Nat) : (fh + 7) / 8 + (fh + 3) / 8 + (fh + 1) / 4 + fh / 2 = fh := by omega

theorem rowmap_lt {r : Nat} (h : r < fh) : rowmap r fh < fh := by
  simp only [rowmap]
  split_ifs <;> omega

/-- A row is in the first or the second pass when it is 0 or 4 mod 8, in the third when it is 2 mod 4, in the fourth when it is odd. -/
theorem exists_rowmap_eq {y : Nat} (h : y < fh) : ∃ r, r < fh ∧ rowmap r fh = y := by
  have hpass : 8 * (y / 8) = y ∨ 8 * (y / 8) + 4 = y ∨ 4 * (y / 4) + 2 = y ∨ 2 * (y / 2) + 1 = y := by omega
  rcases hpass with hy | hy | hy | hy
  · exact ⟨_, by omega, (rowmap_first_pass (hy.trans_lt h)).trans hy⟩
  · exact ⟨_, by omega, (rowmap_second_pass (hy.trans_lt h)).trans hy⟩
  · exact ⟨_, by omega, (rowmap_third_pass (hy.trans_lt h)).trans hy⟩
  · exact ⟨_, by omega, (rowmap_fourth_pass (hy.trans_lt h)).trans hy⟩

/-- `rowmap` as a map of the frame's rows. -/
def rowmapFin (fh : Nat) (r : Fin fh) : Fin fh := ⟨rowmap r fh, rowmap_lt r.isLt⟩

theorem rowmapFin_surjective (fh : Nat) : Function.Surjective (rowmapFin fh) := by
  intro y
  obtain ⟨r, hr, hy⟩ := exists_rowmap_eq y.isLt
  exact ⟨⟨r, hr⟩, Fin.ext hy⟩

/-- A map of the finitely many rows onto themselves takes no value twice. -/
theorem rowmapFin_injective (fh : Nat) : Function.Injective (rowmapFin fh) :=
  Finite.injective_iff_surjective.2 (rowmapFin_surjective fh)

theorem rowmap_inj {r q : Nat} (hr : r < fh) (hq : q < fh) (h : rowmap r fh = rowmap q fh) : r = q := by
  have hrow : (⟨r, hr⟩ : Fin fh) = ⟨q, hq⟩ := rowmapFin_injective fh (Fin.ext h)
  exact congrArg Fin.val hrow

/-- R204, R205. -/
theorem displayRow_interlaced {g : Regs} (h : g.interlaced = true) (r : Nat) : g.displayRow r = rowmap r g.frameH.toNat := if_pos h

end Rowmap

/-- Settles O47: the four passes reach every row of the frame, so that `rowmap`, which stays in the frame, is a bijection. -/
theorem interlacedRowsAreAPermutation : Obligations.InterlacedRowsAreAPermutation := by
  refine ⟨fun g r h => displayRow_interlaced h r, fun fh => ⟨?_, ?_, ?_, ?_, ?_, ?_, ?_, pass_rows_sum fh⟩⟩
  · exact fun _ => rowmap_first_pass
  · exact fun _ => rowmap_second_pass
  · exact fun _ => rowmap_third_pass
  · exact fun _ => rowmap_fourth_pass
  · exact fun _ => rowmap_lt
  · exact fun _ _ => rowmap_inj
  · exact fun _ => exists_rowmap_eq

end Sys2Proof.Machine
end

section
/-! Decode and encode agree, in both directions and for every format (30_encoding.md sections 1 to 5); the accesses no word stands for
(20_memory.md R68). -/

namespace Sys2Proof

/-! ## CMD words -/

/-- R96: the three command words, and every other word. -/
theorem decodeCmd_eq (w : Word) : decodeCmd w = if w = 1#32 then .decode else if w = 2#32 then .composite
    else if w = 3#32 then .decodeComposite else .badCmd w := by
  split_ifs with h1 h2 h3
  · rw [h1]; rfl
  · rw [h2]; rfl
  · rw [h3]; rfl
  · exact decodeCmd_reserved h1 h2 h3

/-- Settles O1: what `decodeCmd` tests field by field are the three words and the rest. -/
theorem commandWordsAreMatchedWhole : Obligations.CommandWordsAreMatchedWhole :=
  fun _ w => congrArg Except.ok (decodeCmd_eq w)

/-- Settles O2: seventeen closed words, one per row. -/
theorem writtenOutWordsDecode : Obligations.WrittenOutWordsDecode := by
  refine ⟨rfl, rfl, rfl, rfl, rfl, rfl, rfl, rfl, rfl, rfl, rfl, rfl, rfl, rfl, rfl, rfl, rfl⟩

/-- A word is reserved exactly when it is none of the three commands (R96, R126). -/
theorem reservedCmd_iff {w : Word} : reservedCmd w = true ↔ w ≠ 1#32 ∧ w ≠ 2#32 ∧ w ≠ 3#32 := by
  constructor
  · intro h
    refine ⟨?_, ?_, ?_⟩ <;> rintro rfl <;> exact absurd h (by decide)
  · rintro ⟨h1, h2, h3⟩
    by_contra hr
    obtain ⟨hop, hrsv⟩ : w.extractLsb' 0 2 ≠ 0#2 ∧ w.extractLsb' 2 30 = 0#30 := by simpa [reservedCmd] using hr
    have hword := eq_of_rsv_of_op hrsv rfl
    have hops : ∀ op : BitVec 2, op ≠ 0#2 → op = 1#2 ∨ op = 2#2 ∨ op = 3#2 := by decide
    rcases hops _ hop with h | h | h <;> rw [h] at hword
    · exact h1 hword
    · exact h2 hword
    · exact h3 hword

theorem decode_encode_of_cmd {ctx : Ctx} {i : Instr} (hf : i.format = .cmd) (hw : i.wellFormed = true) :
    decode ctx (encode ctx i) = .ok i := by
  cases i with
  | decode | composite | decodeComposite => rfl
  | badCmd w =>
    obtain ⟨h1, h2, h3⟩ := reservedCmd_iff.1 hw
    exact congrArg Except.ok (decodeCmd_reserved h1 h2 h3)
  | _ => cases hf

/-- Every command word decodes to a row it encodes. -/
theorem encode_decodeCmd (ctx : Ctx) (w : Word) : encode ctx (decodeCmd w) = .cmd w := by
  rw [decodeCmd_eq]
  split_ifs with h1 h2 h3
  · rw [h1]; rfl
  · rw [h2]; rfl
  · rw [h3]; rfl
  · rfl

theorem decodeCmd_wellFormed (w : Word) : (decodeCmd w).wellFormed = true := by
  rw [decodeCmd_eq]
  split_ifs with h1 h2 h3
  · rfl
  · rfl
  · rfl
  · exact reservedCmd_iff.2 ⟨h1, h2, h3⟩

/-! ## Bus accesses -/

/-- The converse of `decode_bus` (R68, R97). -/
theorem decodeBus_aligned {a : BusAccess} (hs : a.size = 4) (ha : a.offset % 4 = 0) (hr : a.offset ≤ 0xFC) :
    decodeBus a = .ok (match a.dir with
      | .write => .wr (BitVec.ofNat 8 a.offset) a.data
      | .read => .rd (BitVec.ofNat 8 a.offset)) := by
  rw [decodeBus, if_neg (by simp [hs]), if_neg (by simp [ha]), if_neg hr.not_gt]
  cases a.dir <;> rfl

/-- An access of any other shape is refused as a register access (R68). -/
theorem decodeBus_misshapen {a : BusAccess} (h : a.size ≠ 4 ∨ a.offset % 4 ≠ 0 ∨ 0xFC < a.offset) :
    ∃ e, decodeBus a = .error e ∧ Machine.rejected e = .registerAccess := by
  rw [decodeBus]
  by_cases hs : a.size = 4
  · by_cases ha : a.offset % 4 = 0
    · have hr : 0xFC < a.offset := h.resolve_left (absurd hs) |>.resolve_left (absurd ha)
      exact ⟨.busOffset, by simp [hs, ha, hr], rfl⟩
    · exact ⟨.busAlignment, by simp [hs, ha], rfl⟩
  · exact ⟨.busWidth, by simp [hs], rfl⟩

theorem regOffset_iff {o : BitVec 8} : regOffset o = true ↔ o.toNat % 4 = 0 := by simp [regOffset]

/-- The last multiple of 4 below 256 is 0xFC. -/
theorem toNat_le_of_aligned {o : BitVec 8} (ha : o.toNat % 4 = 0) : o.toNat ≤ 0xFC := by
  have := o.isLt
  omega

/-- An offset of the window fits the 8 bits of an instruction. -/
theorem toNat_ofNat_offset {o : Nat} (h : o ≤ 0xFC) : (BitVec.ofNat 8 o).toNat = o := by
  rw [BitVec.toNat_ofNat, Nat.mod_eq_of_lt (by omega)]

theorem decode_encode_of_bus {ctx : Ctx} {i : Instr} (hf : i.format = .bus) (hw : i.wellFormed = true) :
    decode ctx (encode ctx i) = .ok i := by
  cases i with
  | wr o d =>
    have ha := regOffset_iff.1 hw
    have hd : decodeBus (.wr o.toNat d) = .ok (.wr (BitVec.ofNat 8 o.toNat) d) := decodeBus_aligned rfl ha (toNat_le_of_aligned ha)
    rwa [BitVec.ofNat_toNat, BitVec.setWidth_eq] at hd
  | rd o =>
    have ha := regOffset_iff.1 hw
    have hd : decodeBus (.rd o.toNat) = .ok (.rd (BitVec.ofNat 8 o.toNat)) := decodeBus_aligned rfl ha (toNat_le_of_aligned ha)
    rwa [BitVec.ofNat_toNat, BitVec.setWidth_eq] at hd
  | _ => cases hf

/-! ## Stream bytes -/

theorem decode_encode_of_stream {ctx : Ctx} {i : Instr} (hf : i.format = .stream) (h : i.fits ctx = true) :
    decode ctx (encode ctx i) = .ok i := by
  cases i with
  | blockHeader len =>
    have hbrem : ctx.brem = 0 := by simpa [Instr.fits] using h
    exact congrArg Except.ok (if_pos hbrem)
  | dataByte b =>
    have hbrem : ctx.brem ≠ 0 := by simpa [Instr.fits] using h
    exact congrArg Except.ok (if_neg hbrem)
  | _ => cases hf

/-- Settles O3, format by format: what makes CMD and BUS words decode is that the instruction is well formed, what makes the others decode
is that the row matches. -/
theorem decodeOfEncodeIsTheInstruction : Obligations.DecodeOfEncodeIsTheInstruction := by
  intro ctx i hw hfit
  cases hformat : i.format with
  | cmd => exact decode_encode_of_cmd hformat hw
  | bus => exact decode_encode_of_bus hformat hw
  | code => exact decode_encode_of_code hformat hfit
  | stream => exact decode_encode_of_stream hformat hfit
  | index => exact decode_encode_of_index hformat hfit

/-! ## What the decoder answers -/

theorem fits_of_format {ctx : Ctx} {i : Instr} (hf : i.format = .cmd ∨ i.format = .bus) : i.fits ctx = true := by
  cases i with
  | decode | composite | decodeComposite | badCmd | wr | rd => rfl
  | _ => rcases hf with hf | hf <;> cases hf

/-- The condition of the row END (R161). -/
theorem fits_endCode {ctx : Ctx} {c : BitVec 12} (h : (Instr.endCode c).fits ctx = true) : c.toNat = ctx.endCode := by
  obtain ⟨-, hend⟩ : _ ∧ c.toNat = ctx.endCode := by simpa only [Instr.fits, Bool.and_eq_true, beq_iff_eq] using h
  exact hend

/-- The condition of the row RANGE (R162). -/
theorem fits_range {ctx : Ctx} {c : BitVec 12} (h : (Instr.range c).fits ctx = true) : ctx.avail < c.toNat := by
  obtain ⟨-, hlt⟩ : _ ∧ ctx.avail < c.toNat := by simpa only [Instr.fits, Bool.and_eq_true, decide_eq_true_eq] using h
  exact hlt

/-- The condition of the row DEFINED (R164). -/
theorem fits_defined {ctx : Ctx} {c : BitVec 12} (h : (Instr.defined c).fits ctx = true) : ctx.prevV = true ∧ c.toNat < ctx.avail := by
  obtain ⟨⟨-, hprev⟩, hlt⟩ : (_ ∧ ctx.prevV = true) ∧ c.toNat < ctx.avail := by
    simpa only [Instr.fits, Bool.and_eq_true, decide_eq_true_eq] using h
  exact ⟨hprev, hlt⟩

/-- The condition of the row KWKWK (R165). -/
theorem fits_kwkwk {ctx : Ctx} {c : BitVec 12} (h : (Instr.kwkwk c).fits ctx = true) : ctx.prevV = true ∧ c.toNat = ctx.avail := by
  obtain ⟨⟨-, hprev⟩, heq⟩ : (_ ∧ ctx.prevV = true) ∧ c.toNat = ctx.avail := by
    simpa only [Instr.fits, Bool.and_eq_true, beq_iff_eq] using h
  exact ⟨hprev, heq⟩

theorem clearValue_pos {c : Nat} (h : clearValue c = true) : 1 ≤ c := by
  obtain ⟨m, -, hm⟩ := List.any_eq_true.1 h
  rw [eq_of_beq hm]
  exact Nat.one_le_two_pow

/-- In a decoder state a decode has, every row of the code map holds well-formed codes only (10_state.md R42). -/
theorem wellFormed_of_code_fits {ctx : Ctx} {i : Instr} (hf : i.format = .code) (hl : ctx.legal = true) (h : i.fits ctx = true) :
    i.wellFormed = true := by
  obtain ⟨⟨hclear, hend⟩, havail⟩ : (clearValue ctx.clear = true ∧ ctx.endCode = ctx.clear + 1) ∧ ctx.clear + 2 ≤ ctx.avail := by
    simpa [Ctx.legal] using hl
  have hpos := clearValue_pos hclear
  cases i with
  | clear c => rw [Instr.wellFormed, fits_clear h, hclear]
  | endCode c =>
    have hc : c.toNat = ctx.clear + 1 := (fits_endCode h).trans hend
    simp [Instr.wellFormed, hc, hclear]
  | range c =>
    have hc := fits_range h
    exact decide_eq_true (by omega : 4 ≤ c.toNat)
  | kwkwk c =>
    obtain ⟨-, hc⟩ := fits_kwkwk h
    exact decide_eq_true (by omega : 3 ≤ c.toNat)
  | first | defined => rfl
  | _ => cases hf

/-- Settles O6, format by format. -/
theorem decodedInstructionsAreWellFormed : Obligations.DecodedInstructionsAreWellFormed := by
  intro ctx raw i hd
  cases raw with
  | cmd w =>
    cases hd
    exact ⟨fits_of_format (.inl (Machine.decodeCmd_format w)), fun _ => decodeCmd_wellFormed w, fun _ => encode_decodeCmd ctx w⟩
  | bus a =>
    obtain ⟨hsize, halign, hrange, hi⟩ := Machine.decode_bus hd
    have hoff := toNat_ofNat_offset hrange
    obtain ⟨dir, o, n, d⟩ := a
    obtain rfl : n = 4 := hsize
    rcases hi with ⟨rfl, rfl⟩ | ⟨rfl, rfl⟩
    · refine ⟨rfl, fun _ => regOffset_iff.2 (hoff.symm ▸ halign), fun _ => ?_⟩
      rw [encode, hoff]
      rfl
    · refine ⟨rfl, fun _ => regOffset_iff.2 (hoff.symm ▸ halign), fun hdata => ?_⟩
      rw [encode, hoff, hdata o 4 d rfl]
      rfl
  | code bits =>
    have hfit := Machine.decode_code_fits hd
    refine ⟨hfit, fun hl => wellFormed_of_code_fits (Machine.decode_format hd) hl hfit, fun _ => ?_⟩
    obtain ⟨hlen, -, h12, rfl⟩ := Machine.decode_code hd
    rw [encode_classifyCode, encodeCode, toNat_ofNat_ofBits (hlen.trans_le h12), ← hlen, toBits_ofBits]
  | stream b =>
    obtain rfl := Except.ok.inj hd
    by_cases hbrem : ctx.brem = 0 <;> simp [decodeStream, hbrem, Instr.fits, Instr.wellFormed, encode]
  | index v =>
    refine ⟨?_, ?_, ?_⟩ <;> obtain rfl := Except.ok.inj hd
    · exact classifyIndex_fits ctx v
    · intro _; unfold classifyIndex; (repeat' split) <;> rfl
    · intro _; unfold classifyIndex; (repeat' split) <;> rfl

end Sys2Proof

namespace Sys2Proof.Machine

/-- Settles O7: no shape that R68 refuses is read as a command word, and the decoder refuses it; an instruction's offset has 8 bits, so
only its alignment is left to refuse. -/
theorem misshapenRegisterAccessesAreRefused : Obligations.MisshapenRegisterAccessesAreRefused := by
  constructor
  · intro s a rest hhost hshape
    obtain ⟨e, hd, he⟩ := decodeBus_misshapen hshape
    have hraw : rawOfAccess s.status.busy a = .bus a := by
      refine if_neg ?_
      rintro ⟨-, -, hs, ho⟩
      rcases hshape with h | h | h <;> omega
    have hfetch : fetch s = .word (.bus a) (s.pop rest) := by
      rw [fetch, hhost, ← hraw]
      rfl
    rw [step, hfetch, ← he]
    simp only [perform, decode, hd]
  · intro s off d hoff
    have hmis : misaligned off = true := by simpa [misaligned] using hoff
    simp [exec, execWr, execRd, hmis]

end Sys2Proof.Machine
end

section
/-! Everything an instruction or a step can do to the sequencer and to what no code touches, said once per group of rows: the host's rows
(40_commands.md R120 to R128), the rows of the decode phase (41_lzw_decoder.md R156 to R171) and those of the composite phase
(42_compositor.md R207 to R210). -/

namespace Sys2Proof.Machine

/-! ## The start of a command -/

/-- The state in which run_decode begins: R122's start, NPIX set (R123, R125). -/
def startDecoder (op : Command) (npix : Word) (s : State) : State := (startLegal op s).withDec (s.dec.resetCursors.withNpix npix)

@[simp] theorem startDecoder_op (op : Command) (npix : Word) (s : State) : (startDecoder op npix s).op = op := rfl
@[simp] theorem startDecoder_status (op : Command) (npix : Word) (s : State) :
    (startDecoder op npix s).status = { s.status with busy := true, done := false, errCode := .none, decStop := .none } := rfl
@[simp] theorem startDecoder_regs (op : Command) (npix : Word) (s : State) : (startDecoder op npix s).regs = s.regs := rfl
@[simp] theorem startDecoder_dec (op : Command) (npix : Word) (s : State) :
    (startDecoder op npix s).dec = s.dec.resetCursors.withNpix npix := rfl
@[simp] theorem startDecoder_cmp (op : Command) (npix : Word) (s : State) : (startDecoder op npix s).cmp = ⟨0#32, 0#32⟩ := rfl
@[simp] theorem startDecoder_buf (op : Command) (npix : Word) (s : State) : (startDecoder op npix s).buf = s.buf := rfl
@[simp] theorem startDecoder_draws (op : Command) (npix : Word) (s : State) : (startDecoder op npix s).env.draws = s.env.draws := rfl

/-- What run_decode leaves when its checks pass (R151 to R154): the decode phase, the decoder initialised. -/
def decoderRuns (op : Command) (npix : Word) (s : State) : State :=
  (((startDecoder op npix s).withDec (Decoder.start ((startDecoder op npix s).dec.withIpos 1#32) (Memory.read s.buf.inp 0)
    s.env.draws)).withEnv { (startDecoder op npix s).env with draws := s.env.draws + 1 }).withSeq .decode

@[simp] theorem decoderRuns_seq (op : Command) (npix : Word) (s : State) : (decoderRuns op npix s).seq = .decode := rfl
@[simp] theorem decoderRuns_op (op : Command) (npix : Word) (s : State) : (decoderRuns op npix s).op = op := rfl
@[simp] theorem decoderRuns_status (op : Command) (npix : Word) (s : State) :
    (decoderRuns op npix s).status = { s.status with busy := true, done := false, errCode := .none, decStop := .none } := rfl
@[simp] theorem decoderRuns_regs (op : Command) (npix : Word) (s : State) : (decoderRuns op npix s).regs = s.regs := by
  simp [decoderRuns]
@[simp] theorem decoderRuns_npix (op : Command) (npix : Word) (s : State) : (decoderRuns op npix s).dec.npix = npix := rfl
@[simp] theorem decoderRuns_cmp (op : Command) (npix : Word) (s : State) : (decoderRuns op npix s).cmp = ⟨0#32, 0#32⟩ := by
  simp [decoderRuns]
@[simp] theorem decoderRuns_buf (op : Command) (npix : Word) (s : State) : (decoderRuns op npix s).buf = s.buf := by
  simp [decoderRuns]
@[simp] theorem decoderRuns_draws (op : Command) (npix : Word) (s : State) : (decoderRuns op npix s).env.draws = s.env.draws + 1 := by
  simp [decoderRuns]

/-- What the start of a command on the idle block `s` leaves (R122 to R126): it has ended at once, or one of its phases runs. -/
inductive Started (s t : State) : Prop where
  | ended (op : Command) (d : Decoder) (ds : DecStop) (e : ErrCode)
      (ht : t = finish (((startLegal op s).withDec d).withStatus { (startLegal op s).status with decStop := ds, errCode := e }))
  | decoding (op : Command) (npix : Word) (hop : op ≠ .composite) (hn : npix.toNat ≤ s.regs.idxLen.toNat) (hi : s.regs.inLen ≠ 0)
      (hm : (Memory.read s.buf.inp 0).toNat ≤ 8)
      (hc : op = .decodeComposite → npix.toNat = s.regs.positions ∧ s.regs.geometryOk = true)
      (ht : t = decoderRuns op npix s)
  | compositing (op : Command) (d : Decoder) (ds : DecStop) (hop : op ≠ .decode) (hn : s.regs.positions ≤ s.regs.idxLen.toNat)
      (hg : s.regs.geometryOk = true)
      (ht : t = (((startLegal op s).withDec d).withStatus { (startLegal op s).status with decStop := ds }).withSeq .composite)

/-- run_decode of a command whose checks have passed (R125, R151). -/
theorem started_runDecode {s : State} {op : Command} {npix : Word} (hop : op ≠ .composite)
    (hn : npix.toNat ≤ s.regs.idxLen.toNat)
    (hc : op = .decodeComposite → npix.toNat = s.regs.positions ∧ s.regs.geometryOk = true) :
    Started s (runDecode (startDecoder op npix s)) := by
  rcases runDecode_cases (startDecoder op npix s) with ⟨_, h⟩ | ⟨_, _, h⟩ | ⟨hi, hm, h⟩
  · rw [h]
    cases op with
    | decode => exact .ended .decode _ .inExhausted .none rfl
    | composite => exact absurd rfl hop
    | decodeComposite =>
      obtain ⟨hpos, hg⟩ := hc rfl
      rw [stopDecode_goesOn (s := startDecoder .decodeComposite npix s) _ rfl (hpos ▸ hn) hg]
      exact .compositing .decodeComposite _ .inExhausted (by decide) (hpos ▸ hn) hg rfl
  · exact h ▸ .ended op _ .none .badMcs rfl
  · exact .decoding op npix hop hn hi hm hc h

theorem started_runComposite (s : State) : Started s (runComposite (startLegal .composite s)) := by
  rcases runComposite_cases (startLegal .composite s) with ⟨_, h⟩ | ⟨_, _, h⟩ | ⟨hn, hg, h⟩
  · exact h ▸ .ended .composite _ .none .idxRange rfl
  · exact h ▸ .ended .composite _ .none .pixRange rfl
  · exact h ▸ .compositing .composite _ .none (by decide) hn hg rfl

theorem started_commandDecode (s : State) : Started s (commandDecode (startLegal .decode s)) := by
  rcases commandDecode_cases (startLegal .decode s) with ⟨_, h⟩ | ⟨hn, h⟩
  · exact h ▸ .ended .decode _ .none .idxRange rfl
  · exact h ▸ started_runDecode (by decide) hn (fun hop => by cases hop)

/-- N fits NPIX (10_state.md R55). -/
theorem toNat_ofNat_positions (g : Regs) : (BitVec.ofNat 32 g.positions).toNat = g.positions := by
  rw [BitVec.toNat_ofNat, Nat.mod_eq_of_lt (positions_lt g)]

theorem started_commandDecodeComposite (s : State) : Started s (commandDecodeComposite (startLegal .decodeComposite s)) := by
  rcases commandDecodeComposite_cases (startLegal .decodeComposite s) with ⟨_, h⟩ | ⟨_, _, h⟩ | ⟨hn, hg, h⟩
  · exact h ▸ .ended .decodeComposite _ .none .idxRange rfl
  · exact h ▸ .ended .decodeComposite _ .none .pixRange rfl
  · have hnpix := toNat_ofNat_positions s.regs
    exact h ▸ started_runDecode (by decide) (hnpix.trans_le hn) fun _ => ⟨hnpix, hg⟩

/-- BAD_CMD starts nothing: its BUSY is never 1 (R126). -/
theorem started_startBad (s : State) : Started s (startBad s) := .ended s.op _ .none .badCmd rfl

theorem started_startCommand (w : Word) (s : State) : Started s (startCommand w s) := by
  unfold startCommand
  split
  · exact started_startBad s
  split
  · exact started_commandDecode s
  split
  · exact started_runComposite s
  split
  · exact started_commandDecodeComposite s
  · exact started_startBad s

/-! ## The host's rows -/

/-- Everything a CMD or BUS row can do. -/
inductive HostEffect (s t : State) : Prop where
  | started (hb : s.status.busy = false) (h : Started s t)
  | turnedAway (hb : s.status.busy = true) (ht : t = busyWrite s)
  | acknowledged (d : Word) (ht : t = s.withStatus (s.status.acknowledge d))
  | configured (hb : s.status.busy = false) (n : RegName) (d : Word) (ht : t = s.withRegs (s.regs.store n d))
  | ignored (ht : t = s)
  | answered (v : Word) (ht : t = answerRead v s)

theorem hostEffect_cmdWrite {body : State → State} {s : State} (h : Started s (body s)) : HostEffect s (cmdWrite body s) := by
  cases hb : s.status.busy with
  | true => exact .turnedAway hb (cmdWrite_busy hb body)
  | false => exact .started hb (cmdWrite_idle hb body ▸ h)

theorem hostEffect_writeRegister (n : RegName) (d : Word) (s : State) : HostEffect s (writeRegister n d s) := by
  rcases writeRegister_cases n d s with ⟨hb, h⟩ | ⟨hb, h⟩ | h | ⟨hb, h⟩ | h
  · exact .started hb (h ▸ started_startCommand d s)
  · exact .turnedAway hb h
  · exact .acknowledged d h
  · exact .configured hb n d h
  · exact .ignored h

theorem hostEffect_of_exec {i : Instr} {s t : State} (hf : i.format = .cmd ∨ i.format = .bus) (h : exec i s = .next t) :
    HostEffect s t := by
  cases i with
  | decode => cases h; exact hostEffect_cmdWrite (started_commandDecode s)
  | composite => cases h; exact hostEffect_cmdWrite (started_runComposite s)
  | decodeComposite => cases h; exact hostEffect_cmdWrite (started_commandDecodeComposite s)
  | badCmd w => cases h; exact hostEffect_cmdWrite (started_startBad s)
  | wr off d => exact (write_ends h).2 ▸ hostEffect_writeRegister _ d s
  | rd off =>
    obtain ⟨v, hv⟩ := read_ends h
    exact .answered v hv
  | _ => rcases hf with hf | hf <;> cases hf

/-! ## The phases -/

/-- Everything a row or the loop top of the decode phase can do: it goes on, or stops the decode, with only the decoder and IDX changed. -/
def DecodeEffect (s t : State) : Prop := ∃ u, OutsideEmission s u ∧ (t = u ∨ ∃ r, t = stopDecode r u)

/-- Everything a row or the loop top of the composite phase can do. -/
inductive CompositeEffect (s t : State) : Prop where
  | finished (ht : t = finish s)
  | skipped (ht : t = nextPosition s)
  | failed (ht : t = raiseError .ctRange s)
  | painted (c : Word) (ht : t = nextPosition (writePixel (s.regs.destOf s.cmp.cpos.toNat) c s))

theorem OutsideEmission.refl (s : State) : OutsideEmission s s := by constructor <;> rfl

theorem decodeEffect_of_exec {i : Instr} {s t : State} (hf : i.format = .code ∨ i.format = .stream) (h : exec i s = .next t) :
    DecodeEffect s t := by
  rcases hf with hf | hf
  · obtain ⟨u, hu, -, ht⟩ := code_ends hf h
    exact ⟨u, hu, ht⟩
  · obtain ⟨u, hu, -, ht⟩ := byte_ends hf h
    exact ⟨u, hu, ht⟩

theorem compositeEffect_of_exec {i : Instr} {s t : State} (hf : i.format = .index) (h : exec i s = .next t) : CompositeEffect s t := by
  cases i with
  | transparent v => cases h; exact .skipped rfl
  | ctRange v => cases h; exact .failed rfl
  | write v => cases h; exact .painted _ rfl
  | _ => cases hf

/-- Everything an instruction can do, in any state. -/
theorem exec_effect {i : Instr} {s t : State} (h : exec i s = .next t) : HostEffect s t ∨ DecodeEffect s t ∨ CompositeEffect s t := by
  cases hf : i.format with
  | cmd => exact .inl (hostEffect_of_exec (.inl hf) h)
  | bus => exact .inl (hostEffect_of_exec (.inr hf) h)
  | code => exact .inr (.inl (decodeEffect_of_exec (.inl hf) h))
  | stream => exact .inr (.inl (decodeEffect_of_exec (.inr hf) h))
  | index => exact .inr (.inr (compositeEffect_of_exec hf h))

/-- Everything the sequencer can do in a step, by its position. -/
theorem sequencer_effect {w t : State} (h : SequencerStep w t) :
    (w.seq = .idle ∧ t = w) ∨ (w.seq = .decode ∧ DecodeEffect w t) ∨ (w.seq = .composite ∧ CompositeEffect w t) := by
  cases h with
  | idle hs ht => exact .inl ⟨hs, ht⟩
  | count hs _ ht => exact .inr (.inl ⟨hs, w, .refl w, .inr ⟨_, ht⟩⟩)
  | exhausted hs _ _ _ ht => exact .inr (.inl ⟨hs, w, .refl w, .inr ⟨_, ht⟩⟩)
  | byte hs _ _ _ ht => exact .inr (.inl ⟨hs, decodeEffect_of_exec (.inr (decodeStream_format _ _)) ht⟩)
  | code hs _ _ _ _ ht =>
    obtain ⟨u, hu, ht⟩ := decodeEffect_of_exec (.inl (classifyCode_format _ _)) ht
    have hw : OutsideEmission w (w.withDec w.dec.consume) := by constructor <;> rfl
    exact .inr (.inl ⟨hs, u, hw.trans hu, ht⟩)
  | finished hs _ ht => exact .inr (.inr ⟨hs, .finished ht⟩)
  | index hs _ ht => exact .inr (.inr ⟨hs, compositeEffect_of_exec (classifyIndex_format _ _) ht⟩)

/-- A stop leaves the decode phase: it finishes, ends with an error, or goes on to the composite phase (R171, R200, R201). -/
inductive Stopped (u t : State) : Prop where
  | ended (ds : DecStop) (e : ErrCode) (ht : t = finish (u.withStatus { u.status with decStop := ds, errCode := e }))
  | compositing (ds : DecStop) (hop : u.op = .decodeComposite) (hn : u.regs.positions ≤ u.regs.idxLen.toNat)
      (hg : u.regs.geometryOk = true) (ht : t = u.compositeAfter ds)

theorem stopped_stopDecode (r : DecStop) (u : State) : Stopped u (stopDecode r u) := by
  rcases stopDecode_cases r u with ⟨_, h⟩ | ⟨hop, h⟩
  · exact h ▸ .ended r u.status.errCode rfl
  rcases runComposite_cases (u.withStatus { u.status with decStop := r }) with ⟨_, h'⟩ | ⟨_, _, h'⟩ | ⟨hn, hg, h'⟩ <;> rw [h, h']
  · exact .ended r .idxRange rfl
  · exact .ended r .pixRange rfl
  · exact .compositing r hop hn hg rfl

/-- Everything the host's or the platform's move can do. -/
theorem hostMove_effect {m : HostMove} {s t : State} (h : HostStep m s t) :
    (m = .reset ∧ t = resetBlock s) ∨
    (∃ sp k v, m = .put sp k v ∧ forbiddenPut s sp k = false ∧ t = s.withBuf (s.buf.set sp k v)) ∨
    ∃ u, (u = s ∨ u = s.script [.tick, .wait]) ∧ HostEffect u t := by
  cases h with
  | reset hm ht => exact .inl ⟨hm, ht⟩
  | put sp k v hm _ hf ht => exact .inr (.inl ⟨sp, k, v, hm, hf, ht⟩)
  | get sp k _ ht => exact .inr (.inr ⟨s, .inl rfl, .answered _ ht⟩)
  | command w _ _ ht => exact .inr (.inr ⟨s, .inl rfl, hostEffect_of_exec (.inl (decodeCmd_format w)) ht⟩)
  | write off d _ _ _ _ ht => exact .inr (.inr ⟨s, .inl rfl, hostEffect_of_exec (.inr rfl) ht⟩)
  | read off d _ _ _ ht => exact .inr (.inr ⟨s, .inl rfl, hostEffect_of_exec (.inr rfl) ht⟩)
  | wait u _ hu ht => exact .inr (.inr ⟨u, hu, hostEffect_of_exec (.inr rfl) ht⟩)

end Sys2Proof.Machine
end

section
/-! How the three commands start (40_commands.md R122 to R125, 41_lzw_decoder.md R150 to R154) and the checks that end them first. -/

namespace Sys2Proof.Machine

theorem exec_decode_idle {s : State} (hb : s.status.busy = false) : exec .decode s = .next (commandDecode (startLegal .decode s)) :=
  congrArg Host.Outcome.next (cmdWrite_idle hb _)

theorem exec_composite_idle {s : State} (hb : s.status.busy = false) : exec .composite s = .next (runComposite (startLegal .composite s)) :=
  congrArg Host.Outcome.next (cmdWrite_idle hb _)

theorem exec_decodeComposite_idle {s : State} (hb : s.status.busy = false) :
    exec .decodeComposite s = .next (commandDecodeComposite (startLegal .decodeComposite s)) :=
  congrArg Host.Outcome.next (cmdWrite_idle hb _)

/-! ## The checks, one equation each -/

theorem commandDecode_idxRange {s : State} (h : s.regs.idxLen.toNat < s.regs.pixelCount.toNat) :
    commandDecode (startLegal .decode s) = raiseError .idxRange (startDecoder .decode s.regs.pixelCount s) := by
  simp [commandDecode, h, startDecoder]

theorem commandDecode_ok {s : State} (h : s.regs.pixelCount.toNat ≤ s.regs.idxLen.toNat) :
    commandDecode (startLegal .decode s) = runDecode (startDecoder .decode s.regs.pixelCount s) := by
  simp [commandDecode, h.not_gt, startDecoder]

theorem runComposite_idxRange {s : State} (h : s.regs.idxLen.toNat < s.regs.positions) : runComposite s = raiseError .idxRange s := if_pos h

theorem runComposite_pixRange {s : State} (h : s.regs.positions ≤ s.regs.idxLen.toNat) (hg : s.regs.geometryOk = false) :
    runComposite s = raiseError .pixRange s := by
  rw [runComposite, if_neg h.not_gt, if_pos hg]

theorem commandDecodeComposite_idxRange {s : State} (h : s.regs.idxLen.toNat < s.regs.positions) :
    commandDecodeComposite s = raiseError .idxRange s := if_pos h

theorem commandDecodeComposite_pixRange {s : State} (h : s.regs.positions ≤ s.regs.idxLen.toNat) (hg : s.regs.geometryOk = false) :
    commandDecodeComposite s = raiseError .pixRange s := by
  rw [commandDecodeComposite, if_neg h.not_gt, if_pos hg]

theorem commandDecodeComposite_ok {s : State} (h : s.regs.positions ≤ s.regs.idxLen.toNat) (hg : s.regs.geometryOk = true) :
    commandDecodeComposite (startLegal .decodeComposite s) =
      runDecode (startDecoder .decodeComposite (BitVec.ofNat 32 s.regs.positions) s) := by
  simp [commandDecodeComposite, h.not_gt, hg, startDecoder]

theorem runDecode_startDecoder_empty {s : State} (op : Command) (npix : Word) (hi : s.regs.inLen = 0) :
    runDecode (startDecoder op npix s) = stopDecode .inExhausted (startDecoder op npix s) :=
  runDecode_empty (by rwa [startDecoder_regs])

theorem runDecode_startDecoder_badMcs {s : State} (op : Command) (npix : Word) (hi : s.regs.inLen ≠ 0)
    (hm : 8 < (Memory.read s.buf.inp 0).toNat) :
    runDecode (startDecoder op npix s) =
      raiseError .badMcs ((startDecoder op npix s).withDec ((startDecoder op npix s).dec.withIpos 1#32)) :=
  runDecode_badMcs (by rwa [startDecoder_regs]) (by rwa [startDecoder_buf])

/-- The command runs, in the decode phase. -/
theorem runDecode_startDecoder_ok {s : State} (op : Command) (npix : Word) (hi : s.regs.inLen ≠ 0)
    (hm : (Memory.read s.buf.inp 0).toNat ≤ 8) : runDecode (startDecoder op npix s) = decoderRuns op npix s :=
  runDecode_ok (by rwa [startDecoder_regs]) (by rwa [startDecoder_buf])

/-! ## The decoder after init_codes, init_table and init_state -/

/-- The values R151 to R154 give the decoder fit their registers, for every legal minimum code size. -/
theorem decoderStarted_start {t : State} {d : Decoder} {m : Byte} {draw : Nat} (ht : t.dec = d.start m draw) (hi : d.ipos = 1)
    (hm : m.toNat ≤ 8) : DecoderStarted t m.toNat draw := by
  have hpow : 2 ^ m.toNat ≤ 2 ^ 8 := Nat.pow_le_pow_right (by decide) hm
  have hmcs : (m.setWidth 4).toNat = m.toNat := by rw [BitVec.toNat_setWidth]; omega
  have hwidth : (m.setWidth 4 + 1#4).toNat = m.toNat + 1 := by rw [mcs_add_one_toNat (by omega), hmcs]
  have hmask : (maskOf (m.setWidth 4 + 1#4)).toNat = 2 ^ (m.toNat + 1) - 1 := by rw [maskOf_toNat (by omega), hwidth]
  unfold DecoderStarted
  rw [ht]
  refine ⟨hmcs, ?clear, ?endCode, hwidth, hmask, ?avail, rfl, rfl, rfl, rfl, rfl, rfl, hi, rfl, rfl, fun c hc => ?roots,
    fun c hc _ => ?others⟩
  case clear => exact BitVec.toNat_ofNat _ _ |>.trans (Nat.mod_eq_of_lt (by omega))
  case endCode => exact BitVec.toNat_ofNat _ _ |>.trans (Nat.mod_eq_of_lt (by omega))
  case avail => exact BitVec.toNat_ofNat _ _ |>.trans (Nat.mod_eq_of_lt (by omega))
  case roots => simp [Decoder.prefixAt, Decoder.suffixAt, Decoder.start, find_rootPrefixes hc, find_rootSuffixes hc]
  case others => simp [Decoder.prefixAt, Decoder.suffixAt, Decoder.start, find_rootPrefixes_other hc, find_rootSuffixes_other hc]

/-! The command's own start of the decoder. -/

theorem commandRuns_decoderRuns (op : Command) (npix : Word) (s : State) : CommandRuns s (decoderRuns op npix s) := by
  simp [CommandRuns]

theorem decoderStarted_decoderRuns {s : State} (op : Command) (npix : Word) (hm : (Memory.read s.buf.inp 0).toNat ≤ 8) :
    DecoderStarted (decoderRuns op npix s) (Memory.read s.buf.inp 0).toNat s.env.draws :=
  decoderStarted_start rfl rfl hm

/-! ## DECODE -/

/-- Settles O15: the check passes, so that R122's start is followed by the decoder's initialisation. -/
theorem decodeStartsTheDecoder : Obligations.DecodeStartsTheDecoder := by
  intro s hb hn hi hm
  refine ⟨_, exec_decode_idle hb, ?_⟩
  rw [commandDecode_ok hn, runDecode_startDecoder_ok _ _ hi hm]
  exact ⟨commandRuns_decoderRuns _ _ s, by simp, by simp, by simp, by simp, decoderStarted_decoderRuns _ _ hm, by simp⟩

/-- Settles O16: each check that fails ends the command with the counters R122 has cleared, IPOS 1 once the MCS byte is read. -/
theorem decodeChecksBeforeItDecodes : Obligations.DecodeChecksBeforeItDecodes := by
  intro s hb
  refine ⟨fun hn => ⟨_, exec_decode_idle hb, ?_⟩, fun hn hi => ⟨_, exec_decode_idle hb, ?_⟩,
    fun hn hi hm => ⟨_, exec_decode_idle hb, ?_⟩⟩
  · rw [commandDecode_idxRange hn]
    simp [Finished, State.counters]
  · rw [commandDecode_ok hn, runDecode_startDecoder_empty _ _ hi, stopDecode_decode (startDecoder_op _ _ s)]
    simp [Finished, State.counters]
  · rw [commandDecode_ok hn, runDecode_startDecoder_badMcs _ _ hi hm]
    simp [Finished, State.counters]

/-! ## COMPOSITE and DECODE_COMPOSITE -/

/-- Settles O17: both checks pass, so that R122's start is followed by the walk's. -/
theorem compositeStartsTheWalk : Obligations.CompositeStartsTheWalk := by
  intro s hb hn hg
  refine ⟨_, exec_composite_idle hb, ?_⟩
  rw [runComposite_ok (s := startLegal _ s) hn hg]
  simp [CommandRuns, State.counters]

/-- Settles O18: N fits NPIX, and the decoder is initialised as by DECODE. -/
theorem decodeCompositeStartsTheDecoder : Obligations.DecodeCompositeStartsTheDecoder := by
  intro s hb hn hg hi hm
  refine ⟨_, exec_decodeComposite_idle hb, ?_⟩
  rw [commandDecodeComposite_ok hn hg, runDecode_startDecoder_ok _ _ hi hm]
  exact ⟨commandRuns_decoderRuns _ _ s, by simp, by simp, by simp, toNat_ofNat_positions s.regs,
    decoderStarted_decoderRuns _ _ hm, by simp⟩

/-- Settles O19: the two commands make the same checks in the same order, on the state R122's start leaves. -/
theorem compositingCommandsCheckBeforeAnyAccess : Obligations.CompositingCommandsCheckBeforeAnyAccess := by
  rintro s i hb (rfl | rfl)
  · refine ⟨fun hn => ⟨_, exec_composite_idle hb, ?_⟩, fun hn hg => ⟨_, exec_composite_idle hb, ?_⟩⟩
    · rw [runComposite_idxRange (s := startLegal _ s) hn]
      simp [Finished, State.counters]
    · rw [runComposite_pixRange (s := startLegal _ s) hn hg]
      simp [Finished, State.counters]
  · refine ⟨fun hn => ⟨_, exec_decodeComposite_idle hb, ?_⟩, fun hn hg => ⟨_, exec_decodeComposite_idle hb, ?_⟩⟩
    · rw [commandDecodeComposite_idxRange (s := startLegal _ s) hn]
      simp [Finished, State.counters]
    · rw [commandDecodeComposite_pixRange (s := startLegal _ s) hn hg]
      simp [Finished, State.counters]

/-- Settles O20: an empty stream is a stop, which goes on to the composite phase; a bad MCS byte is an error, which does not. -/
theorem decodeCompositeWithoutAStream : Obligations.DecodeCompositeWithoutAStream := by
  intro s hb hn hg
  refine ⟨fun hi => ⟨_, exec_decodeComposite_idle hb, ?_⟩, fun hi hm => ⟨_, exec_decodeComposite_idle hb, ?_⟩⟩ <;>
    rw [commandDecodeComposite_ok hn hg]
  · rw [runDecode_startDecoder_empty _ _ hi, stopDecode_goesOn _ (startDecoder_op _ _ s) hn hg]
    simp [CommandRuns, State.compositeAfter, State.counters]
  · rw [runDecode_startDecoder_badMcs _ _ hi hm]
    simp [Finished, State.counters]

end Sys2Proof.Machine
end

section
/-! The register window: which writes reach a register and which BUSY = 1 turns away (40_commands.md R120, R128), and the words that reads
return, field by field (10_state.md R22 to R37, 40_commands.md R121). -/

namespace Sys2Proof.Machine

/-! ## The map -/

/-- Every name of the register map is CMD, STATUS, a configuration register, or one that ignores writes (R20). -/
theorem RegName.kinds (n : RegName) : n = .cmd ∨ n = .status ∨ n.isConfig = true ∨ n.isReadOnly = true := by
  cases n <;> decide

theorem regAt_eq_status_iff {off : BitVec 8} : regAt off = .status ↔ 4 ≤ off.toNat ∧ off.toNat < 8 := by
  revert off
  decide

theorem regAt_isConfig_iff {off : BitVec 8} : (regAt off).isConfig = true ↔ 8 ≤ off.toNat ∧ off.toNat < 0x38 := by
  revert off
  decide

theorem regAt_isReadOnly_iff {off : BitVec 8} : (regAt off).isReadOnly = true ↔ 0x38 ≤ off.toNat := by
  revert off
  decide

/-- STATUS stands at one aligned offset. -/
theorem eq_four_of_regAt_status {off : BitVec 8} (ha : off.toNat % 4 = 0) (h : regAt off = .status) : off = 4#8 := by
  obtain ⟨hlow, hhigh⟩ := regAt_eq_status_iff.1 h
  exact BitVec.eq_of_toNat_eq (show off.toNat = 4 by omega)

/-! ## Writes -/

theorem writeRegister_config {n : RegName} (hn : n.isConfig = true) (d : Word) (s : State) : writeRegister n d s = configWrite n d s := by
  cases n with
  | cmd | status | outCount | inPos | cmpCount | pixWritten | reserved => cases hn
  | _ => rfl

/-- R128: CMD and the configuration registers turn a write away while BUSY = 1. -/
theorem writeRegister_busy {n : RegName} {s : State} (hb : s.status.busy = true) (hn : n = .cmd ∨ n.isConfig = true) (d : Word) :
    writeRegister n d s = busyWrite s := by
  rcases hn with rfl | hn
  · exact cmdWrite_busy hb _
  · rw [writeRegister_config hn, configWrite, if_pos hb]

theorem Started.wbusy {s t : State} (h : Started s t) : t.status.wbusy = s.status.wbusy := by
  cases h with
  | ended _ _ _ _ ht => subst ht; simp
  | decoding _ _ _ _ _ _ _ ht => subst ht; simp
  | compositing _ _ _ _ _ _ ht => subst ht; simp

theorem DecodeEffect.wbusy {s t : State} (h : DecodeEffect s t) : t.status.wbusy = s.status.wbusy := by
  obtain ⟨u, hu, rfl | ⟨r, rfl⟩⟩ := h
  · rw [hu.status]
  · rw [stopDecode_wbusy, hu.status]

theorem CompositeEffect.wbusy {s t : State} (h : CompositeEffect s t) : t.status.wbusy = s.status.wbusy := by
  cases h with
  | finished ht => subst ht; simp
  | skipped ht => subst ht; simp
  | failed ht => subst ht; simp
  | painted _ ht => subst ht; simp

/-- A command word leaves WBUSY set, whether it is turned away or not (R122, R128). -/
theorem cmdWrite_wbusy {body : State → State} {s : State} (h : Started s (body s)) (hw : s.status.wbusy = true) :
    (cmdWrite body s).status.wbusy = true := by
  cases hb : s.status.busy with
  | true => rw [cmdWrite_busy hb]; rfl
  | false => rw [cmdWrite_idle hb, h.wbusy, hw]

/-- A register write leaves WBUSY set, unless it is a STATUS write (R130). -/
theorem writeRegister_wbusy {n : RegName} {d : Word} {s : State} (hn : n ≠ .status) (hw : s.status.wbusy = true) :
    (writeRegister n d s).status.wbusy = true := by
  rcases n.kinds with rfl | h | h | h
  · exact cmdWrite_wbusy (started_startCommand d s) hw
  · exact absurd h hn
  · rw [writeRegister_config h, configWrite]
    split
    · rfl
    · exact hw
  · rw [writeRegister_readOnly h, hw]

/-- Only a STATUS write with bit 4 set clears WBUSY (R128, R130). -/
theorem statusWrite_of_wbusy_cleared {i : Instr} {s t : State} (h : exec i s = .next t) (hw : s.status.wbusy = true)
    (hc : t.status.wbusy = false) : ∃ d : Word, i = .wr 4 d ∧ d.getLsbD 4 = true := by
  have kept : t.status.wbusy = true → ∃ d : Word, i = .wr 4 d ∧ d.getLsbD 4 = true := fun hk => absurd hk (by simp [hc])
  cases i with
  | decode => cases h; exact kept (cmdWrite_wbusy (started_commandDecode s) hw)
  | composite => cases h; exact kept (cmdWrite_wbusy (started_runComposite s) hw)
  | decodeComposite => cases h; exact kept (cmdWrite_wbusy (started_commandDecodeComposite s) hw)
  | badCmd w => cases h; exact kept (cmdWrite_wbusy (started_startBad s) hw)
  | wr off d =>
    obtain ⟨hmis, rfl⟩ := write_ends h
    by_cases hn : regAt off = .status
    · have ha : off.toNat % 4 = 0 := by simpa [misaligned] using hmis
      obtain rfl := eq_four_of_regAt_status ha hn
      have hclear : (s.status.wbusy && !d.getLsbD 4) = false := hc
      exact ⟨d, rfl, by simpa [hw] using hclear⟩
    · exact kept (writeRegister_wbusy hn hw)
  | rd off =>
    obtain ⟨v, rfl⟩ := read_ends h
    exact kept hw
  | clear | endCode | range | first | defined | kwkwk => exact kept ((decodeEffect_of_exec (.inl rfl) h).wbusy.trans hw)
  | blockHeader | dataByte => exact kept ((decodeEffect_of_exec (.inr rfl) h).wbusy.trans hw)
  | transparent | ctRange | write => exact kept ((compositeEffect_of_exec rfl h).wbusy.trans hw)

/-- R128: a command word is turned away while BUSY = 1, whatever it is. -/
theorem exec_cmd_busy {i : Instr} {s : State} (hf : i.format = .cmd) (hb : s.status.busy = true) : exec i s = .next (busyWrite s) := by
  have hcmd (body : State → State) : Host.Outcome.next (cmdWrite body s) =
      (.next (busyWrite s) : Host.Outcome State Fault Refusal) := congrArg _ (cmdWrite_busy hb body)
  cases i with
  | decode | composite | decodeComposite | badCmd => exact hcmd _
  | _ => cases hf

/-- Settles O22. -/
theorem writesWhileBusyAreTurnedAway : Obligations.WritesWhileBusyAreTurnedAway := by
  refine ⟨fun s w d off hb ha hr hoff => ?_, fun i s t => statusWrite_of_wbusy_cleared⟩
  have hreg : regAt off = .cmd ∨ (regAt off).isConfig = true := by
    rcases (regAt off).kinds with h | h | h | h
    · exact .inl h
    · exact absurd (eq_four_of_regAt_status ha h) hoff
    · exact .inr h
    · have := regAt_isReadOnly_iff.1 h
      omega
  exact ⟨exec_cmd_busy rfl hb, exec_cmd_busy rfl hb, exec_cmd_busy rfl hb, exec_cmd_busy rfl hb,
    by rw [exec_wr_aligned ha, writeRegister_busy hb hreg]; rfl⟩

/-- A write to CMD of an idle block is start_command of the word (R120, R122). -/
theorem exec_wr_cmd_idle {s : State} (hb : s.status.busy = false) (w : Word) : exec (.wr 0 w) s = .next (startCommand w s) := by
  rw [exec_wr_aligned (by decide)]
  exact congrArg Host.Outcome.next (cmdWrite_idle hb _)

/-- Settles O23: an idle block starts the command either way, a busy one turns it away either way. -/
theorem cmdRegisterWriteIsTheCommand : Obligations.CmdRegisterWriteIsTheCommand := by
  intro s w i hd
  cases hd
  cases hb : s.status.busy with
  | true =>
    rw [exec_cmd_busy (decodeCmd_format w) hb, exec_wr_aligned (by decide)]
    exact congrArg Host.Outcome.next (writeRegister_busy hb (.inl rfl) w)
  | false => rw [exec_wr_cmd_idle hb, exec_decodeCmd w s hb]

/-! ## The fields of a word -/

theorem getLsbD_bitAt (b : Bool) (n : Nat) {i : Nat} (hi : i < 32) : (bitAt b n).getLsbD i = (b && decide (n = i)) := by
  rw [bitAt, BitVec.getLsbD_ofNat]
  cases b <;> simp [hi, Nat.testBit_two_pow]

/-- A field placed above what it is ORed to is added to it. -/
theorem or_mul_two_pow {a b i : Nat} (h : a < 2 ^ i) : a ||| b * 2 ^ i = a + b * 2 ^ i := by
  rw [Nat.or_comm, Nat.mul_comm, ← Nat.two_pow_add_eq_or_of_lt h, Nat.add_comm]

theorem toNat_bitAt (b : Bool) {n : Nat} (hn : n < 32) : (bitAt b n).toNat = b.toNat * 2 ^ n := by
  rw [bitAt, BitVec.toNat_ofNat, Nat.mod_eq_of_lt]
  calc b.toNat * 2 ^ n ≤ 1 * 2 ^ n := Nat.mul_le_mul_right _ (Bool.toNat_le b)
    _ < 2 ^ 32 := by rw [Nat.one_mul]; exact Nat.pow_lt_pow_right (by decide) hn

/-- The STATUS word as the sum of its fields, which do not overlap (R22). -/
theorem toNat_statusBits (busy done err wbusy : Bool) {ds ec : Nat} (hds : ds < 16) (hec : ec < 16) :
    (statusBits busy done err wbusy ds ec).toNat =
      busy.toNat + done.toNat * 2 + err.toNat * 4 + wbusy.toNat * 16 + ds * 256 + ec * 65536 := by
  have hb := Bool.toNat_le busy
  have hd := Bool.toNat_le done
  have he := Bool.toNat_le err
  have hw := Bool.toNat_le wbusy
  have hdsWord : (BitVec.ofNat 32 (ds * 2 ^ 8)).toNat = ds * 2 ^ 8 := by rw [BitVec.toNat_ofNat]; omega
  have hecWord : (BitVec.ofNat 32 (ec * 2 ^ 16)).toNat = ec * 2 ^ 16 := by rw [BitVec.toNat_ofNat]; omega
  simp only [statusBits, BitVec.toNat_or, toNat_bitAt _ (show 0 < 32 by decide), toNat_bitAt _ (show 1 < 32 by decide),
    toNat_bitAt _ (show 2 < 32 by decide), toNat_bitAt _ (show 4 < 32 by decide), hdsWord, hecWord]
  rw [or_mul_two_pow (i := 1) (by omega), or_mul_two_pow (i := 2) (by omega), or_mul_two_pow (i := 4) (by omega),
    or_mul_two_pow (i := 8) (by omega), or_mul_two_pow (i := 16) (by omega)]
  omega

theorem DecStop.code_lt (d : DecStop) : d.code < 16 := by cases d <;> decide
theorem ErrCode.code_lt (e : ErrCode) : e.code < 16 := by cases e <;> decide

/-- A word of the low `n` bits. -/
theorem getLsbD_and_lowMask (v : Word) (n : Nat) {i : Nat} (hi : i < 32) :
    (v &&& BitVec.ofNat 32 (2 ^ n - 1)).getLsbD i = (v.getLsbD i && decide (i < n)) := by
  rw [BitVec.getLsbD_and, BitVec.getLsbD_ofNat, Nat.testBit_two_pow_sub_one]
  simp [hi]

/-! ## The configuration registers -/

theorem setWidth_extractLsb_eq_and (v : Word) (n : Nat) :
    (v.extractLsb' 0 n).setWidth 32 = v &&& BitVec.ofNat 32 (2 ^ n - 1) := by
  apply BitVec.eq_of_getLsbD_eq
  intro i hi
  rw [getLsbD_and_lowMask v n hi]
  simp [BitVec.getLsbD_extractLsb', hi, Bool.and_comm]

theorem load_store_mode (v : Word) : bitAt (v.getLsbD 0) 0 ||| bitAt (v.getLsbD 1) 1 = v &&& 0x00000003#32 := by
  apply BitVec.eq_of_getLsbD_eq
  intro i hi
  rw [show (0x00000003#32) = BitVec.ofNat 32 (2 ^ 2 - 1) from rfl, getLsbD_and_lowMask v 2 hi, BitVec.getLsbD_or, getLsbD_bitAt _ _ hi,
    getLsbD_bitAt _ _ hi]
  rcases i with _ | _ | i <;> simp

theorem load_store_transp (v : Word) : (v.extractLsb' 0 8).setWidth 32 ||| bitAt (v.getLsbD 8) 8 = v &&& 0x000001FF#32 := by
  apply BitVec.eq_of_getLsbD_eq
  intro i hi
  rw [show (0x000001FF#32) = BitVec.ofNat 32 (2 ^ 9 - 1) from rfl, getLsbD_and_lowMask v 9 hi, BitVec.getLsbD_or,
    setWidth_extractLsb_eq_and, getLsbD_and_lowMask v 8 hi, getLsbD_bitAt _ _ hi]
  rcases Nat.lt_trichotomy i 8 with h | rfl | h
  · simp [h, h.ne', h.trans (Nat.lt_succ_self 8)]
  · simp
  · simp [h.ne, h.not_gt, Nat.not_lt.2 (Nat.succ_le_of_lt h)]

theorem toNat_legalCtLen (v : Word) : (legalCtLen v).toNat = min v.toNat 256 := by
  rw [legalCtLen, BitVec.toNat_ofNat, Nat.mod_eq_of_lt (by omega)]

theorem load_store_ctLen (v : Word) : (legalCtLen v).setWidth 32 = if v.toNat ≤ 256 then v else 256#32 := by
  apply BitVec.eq_of_toNat_eq
  rw [BitVec.toNat_setWidth, toNat_legalCtLen]
  split
  · omega
  · show min v.toNat 256 % 2 ^ 32 = 256
    omega

/-- A configuration register reads as the legal bits it has stored (R25 to R33). -/
theorem load_store_same {n : RegName} (hn : n.isConfig = true) (r : Regs) (v : Word) : (r.store n v).load n = legalValue n v := by
  cases n with
  | mode => exact load_store_mode v
  | transp => exact load_store_transp v
  | ctLen => exact load_store_ctLen v
  | inLen | pixelCount | idxLen => rfl
  | imgW | imgH | frameW | frameH | offX | offY => exact setWidth_extractLsb_eq_and v 16
  | _ => cases hn

theorem load_store_other {n m : RegName} (h : m ≠ n) (r : Regs) (v : Word) : (r.store n v).load m = r.load m := by
  cases n <;> cases m
  case mode.mode | transp.transp | inLen.inLen | pixelCount.pixelCount | idxLen.idxLen | ctLen.ctLen | imgW.imgW | imgH.imgH |
    frameW.frameW | frameH.frameH | offX.offX | offY.offY => exact absurd rfl h
  all_goals rfl

theorem readRegister_config {n : RegName} (hn : n.isConfig = true) (s : State) : readRegister n s = s.regs.load n := by
  cases n with
  | cmd | status | outCount | inPos | cmpCount | pixWritten | reserved => cases hn
  | _ => rfl

/-- Settles O24: the write stores one register, which its next read loads. -/
theorem configWriteStoresTheLegalValue : Obligations.ConfigWriteStoresTheLegalValue := by
  intro s off d hb ha hlow hhigh
  have hn : (regAt off).isConfig = true := regAt_isConfig_iff.2 ⟨hlow, by omega⟩
  have hstore : exec (.wr off d) s = .next (s.withRegs (s.regs.store (regAt off) d)) := by
    rw [exec_wr_aligned ha, writeRegister_config hn, configWrite, if_neg (by simp [hb])]
  refine ⟨_, hstore, rfl, ⟨_, exec_rd_aligned ha _, ?_⟩, fun m hm => load_store_other hm _ _⟩
  rw [answerRead_rdata, readRegister_config hn]
  exact load_store_same hn _ _

/-! ## Reads -/

/-- Settles O28: a read hands a value to the host and takes a draw. -/
theorem readHasNoSideEffect : Obligations.ReadHasNoSideEffect :=
  fun s _ ha => ⟨_, exec_rd_aligned ha s, rfl⟩

/-- The read of a register, and its value. -/
theorem exec_rd_eq {off : BitVec 8} {n : RegName} {s : State} {v : Word} (ha : off.toNat % 4 = 0) (hn : regAt off = n)
    (h : readRegister n s = v) : ∃ t, exec (.rd off) s = .next t ∧ t.env.rdata = v :=
  ⟨_, exec_rd_aligned ha s, by rw [answerRead_rdata, hn, h]⟩

theorem exec_rd_toNat {off : BitVec 8} {n : RegName} {s : State} {v : Nat} (ha : off.toNat % 4 = 0) (hn : regAt off = n)
    (h : (readRegister n s).toNat = v) : ∃ t, exec (.rd off) s = .next t ∧ t.env.rdata.toNat = v :=
  ⟨_, exec_rd_aligned ha s, by rw [answerRead_rdata, hn, h]⟩

theorem toNat_load_mode (r : Regs) : (r.load .mode).toNat = r.interlaced.toNat + r.irqEn.toNat * 2 := by
  have hi := Bool.toNat_le r.interlaced
  rw [Regs.load, BitVec.toNat_or, toNat_bitAt _ (by decide), toNat_bitAt _ (by decide), or_mul_two_pow (by omega)]
  omega

theorem toNat_load_transp (r : Regs) : (r.load .transp).toNat = r.tindex.toNat + r.ten.toNat * 256 := by
  have ht := r.tindex.isLt
  rw [Regs.load, BitVec.toNat_or, BitVec.toNat_setWidth, toNat_bitAt _ (by decide), Nat.mod_eq_of_lt (by omega), or_mul_two_pow ht]
  omega

/-- Zero extension to a register word keeps the value. -/
theorem toNat_zeroExtend {n : Nat} (x : BitVec n) (hn : n ≤ 32) : (x.setWidth 32).toNat = x.toNat := by
  rw [BitVec.toNat_setWidth, Nat.mod_eq_of_lt (x.isLt.trans_le (Nat.pow_le_pow_right (by decide) hn))]

/-- STATUS of an idle block, field by field (R22). -/
theorem toNat_word_idle {t : Status} (hb : t.busy = false) (draw : Nat) : (t.word draw).toNat =
    t.done.toNat * 2 + (if t.errCode = .none then 0 else 4) + t.wbusy.toNat * 16 + t.decStop.code * 256 + t.errCode.code * 65536 := by
  have herr : t.err.toNat * 4 = if t.errCode = .none then 0 else 4 := by
    cases he : t.errCode <;> simp [Status.err, he]
  rw [Status.word, if_neg (by simp [hb]), toNat_statusBits _ _ _ _ t.decStop.code_lt t.errCode.code_lt, herr]
  simp

theorem resultRead_idle {s : State} (hb : s.status.busy = false) (v : Word) : resultRead v s = v := if_neg (by simp [hb])

/-- Settles O27, register by register. -/
theorem idleReadReturnsTheRegister : Obligations.IdleReadReturnsTheRegister := by
  intro s
  refine ⟨exec_rd_eq rfl rfl rfl, ?mode, ?transp, exec_rd_eq rfl rfl rfl, exec_rd_eq rfl rfl rfl, exec_rd_eq rfl rfl rfl, ?ctLen, ?imgW,
    ?imgH, ?frameW, ?frameH, ?offX, ?offY, fun hb => ⟨?status, ?outCount, ?inPos, ?cmpCount, ?pixWritten⟩⟩
  case mode => exact exec_rd_toNat rfl rfl (toNat_load_mode s.regs)
  case transp => exact exec_rd_toNat rfl rfl (toNat_load_transp s.regs)
  case ctLen => exact exec_rd_toNat rfl rfl (toNat_zeroExtend s.regs.ctLen (by decide))
  case imgW => exact exec_rd_toNat rfl rfl (toNat_zeroExtend s.regs.imgW (by decide))
  case imgH => exact exec_rd_toNat rfl rfl (toNat_zeroExtend s.regs.imgH (by decide))
  case frameW => exact exec_rd_toNat rfl rfl (toNat_zeroExtend s.regs.frameW (by decide))
  case frameH => exact exec_rd_toNat rfl rfl (toNat_zeroExtend s.regs.frameH (by decide))
  case offX => exact exec_rd_toNat rfl rfl (toNat_zeroExtend s.regs.offX (by decide))
  case offY => exact exec_rd_toNat rfl rfl (toNat_zeroExtend s.regs.offY (by decide))
  case status => exact exec_rd_toNat rfl rfl (toNat_word_idle hb _)
  case outCount => exact exec_rd_eq rfl rfl (resultRead_idle hb _)
  case inPos => exact exec_rd_eq rfl rfl (resultRead_idle hb _)
  case cmpCount => exact exec_rd_eq rfl rfl (resultRead_idle hb _)
  case pixWritten => exact exec_rd_eq rfl rfl (resultRead_idle hb _)

/-- A four-bit field at bit `n` of a word. -/
theorem getLsbD_field (x : BitVec 4) (n : Nat) {i : Nat} (hi : i < 32) :
    (BitVec.ofNat 32 (x.toNat * 2 ^ n)).getLsbD i = (decide (n ≤ i) && x.getLsbD (i - n)) := by
  rw [BitVec.getLsbD_ofNat, Nat.testBit_mul_two_pow]
  simp [hi, BitVec.getLsbD]

/-- STATUS of a busy block, bit by bit: a bit is one of BUSY, ERR, WBUSY, or of the two fields (R22). -/
theorem getLsbD_word_busy {t : Status} (hb : t.busy = true) (draw : Nat) {i : Nat} (hi : i < 32) :
    (t.word draw).getLsbD i = (decide (0 = i) || (Config.busyRead draw).getLsbD 2 && decide (2 = i) || t.wbusy && decide (4 = i) ||
      decide (8 ≤ i) && ((Config.busyRead draw).extractLsb' 8 4).getLsbD (i - 8) ||
      decide (16 ≤ i) && ((Config.busyRead draw).extractLsb' 16 4).getLsbD (i - 16)) := by
  rw [Status.word, if_pos hb]
  simp only [statusBits, BitVec.getLsbD_or, getLsbD_bitAt _ _ hi, getLsbD_field _ _ hi, Bool.true_and, Bool.false_and, Bool.or_false]

/-- Settles O29: of the busy word's bits only ERR and the two fields come from the draw, and a four-bit field ends below the reserved bits
above it. -/
theorem busyStatusReadShowsItsValidBits : Obligations.BusyStatusReadShowsItsValidBits := by
  intro s hb
  have hread : (answerRead (readRegister (regAt 4) s) s).env.rdata = s.status.word s.env.draws := rfl
  have hbit {i : Nat} (hi : i < 32) := getLsbD_word_busy hb s.env.draws hi
  refine ⟨_, exec_rd_aligned rfl s, ?_⟩
  rw [hread]
  refine ⟨?_, ?_, ?_, BitVec.eq_of_getLsbD_eq fun i hi => ?_⟩
  · rw [hbit (by decide)]; simp
  · rw [hbit (by decide)]; simp
  · rw [hbit (by decide)]; simp
  · rw [BitVec.getLsbD_and, hbit hi]
    interval_cases i <;> simp

/-- Settles O30: whatever register an offset names, its value is 0 after reset. -/
theorem everyRegisterReadsZeroAfterReset : Obligations.EveryRegisterReadsZeroAfterReset := by
  refine ⟨fun off ha => ⟨_, exec_rd_aligned ha State.reset, ?_⟩, rfl, rfl⟩
  rw [answerRead_rdata]
  cases regAt off <;> rfl

end Sys2Proof.Machine
end

section
/-! What every step keeps (10_state.md R22, R40, R42, R43, R55; 41_lzw_decoder.md R174; 42_compositor.md R213): the arrays, the sequencer,
the configuration, the ranges of the datapath; and how a command ends (40_commands.md R127, 60_exceptions.md R235). -/

namespace Sys2Proof.Machine

/-- `step_ways` with the state the move is made from written out: `s` with some rest of its script. -/
theorem step_ways_pop {s t : State} (h : step s = .next t) :
    ∃ rest, SequencerStep (s.pop rest) t ∨ ∃ m, s.env.host = m :: rest ∧ HostStep m (s.pop rest) t := by
  rcases step_ways h with ⟨w, ⟨-, rfl⟩ | ⟨rest, -, rfl⟩, hw⟩ | ⟨m, rest, -, hhost, hm⟩
  · exact ⟨w.env.host, .inl hw⟩
  · exact ⟨rest, .inl hw⟩
  · exact ⟨rest, .inr ⟨m, hhost, hm⟩⟩

/-! ## The arrays -/

theorem arraysOk_hostStep {m : HostMove} {s t : State} (h : s.arraysOk) (hs : HostStep m s t) : t.arraysOk := by
  cases hs with
  | reset _ ht => exact ht ▸ arraysOk_resetBlock h
  | put sp k v _ _ _ ht => exact ht ▸ arraysOk_set h sp k v
  | get _ _ _ ht => exact ht ▸ h
  | command w _ _ ht => exact arraysOk_exec h (fun hf => by rw [decodeCmd_format] at hf; cases hf) ht
  | write _ _ _ _ _ _ ht => exact arraysOk_exec h (fun hf => by cases hf) ht
  | read _ _ _ _ _ ht => exact arraysOk_exec h (fun hf => by cases hf) ht
  | wait u _ hu ht =>
    have hu' : u.arraysOk := by rcases hu with rfl | rfl <;> exact h
    exact arraysOk_exec hu' (fun hf => by cases hf) ht

/-- Settles O50: the sequencer runs a code below the count stop only, and no other move pushes. -/
theorem stepKeepsTheArraysInRange : Obligations.StepKeepsTheArraysInRange := by
  intro s t h hst
  obtain ⟨rest, hs | ⟨m, -, hm⟩⟩ := step_ways_pop hst
  · exact arraysOk_sequencerStep (w := s.pop rest) h hs
  · exact arraysOk_hostStep (s := s.pop rest) h hm

/-- Settles O49: nothing is listed, and IDLE asks nothing of the datapath. -/
theorem resetMeetsTheInvariant : Obligations.ResetMeetsTheInvariant :=
  ⟨by decide, by decide, by decide, (fun hs => by cases hs), (fun hs => by cases hs)⟩

/-! ## The sequencer -/

theorem controlOk_congr {s t : State} (h : s.controlOk) (hseq : t.seq = s.seq) (hop : t.op = s.op) (hst : t.status = s.status) :
    t.controlOk := by
  unfold State.controlOk at *
  rwa [hseq, hop, hst]

theorem controlOk_finish (s : State) : (finish s).controlOk := by simp [State.controlOk]

theorem controlOk_started {s t : State} (h : Started s t) : t.controlOk := by
  cases h with
  | ended op d ds e ht => exact ht ▸ controlOk_finish _
  | decoding op npix hop _ _ _ _ ht => subst ht; simp [State.controlOk, hop]
  | compositing op d ds hop _ _ ht => subst ht; simp [State.controlOk, hop]

theorem controlOk_hostEffect {s t : State} (h : s.controlOk) (hs : HostEffect s t) : t.controlOk := by
  cases hs with
  | started _ h' => exact controlOk_started h'
  | turnedAway _ ht => exact ht ▸ h
  | acknowledged d ht =>
    obtain ⟨hbusy, hdone, hrest⟩ := h
    subst ht
    exact ⟨hbusy, fun hb => by rw [State.withStatus_status, acknowledge_done, hdone hb, Bool.false_and], hrest⟩
  | configured _ _ _ ht => exact ht ▸ h
  | ignored ht => exact ht ▸ h
  | answered _ ht => exact ht ▸ h

theorem controlOk_stopDecode {r : DecStop} {u : State} (h : u.controlOk) (hs : u.seq = .decode) : (stopDecode r u).controlOk := by
  cases stopped_stopDecode r u with
  | ended ds e ht => exact ht ▸ controlOk_finish _
  | compositing ds hop _ _ ht =>
    rw [ht]
    obtain ⟨hbusy, hdone, herr, -, -, -⟩ := h
    simp_all [State.controlOk, State.compositeAfter]

theorem controlOk_sequencerStep {w t : State} (h : w.controlOk) (hs : SequencerStep w t) : t.controlOk := by
  rcases sequencer_effect hs with ⟨-, rfl⟩ | ⟨hseq, u, hu, ht⟩ | ⟨-, hc⟩
  · exact h
  · have hu' := controlOk_congr h hu.seq hu.op hu.status
    rcases ht with rfl | ⟨r, rfl⟩
    · exact hu'
    · exact controlOk_stopDecode hu' (hu.seq.trans hseq)
  · cases hc with
    | finished ht => exact ht ▸ controlOk_finish _
    | skipped ht => subst ht; exact controlOk_congr h (by simp) (by simp) (by simp)
    | failed ht => exact ht ▸ controlOk_finish _
    | painted _ ht => subst ht; exact controlOk_congr h (by simp) (by simp) (by simp)

theorem controlOk_hostStep {m : HostMove} {s t : State} (h : s.controlOk) (hs : HostStep m s t) : t.controlOk := by
  rcases hostMove_effect hs with ⟨-, rfl⟩ | ⟨sp, k, v, -, -, rfl⟩ | ⟨u, hu, he⟩
  · simp [State.controlOk, Status.reset]
  · exact h
  · have hu' : u.controlOk := by rcases hu with rfl | rfl <;> exact h
    exact controlOk_hostEffect hu' he

/-- Settles O51: a start, a stop and an end each set SEQ, BUSY and DONE together; everything else leaves them. -/
theorem stepKeepsTheSequencerConsistent : Obligations.StepKeepsTheSequencerConsistent := by
  intro s t h hst
  obtain ⟨rest, hs | ⟨m, -, hm⟩⟩ := step_ways_pop hst
  · exact controlOk_sequencerStep (w := s.pop rest) h hs
  · exact controlOk_hostStep (s := s.pop rest) h hm

/-! ## The configuration -/

theorem Started.regs {s t : State} (h : Started s t) : t.regs = s.regs := by
  cases h with
  | ended _ _ _ _ ht => subst ht; simp
  | decoding _ _ _ _ _ _ _ ht => subst ht; simp
  | compositing _ _ _ _ _ _ ht => subst ht; simp

theorem DecodeEffect.regs {s t : State} (h : DecodeEffect s t) : t.regs = s.regs := by
  obtain ⟨u, hu, rfl | ⟨r, rfl⟩⟩ := h
  · exact hu.regs
  · rw [stopDecode_regs, hu.regs]

theorem CompositeEffect.regs {s t : State} (h : CompositeEffect s t) : t.regs = s.regs := by
  cases h with
  | finished ht => exact ht ▸ finish_regs s
  | skipped ht => exact ht ▸ nextPosition_regs s
  | failed ht => exact ht ▸ raiseError_regs _ s
  | painted c ht => exact ht ▸ (nextPosition_regs _).trans (writePixel_regs _ c s)

/-- No step of the sequencer touches the configuration. -/
theorem sequencerStep_regs {w t : State} (h : SequencerStep w t) : t.regs = w.regs := by
  rcases sequencer_effect h with ⟨-, rfl⟩ | ⟨-, hd⟩ | ⟨-, hc⟩
  · rfl
  · exact hd.regs
  · exact hc.regs

/-- A write changes the configuration of an idle block only, at a configuration register (R120, R128). -/
theorem writeRegister_regs {n : RegName} {d : Word} {s : State} (h : (writeRegister n d s).regs ≠ s.regs) :
    s.status.busy = false ∧ n.isConfig = true := by
  rcases n.kinds with rfl | rfl | hn | hn
  · refine absurd ?_ h
    cases hb : s.status.busy with
    | true => rw [writeRegister_busy hb (.inl rfl)]; rfl
    | false => exact (congrArg State.regs (cmdWrite_idle hb _)).trans (started_startCommand d s).regs
  · exact absurd rfl h
  · refine ⟨?_, hn⟩
    by_contra hb
    rw [writeRegister_busy (by simpa using hb) (.inr hn)] at h
    exact h rfl
  · rw [writeRegister_readOnly hn] at h
    exact absurd rfl h

/-- Settles O53: of all moves only a reset and an aligned write to a configuration register of an idle block change the configuration. -/
theorem configurationChangesOnlyByTheHost : Obligations.ConfigurationChangesOnlyByTheHost := by
  intro s t hst hne
  obtain ⟨rest, hs | ⟨m, hhost, hm⟩⟩ := step_ways_pop hst
  · exact absurd (sequencerStep_regs hs) hne
  cases hm with
  | reset hm _ => exact .inl ⟨rest, hm ▸ hhost⟩
  | put sp k v _ _ _ ht => exact absurd (ht ▸ rfl) hne
  | get sp k _ ht => exact absurd (ht ▸ rfl) hne
  | command w _ hb ht =>
    rw [exec_decodeCmd w _ hb] at ht
    cases ht
    exact absurd (started_startCommand w (s.pop rest)).regs hne
  | write off d hm ha hr _ ht =>
    obtain ⟨-, rfl⟩ := write_ends ht
    obtain ⟨hb, hconf⟩ := writeRegister_regs hne
    obtain ⟨hlow, hhigh⟩ := regAt_isConfig_iff.1 hconf
    rw [toNat_ofNat_offset hr] at hlow hhigh
    exact .inr ⟨hb, off, d, rest, hm ▸ hhost, hlow, by omega⟩
  | read off d _ _ _ ht =>
    obtain ⟨v, rfl⟩ := read_ends ht
    exact absurd rfl hne
  | wait u _ hu ht =>
    obtain ⟨v, rfl⟩ := read_ends ht
    rcases hu with rfl | rfl <;> exact absurd rfl hne

/-! ## The end of a command -/

theorem endsWithDone_finish (s u : State) : EndsWithDone s (finish u) := by
  simp [EndsWithDone, State.irq, State.counters]

/-- What neither lets BUSY fall nor DONE rise ends nothing. -/
theorem endsWithDone_of_status {s t : State} (hb : s.status.busy = true → t.status.busy = true)
    (hd : t.status.done = true → s.status.done = true) : EndsWithDone s t :=
  ⟨fun h h' => absurd (hb h) (by simp [h']), fun h h' => absurd (hd h') (by simp [h])⟩

theorem endsWithDone_started {s t : State} (hb : s.status.busy = false) (h : Started s t) : EndsWithDone s t := by
  cases h with
  | ended _ _ _ _ ht => exact ht ▸ endsWithDone_finish s _
  | decoding _ _ _ _ _ _ _ ht => subst ht; exact endsWithDone_of_status (by simp [hb]) (by simp)
  | compositing _ _ _ _ _ _ ht => subst ht; exact endsWithDone_of_status (by simp [hb]) (by simp)

theorem endsWithDone_hostEffect {s t : State} (h : HostEffect s t) : EndsWithDone s t := by
  cases h with
  | started hb h' => exact endsWithDone_started hb h'
  | turnedAway _ ht => subst ht; exact endsWithDone_of_status id id
  | acknowledged d ht =>
    subst ht
    refine endsWithDone_of_status id fun hd => ?_
    rw [State.withStatus_status, acknowledge_done, Bool.and_eq_true] at hd
    exact hd.1
  | configured _ _ _ ht => subst ht; exact endsWithDone_of_status id id
  | ignored ht => subst ht; exact endsWithDone_of_status id id
  | answered _ ht => subst ht; exact endsWithDone_of_status id id

theorem endsWithDone_decodeEffect {s t : State} (h : DecodeEffect s t) : EndsWithDone s t := by
  obtain ⟨u, hu, rfl | ⟨r, rfl⟩⟩ := h
  · exact endsWithDone_of_status (by rw [hu.status]; exact id) (by rw [hu.status]; exact id)
  · cases stopped_stopDecode r u with
    | ended ds e ht => exact ht ▸ endsWithDone_finish s _
    | compositing ds _ _ _ ht =>
      rw [ht]
      exact endsWithDone_of_status (by simp [State.compositeAfter, hu.status]) (by simp [State.compositeAfter, hu.status])

theorem endsWithDone_compositeEffect {s t : State} (h : CompositeEffect s t) : EndsWithDone s t := by
  cases h with
  | finished ht => exact ht ▸ endsWithDone_finish s _
  | skipped ht => subst ht; exact endsWithDone_of_status id id
  | failed ht => exact ht ▸ endsWithDone_finish s _
  | painted _ ht => subst ht; exact endsWithDone_of_status id id

theorem endsWithDone_exec {i : Instr} {s t : State} (h : exec i s = .next t) : EndsWithDone s t := by
  rcases exec_effect h with h | h | h
  · exact endsWithDone_hostEffect h
  · exact endsWithDone_decodeEffect h
  · exact endsWithDone_compositeEffect h

theorem endsWithDone_sequencerStep {w t : State} (h : SequencerStep w t) : EndsWithDone w t := by
  rcases sequencer_effect h with ⟨-, rfl⟩ | ⟨-, h⟩ | ⟨-, h⟩
  · exact endsWithDone_of_status id id
  · exact endsWithDone_decodeEffect h
  · exact endsWithDone_compositeEffect h

/-- Settles O58: BUSY falls and DONE rises in finish() alone. -/
theorem everyEndRaisesTheInterrupt : Obligations.EveryEndRaisesTheInterrupt := by
  refine ⟨fun s t hst hreset => ?_, fun i s t => endsWithDone_exec⟩
  obtain ⟨rest, hs | ⟨m, hhost, hm⟩⟩ := step_ways_pop hst
  · exact endsWithDone_sequencerStep (w := s.pop rest) hs
  · rcases hostMove_effect hm with ⟨rfl, -⟩ | ⟨sp, k, v, -, -, rfl⟩ | ⟨u, hu, h⟩
    · exact absurd hhost (hreset rest)
    · exact endsWithDone_of_status id id
    · have hu' : EndsWithDone u t := endsWithDone_hostEffect h
      rcases hu with rfl | rfl <;> exact hu'

end Sys2Proof.Machine
end

section
/-! The whole invariant, kept by every step: in the decode phase every datapath value has its legal range (10_state.md R42, R55), in the
composite phase the walk stays inside IDX and PIX (R43, 42_compositor.md R213). -/

namespace Sys2Proof.Machine

/-! ## The parts of the decode phase's range -/

/-- CLEAR and END are those of the minimum code size (R152). -/
def CodesOk (d : Decoder) : Prop :=
  d.mcs.toNat ≤ 8 ∧ d.clear.toNat = 2 ^ d.mcs.toNat ∧ d.endCode.toNat = d.clear.toNat + 1

/-- The width, the mask and AVAIL (R152, R169): AVAIL is at most one above the codes of the width, and at its start without a previous
code. -/
def WidthOk (d : Decoder) : Prop :=
  1 ≤ d.csize.toNat ∧ d.csize.toNat ≤ 12 ∧ d.mask.toNat = 2 ^ d.csize.toNat - 1 ∧ d.clear.toNat + 2 ≤ d.avail.toNat ∧
    d.avail.toNat ≤ 4096 ∧ d.avail.toNat ≤ 2 ^ d.csize.toNat + 1 ∧ (d.prevV = false → d.avail.toNat = d.clear.toNat + 2)

/-- The bit accumulator holds NBITS bits, at most 19 (R157). -/
def BitsOk (d : Decoder) : Prop := d.nbits.toNat ≤ 19 ∧ d.acc.toNat < 2 ^ d.nbits.toNat

/-- The cursors stay inside IN and IDX (R174). -/
def CursorsOk (s : State) : Prop :=
  s.dec.ocnt.toNat ≤ s.dec.npix.toNat ∧ s.dec.npix.toNat ≤ s.regs.idxLen.toNat ∧ s.dec.ipos.toNat ≤ s.regs.inLen.toNat

/-- The composite phase that follows has not begun, and finds its checks passed (R125). -/
def CompositeAhead (s : State) : Prop :=
  s.cmp.pwr = 0 ∧ (s.op = .decodeComposite → s.dec.npix.toNat = s.regs.positions ∧ s.regs.geometryOk = true)

/-- The invariant of the decode phase, in its parts. -/
structure DecodingOk (s : State) : Prop where
  codes : CodesOk s.dec
  width : WidthOk s.dec
  bits : BitsOk s.dec
  cursors : CursorsOk s
  ahead : CompositeAhead s

theorem decoderOk_iff (s : State) : s.decoderOk ↔ (s.seq = .decode → DecodingOk s) := by
  refine forall_congr' fun _ => ⟨?_, ?_⟩
  · rintro ⟨h1, h2, h3, h4, h5, h6, h7, h8, h9, h10, h11, h12, h13, h14, h15, h16, h17⟩
    exact ⟨⟨h1, h2, h3⟩, ⟨h4, h5, h6, h7, h8, h9, h10⟩, ⟨h11, h12⟩, ⟨h13, h14, h15⟩, h16, h17⟩
  · rintro ⟨⟨h1, h2, h3⟩, ⟨h4, h5, h6, h7, h8, h9, h10⟩, ⟨h11, h12⟩, ⟨h13, h14, h15⟩, h16, h17⟩
    exact ⟨h1, h2, h3, h4, h5, h6, h7, h8, h9, h10, h11, h12, h13, h14, h15, h16, h17⟩

/-! ## The width -/

/-- A width the start or a clear gives (R152, R160). -/
theorem widthOk_start {d : Decoder} {m : Nat} (hm : m ≤ 8) (hclear : d.clear.toNat = 2 ^ m) (hcsize : d.csize.toNat = m + 1)
    (hmask : d.mask.toNat = 2 ^ (m + 1) - 1) (havail : d.avail.toNat = 2 ^ m + 2) : WidthOk d := by
  have hle : 2 ^ m ≤ 2 ^ 8 := Nat.pow_le_pow_right (by decide) hm
  have hpos : 1 ≤ 2 ^ m := Nat.one_le_two_pow
  have hsucc : 2 ^ (m + 1) = 2 * 2 ^ m := Nat.pow_succ'
  unfold WidthOk
  rw [hcsize, hmask, havail, hclear]
  omega

/-- A definition keeps the range: AVAIL outgrows the mask by one at most before the width follows it, up to the full table (R168, R169). -/
theorem widthOk_define {d : Decoder} (h : WidthOk d) (hv : d.prevV = true) (p : BitVec 12) : WidthOk (d.define.withPrev p) := by
  obtain ⟨h1, h12, hmask, hlow, hfull, hwidth, -⟩ := h
  rcases Nat.lt_or_ge d.avail.toNat 4096 with hlt | hge
  · have havail := define_avail hlt
    have hnext : WidthOk d.define := by
      unfold WidthOk
      rw [define_clear, define_prevV, havail, hv]
      rcases define_width hlt with ⟨hc, hm, hgrow, hroom⟩ | ⟨hc, hm, hstay⟩
      · have hpow : 2 ^ d.csize.toNat < 2 ^ 12 := by omega
        have hcs : d.csize.toNat < 12 := (Nat.pow_lt_pow_iff_right (by decide)).1 hpow
        have hcs' : (d.csize + 1#4).toNat = d.csize.toNat + 1 := BitVec.toNat_add_of_lt (by simp; omega)
        have hsucc : 2 ^ (d.csize.toNat + 1) = 2 * 2 ^ d.csize.toNat := Nat.pow_succ'
        have htwo : 2 ^ 1 ≤ 2 ^ d.csize.toNat := Nat.pow_le_pow_right (by decide) h1
        rw [hm, maskOf_toNat (by omega), hc, hcs']
        exact ⟨by omega, by omega, rfl, by omega, by omega, by omega, fun h => by cases h⟩
      · rw [hc, hm]
        refine ⟨h1, h12, hmask, ?_, ?_, ?_, fun h => by cases h⟩
        · omega
        · omega
        by_contra hover
        have hsmall : 2 ^ d.csize.toNat < 2 ^ 12 := by omega
        have hcs : d.csize.toNat < 12 := (Nat.pow_lt_pow_iff_right (by decide)).1 hsmall
        have hpow : 2 ^ d.csize.toNat ≤ 2 ^ 11 := Nat.pow_le_pow_right (by decide) (by omega)
        omega
    exact hnext
  · rw [define_full hge]
    exact ⟨h1, h12, hmask, hlow, hfull, hwidth, fun h => by rw [Decoder.withPrev_prevV, hv] at h; cases h⟩

/-- The registers the range speaks of. -/
theorem widthOk_congr {d e : Decoder} (h : WidthOk d) (hcsize : e.csize = d.csize) (hmask : e.mask = d.mask) (havail : e.avail = d.avail)
    (hclear : e.clear = d.clear) (hprevV : e.prevV = d.prevV) : WidthOk e := by
  unfold WidthOk at *
  rwa [hcsize, hmask, havail, hclear, hprevV]

/-! ## Codes -/

/-- The decode phase is left by a stop (R171). -/
theorem stopDecode_seq_ne (r : DecStop) (u : State) : (stopDecode r u).seq ≠ .decode := by
  cases stopped_stopDecode r u with
  | ended _ _ ht => rw [ht]; simp
  | compositing _ _ _ _ ht => rw [ht]; simp [State.compositeAfter]

/-- What DEFINED and KWKWK keep while the decode goes on: the output stays below NPIX, and the definition keeps the width's range. -/
theorem expandCode_keeps {a p : BitVec 12} {s : State} (hk : StackOk s.dec) (hw : WidthOk s.dec) (hv : s.dec.prevV = true)
    (ho : s.dec.ocnt.toNat < s.dec.npix.toNat) (hgoes : (expandCode a p s).seq = .decode) :
    WidthOk (expandCode a p s).dec ∧ (expandCode a p s).dec.ocnt.toNat ≤ (expandCode a p s).dec.npix.toNat := by
  rcases expandCode_cases a p s hk ho with ⟨e, -, -, h⟩ | ⟨e, f, t, bs, he, -, -, hem, -, ⟨-, h⟩ | ⟨hlt, h⟩⟩ <;>
    rw [h] at hgoes ⊢
  · exact absurd hgoes (stopDecode_seq_ne _ _)
  · exact absurd hgoes (stopDecode_seq_ne _ _)
  · have hprevV : t.dec.prevV = s.dec.prevV := hem.dec_prevV.trans he.prevV
    have hwt : WidthOk t.dec := widthOk_congr hw (hem.dec_csize.trans he.csize) (hem.dec_mask.trans he.mask) (hem.dec_avail.trans he.avail)
      (hem.dec_clear.trans he.clear) hprevV
    exact ⟨widthOk_define hwt (hprevV.trans hv) p, by simpa using hlt.le⟩

/-- What every code keeps while the decode goes on (R160 to R165). -/
theorem code_keeps {i : Instr} {s t : State} (hf : i.format = .code) (hfit : i.fits s.ctx = true) (ha : s.arraysOk) (hc : CodesOk s.dec)
    (hw : WidthOk s.dec) (ho : s.dec.ocnt.toNat < s.dec.npix.toNat) (h : exec i s = .next t) (hgoes : t.seq = .decode) :
    WidthOk t.dec ∧ t.dec.ocnt.toNat ≤ t.dec.npix.toNat := by
  cases i with
  | clear c =>
    cases h
    obtain ⟨hmcs, hclear, -⟩ := hc
    have hwidth := mcs_add_one_toNat hmcs
    refine ⟨widthOk_start hmcs hclear hwidth ((maskOf_toNat (by omega)).trans (by rw [hwidth])) ?_, ho.le⟩
    have hpow : 2 ^ s.dec.mcs.toNat ≤ 2 ^ 8 := Nat.pow_le_pow_right (by decide) hmcs
    show (BitVec.ofNat 13 (s.dec.clear.toNat + 2)).toNat = _
    rw [BitVec.toNat_ofNat, hclear]
    omega
  | endCode c => cases h; exact absurd hgoes (stopDecode_seq_ne _ _)
  | range c => cases h; exact absurd hgoes (stopDecode_seq_ne _ _)
  | first c =>
    cases h
    obtain ⟨h1, h12, hmask, hlow, hfull, hwidth, -⟩ := hw
    have hocnt := counter_succ_toNat (w := s.dec.ocnt) (by have := s.dec.npix.isLt; omega)
    exact ⟨⟨h1, h12, hmask, hlow, hfull, hwidth, fun hp => by cases hp⟩, hocnt.trans_le ho⟩
  | defined c =>
    cases h
    obtain ⟨hv, -⟩ := fits_defined hfit
    obtain ⟨hwf, hin, -⟩ := stackOk_of ha
    exact expandCode_keeps (s := s.withDec s.dec.emptyStack) ⟨hwf, hin, Nat.zero_le _⟩ hw hv ho hgoes
  | kwkwk c =>
    cases h
    obtain ⟨hv, -⟩ := fits_kwkwk hfit
    obtain ⟨hwf, hin, -⟩ := stackOk_of ha
    have hempty : StackOk s.dec.emptyStack := ⟨hwf, hin, Nat.zero_le _⟩
    exact expandCode_keeps (s := s.withDec (s.dec.emptyStack.push (s.dec.first.setWidth 8)))
      (hempty.push _ (by simp [Config.stackCap])) hw hv ho hgoes
  | _ => cases hf

/-! ## Stream bytes -/

theorem takeByte_exhausted {s : State} (hi : s.regs.inLen.toNat ≤ s.dec.ipos.toNat) (effect : State → State) :
    takeByte effect s = stopDecode .inExhausted s := if_pos hi

theorem takeByte_ok {s : State} (hi : s.dec.ipos.toNat < s.regs.inLen.toNat) (effect : State → State) : takeByte effect s = effect s :=
  if_neg hi.not_ge

/-- R156, R157: a byte at or beyond IN_LEN is not read. -/
theorem exec_byte_exhausted {s : State} (hi : s.regs.inLen.toNat ≤ s.dec.ipos.toNat) (b : Byte) :
    exec (.blockHeader b) s = .next (stopDecode .inExhausted s) ∧ exec (.dataByte b) s = .next (stopDecode .inExhausted s) :=
  ⟨congrArg Host.Outcome.next (takeByte_exhausted hi _), congrArg Host.Outcome.next (takeByte_exhausted hi _)⟩

/-- R156: a length byte other than 0 opens a sub-block. -/
theorem exec_blockHeader_opens {s : State} (hi : s.dec.ipos.toNat < s.regs.inLen.toNat) {len : Byte} (hl : len ≠ 0) :
    exec (.blockHeader len) s = .next (s.withDec { s.dec with brem := len, ipos := s.dec.ipos + 1#32 }) :=
  congrArg Host.Outcome.next ((takeByte_ok hi _).trans (if_neg hl))

/-- R156: the length byte 0 is counted, and stops the decode. -/
theorem exec_blockHeader_zero {s : State} (hi : s.dec.ipos.toNat < s.regs.inLen.toNat) :
    exec (.blockHeader 0) s = .next (stopDecode .zeroBlock (s.withDec { s.dec with brem := 0, ipos := s.dec.ipos + 1#32 })) :=
  congrArg Host.Outcome.next (takeByte_ok hi _)

/-- R157. -/
theorem exec_dataByte_ok {s : State} (hi : s.dec.ipos.toNat < s.regs.inLen.toNat) (b : Byte) :
    exec (.dataByte b) s = .next (s.withDec { s.dec with
      acc := s.dec.acc ||| (b.setWidth 32 <<< s.dec.nbits.toNat)
      ipos := s.dec.ipos + 1#32
      brem := s.dec.brem - 1#8
      nbits := s.dec.nbits + 8#5 }) :=
  congrArg Host.Outcome.next (takeByte_ok hi _)

/-- A cursor below IN_LEN does not wrap. -/
theorem toNat_ipos_succ {s : State} (hi : s.dec.ipos.toNat < s.regs.inLen.toNat) : (s.dec.ipos + 1#32).toNat = s.dec.ipos.toNat + 1 := by
  have := s.regs.inLen.isLt
  exact counter_succ_toNat (by omega)

/-- A data byte goes above the buffered bits (R157). -/
theorem toNat_acc_or {acc : Word} {b : Byte} {n : Nat} (hn : n ≤ 11) (ha : acc.toNat < 2 ^ n) :
    (acc ||| (b.setWidth 32 <<< n)).toNat = acc.toNat + b.toNat * 2 ^ n := by
  have hb := b.isLt
  have hpow : 2 ^ n ≤ 2 ^ 11 := Nat.pow_le_pow_right (by decide) hn
  have hprod : b.toNat * 2 ^ n ≤ 255 * 2 ^ 11 := Nat.mul_le_mul (by omega) hpow
  rw [BitVec.toNat_or, BitVec.toNat_shiftLeft, toNat_zeroExtend b (by decide), Nat.shiftLeft_eq, Nat.mod_eq_of_lt (by omega),
    or_mul_two_pow ha]

/-- Every byte taken keeps the accumulator's range and the cursors'; its one counter step stays at IN_LEN. -/
theorem byte_keeps {i : Instr} {s t : State} (hf : i.format = .stream) (hn : s.dec.nbits.toNat ≤ 11) (hb : BitsOk s.dec)
    (hc : CursorsOk s) (hi : s.dec.ipos.toNat < s.regs.inLen.toNat) (h : exec i s = .next t) (hgoes : t.seq = .decode) :
    BitsOk t.dec ∧ CursorsOk t ∧
      ∃ acc nbits ipos brem, t = s.withDec { s.dec with acc := acc, nbits := nbits, ipos := ipos, brem := brem } := by
  obtain ⟨-, hacc⟩ := hb
  obtain ⟨ho, hx, -⟩ := hc
  have hipos := toNat_ipos_succ hi
  cases i with
  | blockHeader len =>
    by_cases hl : len = 0
    · rw [hl, exec_blockHeader_zero hi] at h
      cases h
      exact absurd hgoes (stopDecode_seq_ne _ _)
    · rw [exec_blockHeader_opens hi hl] at h
      cases h
      exact ⟨⟨hn.trans (by decide), hacc⟩, ⟨ho, hx, hipos.trans_le hi⟩, _, _, _, _, rfl⟩
  | dataByte b =>
    rw [exec_dataByte_ok hi] at h
    cases h
    have hnbits : (s.dec.nbits + 8#5).toNat = s.dec.nbits.toNat + 8 := BitVec.toNat_add_of_lt (by simp; omega)
    have hb := b.isLt
    have hsum : s.dec.acc.toNat + b.toNat * 2 ^ s.dec.nbits.toNat < 2 ^ (s.dec.nbits.toNat + 8) := by
      have hprod : b.toNat * 2 ^ s.dec.nbits.toNat ≤ 255 * 2 ^ s.dec.nbits.toNat := Nat.mul_le_mul_right _ (by omega)
      rw [Nat.pow_add]
      omega
    refine ⟨⟨?_, ?_⟩, ⟨ho, hx, hipos.trans_le hi⟩, _, _, _, _, rfl⟩
    · exact hnbits.trans_le (by omega)
    · show (s.dec.acc ||| (b.setWidth 32 <<< s.dec.nbits.toNat)).toNat < 2 ^ (s.dec.nbits + 8#5).toNat
      rw [toNat_acc_or hn hacc, hnbits]
      exact hsum
  | _ => cases hf

/-! ## The sequencer -/

/-- `extract` leaves NBITS - CSIZE bits (R158). -/
theorem bitsOk_consume {d : Decoder} (h : BitsOk d) (hn : d.csize.toNat ≤ d.nbits.toNat) : BitsOk d.consume := by
  obtain ⟨h19, hacc⟩ := h
  unfold BitsOk
  rw [consume_nbits_toNat, consume_acc_toNat]
  refine ⟨(Nat.sub_le _ _).trans h19, Nat.div_lt_of_lt_mul ?_⟩
  rwa [Nat.mul_comm, Nat.pow_sub_mul_pow 2 hn]

theorem CompositeEffect.seq_ne {s t : State} (h : CompositeEffect s t) (hs : s.seq = .composite) : t.seq ≠ .decode := by
  cases h with
  | finished ht => subst ht; simp
  | skipped ht => subst ht; simp [hs]
  | failed ht => subst ht; simp
  | painted _ ht => subst ht; simp [hs]

/-- Every step of the sequencer that stays in the decode phase keeps its range. -/
theorem decodingOk_sequencerStep {w t : State} (ha : w.arraysOk) (hd : w.seq = .decode → DecodingOk w) (h : SequencerStep w t)
    (hgoes : t.seq = .decode) : DecodingOk t := by
  cases h with
  | idle hs ht => exact absurd (hs.symm.trans (ht ▸ hgoes)) (by decide)
  | count hs _ ht => exact absurd (ht ▸ hgoes) (stopDecode_seq_ne _ _)
  | exhausted hs _ _ _ ht => exact absurd (ht ▸ hgoes) (stopDecode_seq_ne _ _)
  | byte hs ho hn hi ht =>
    obtain ⟨hcodes, hwidth, hbits, hcursors, hahead⟩ := hd hs
    have hn11 : w.dec.nbits.toNat ≤ 11 := by
      obtain ⟨-, h12, -⟩ := hwidth
      omega
    obtain ⟨hbits', hcursors', _, _, _, _, rfl⟩ := byte_keeps (decodeStream_format _ _) hn11 hbits hcursors hi ht hgoes
    exact ⟨hcodes, hwidth, hbits', hcursors', hahead⟩
  | code hs ho hn h1 h12 ht =>
    obtain ⟨hcodes, hwidth, hbits, ⟨-, hx, hipos⟩, hpwr, hnext⟩ := hd hs
    have hfit := decode_code_fits (decode_codeBits w h1 h12)
    obtain ⟨hwidth', hocnt⟩ := code_keeps (s := w.withDec w.dec.consume) (classifyCode_format _ _) hfit ha hcodes hwidth ho ht hgoes
    obtain ⟨u, hu, hacc, rfl | ⟨r, rfl⟩⟩ := code_ends (classifyCode_format _ _) ht
    · have hbits' : BitsOk t.dec := by
        unfold BitsOk
        rw [hacc.acc, hacc.nbits]
        exact bitsOk_consume hbits hn
      refine ⟨?_, hwidth', hbits', ⟨hocnt, ?_, ?_⟩, ?_, ?_⟩
      · unfold CodesOk
        rwa [hu.mcs, hu.clear, hu.endCode]
      · rwa [hu.npix, hu.regs]
      · rwa [hacc.ipos, hu.regs]
      · rwa [hu.cmp]
      · rwa [hu.op, hu.npix, hu.regs]
    · exact absurd hgoes (stopDecode_seq_ne _ _)
  | finished _ _ ht => rw [ht] at hgoes; cases hgoes
  | index hs _ ht => exact absurd hgoes ((compositeEffect_of_exec (classifyIndex_format _ _) ht).seq_ne hs)

/-- A stop of the decode phase enters the composite phase at position 0, nothing written, with its checks passed (R171, R200, R201). -/
theorem compositorOk_stopDecode {r : DecStop} {u : State} (hpwr : u.cmp.pwr = 0) : (stopDecode r u).compositorOk := by
  intro hs
  cases stopped_stopDecode r u with
  | ended _ _ ht => rw [ht] at hs; cases hs
  | compositing ds _ hn hg ht =>
    rw [ht]
    refine ⟨hn, hg, Nat.zero_le _, ?_⟩
    show u.cmp.pwr.toNat ≤ 0
    rw [hpwr]
    exact Nat.le_refl 0

/-- Every step of the sequencer keeps the walk inside IDX and PIX. -/
theorem compositorOk_sequencerStep {w t : State} (hd : w.seq = .decode → DecodingOk w) (hc : w.compositorOk)
    (h : SequencerStep w t) : t.compositorOk := by
  rcases sequencer_effect h with ⟨-, rfl⟩ | ⟨hs, u, hu, ht⟩ | ⟨hs, he⟩
  · exact hc
  · rcases ht with rfl | ⟨r, rfl⟩
    · exact fun hcomp => absurd (hcomp.symm.trans (hu.seq.trans hs)) (by decide)
    · exact compositorOk_stopDecode (hu.cmp ▸ (hd hs).ahead.1)
  · obtain ⟨hn, hg, hcpos, hpwr⟩ := hc hs
    have hlt := positions_lt w.regs
    cases h with
    | finished _ _ ht => exact fun hcomp => by rw [ht] at hcomp; cases hcomp
    | index _ hpos ht =>
      have hcpos' := counter_succ_toNat (w := w.cmp.cpos) (by omega)
      cases compositeEffect_of_exec (classifyIndex_format _ _) ht with
      | finished ht => exact fun hcomp => by rw [ht] at hcomp; cases hcomp
      | failed ht => exact fun hcomp => by rw [ht] at hcomp; cases hcomp
      | skipped ht =>
        intro _
        simp only [ht, nextPosition_regs, nextPosition_cmp, hcpos']
        exact ⟨hn, hg, hpos, by omega⟩
      | painted c ht =>
        have hpwr' := counter_succ_toNat (w := w.cmp.pwr) (by omega)
        intro _
        simp only [ht, nextPosition_regs, nextPosition_cmp, writePixel_regs, writePixel_cmp, hcpos', hpwr']
        exact ⟨hn, hg, hpos, by omega⟩
    | idle hs' | count hs' | exhausted hs' | byte hs' | code hs' => exact absurd (hs.symm.trans hs') (by decide)

/-! ## The host -/

/-- The part of the invariant that depends on the sequencer, the configuration and the datapath only. -/
def RangesOk (s : State) : Prop := s.ctLenOk ∧ (s.seq = .decode → DecodingOk s) ∧ s.compositorOk

/-- It does not speak of the status, the results, the buffers or the model's own fields. -/
theorem rangesOk_congr {s t : State} (h : RangesOk s) (hseq : t.seq = s.seq) (hop : t.op = s.op) (hregs : t.regs = s.regs)
    (hdec : t.dec = s.dec) (hcmp : t.cmp = s.cmp) : RangesOk t := by
  obtain ⟨hct, hd, hc⟩ := h
  refine ⟨?_, fun hs => ?_, ?_⟩
  · unfold State.ctLenOk
    rwa [hregs]
  · obtain ⟨hcodes, hwidth, hbits, hcursors, hahead⟩ := hd (hseq ▸ hs)
    constructor <;> simpa only [CursorsOk, CompositeAhead, hop, hregs, hdec, hcmp]
  · unfold State.compositorOk
    rwa [hseq, hregs, hcmp]

theorem inv_iff (s : State) : s.Inv ↔ s.controlOk ∧ s.arraysOk ∧ RangesOk s := by
  unfold State.Inv RangesOk
  rw [decoderOk_iff]

theorem rangesOk_sequencerStep {w t : State} (ha : w.arraysOk) (h : RangesOk w) (hs : SequencerStep w t) : RangesOk t := by
  obtain ⟨hct, hd, hc⟩ := h
  refine ⟨?_, decodingOk_sequencerStep ha hd hs, compositorOk_sequencerStep hd hc hs⟩
  unfold State.ctLenOk
  rwa [sequencerStep_regs hs]

/-- In IDLE only CT_LEN has a range (R55). -/
theorem rangesOk_idle {s : State} (hct : s.ctLenOk) (hs : s.seq = .idle) : RangesOk s :=
  ⟨hct, fun h => absurd (hs.symm.trans h) (by decide), fun h => absurd (hs.symm.trans h) (by decide)⟩

/-- The decoder's start meets the decode phase's range (R151 to R154). -/
theorem decodingOk_decoderRuns {op : Command} {npix : Word} {s : State} (hn : npix.toNat ≤ s.regs.idxLen.toNat) (hi : s.regs.inLen ≠ 0)
    (hm : (Memory.read s.buf.inp 0).toNat ≤ 8)
    (hc : op = .decodeComposite → npix.toNat = s.regs.positions ∧ s.regs.geometryOk = true) : DecodingOk (decoderRuns op npix s) := by
  obtain ⟨hmcs, hclear, hend, hcsize, hmask, havail, -, -, -, hacc, hnbits, -, hipos, hocnt, -⟩ := decoderStarted_decoderRuns op npix hm
  have hin : 1 ≤ s.regs.inLen.toNat := Nat.one_le_iff_ne_zero.2 fun h => hi (BitVec.eq_of_toNat_eq h)
  refine ⟨⟨hmcs.trans_le hm, by rw [hclear, hmcs], by rw [hend, hclear]⟩, widthOk_start hm hclear hcsize hmask havail, ?_,
    ⟨?_, ?_, ?_⟩, ?_, ?_⟩
  · unfold BitsOk
    rw [hacc, hnbits]
    decide
  · rw [hocnt]
    exact Nat.zero_le _
  · simpa using hn
  · rw [hipos, decoderRuns_regs]
    exact hin
  · simp
  · simpa using hc

theorem rangesOk_started {s t : State} (hct : s.ctLenOk) (h : Started s t) : RangesOk t := by
  have hct' : t.ctLenOk := by
    unfold State.ctLenOk
    rwa [h.regs]
  cases h with
  | ended _ _ _ _ ht => exact rangesOk_idle hct' (by rw [ht]; rfl)
  | decoding op npix _ hn hi hm hc ht =>
    refine ⟨hct', fun _ => ht ▸ decodingOk_decoderRuns hn hi hm hc, fun hs => ?_⟩
    rw [ht] at hs
    cases hs
  | compositing op d ds _ hn hg ht =>
    refine ⟨hct', fun hs => ?_, fun _ => ?_⟩
    · rw [ht] at hs
      cases hs
    · rw [ht]
      simp [hn, hg]

/-- CT_LEN stores at most 256 (R30). -/
theorem ctLen_store {r : Regs} (h : r.ctLen.toNat ≤ 256) (n : RegName) (d : Word) : (r.store n d).ctLen.toNat ≤ 256 := by
  cases n with
  | ctLen => exact (toNat_legalCtLen d).trans_le (Nat.min_le_right _ _)
  | _ => exact h

theorem rangesOk_hostEffect {s t : State} (hk : s.controlOk) (h : RangesOk s) (hs : HostEffect s t) : RangesOk t := by
  cases hs with
  | started _ h' => exact rangesOk_started h.1 h'
  | turnedAway _ ht => subst ht; exact rangesOk_congr h rfl rfl rfl rfl rfl
  | acknowledged _ ht => subst ht; exact rangesOk_congr h rfl rfl rfl rfl rfl
  | configured hb n d ht =>
    obtain ⟨hbusy, -⟩ := hk
    have hidle : s.seq = .idle := by
      by_contra hne
      rw [hbusy.2 hne] at hb
      cases hb
    exact ht ▸ rangesOk_idle (ctLen_store h.1 n d) hidle
  | ignored ht => exact ht ▸ h
  | answered _ ht => subst ht; exact rangesOk_congr h rfl rfl rfl rfl rfl

theorem rangesOk_hostStep {m : HostMove} {s t : State} (hk : s.controlOk) (h : RangesOk s) (hs : HostStep m s t) : RangesOk t := by
  rcases hostMove_effect hs with ⟨-, rfl⟩ | ⟨sp, k, v, -, -, rfl⟩ | ⟨u, hu, he⟩
  · exact rangesOk_idle (Nat.zero_le _) rfl
  · exact rangesOk_congr h rfl rfl rfl rfl rfl
  · have hu' : u.controlOk ∧ RangesOk u := by rcases hu with rfl | rfl <;> exact ⟨hk, rangesOk_congr h rfl rfl rfl rfl rfl⟩
    exact rangesOk_hostEffect hu'.1 hu'.2 he

/-- Settles O52: O50 and O51 with the ranges, which a start establishes, every row of the running phase keeps, and every stop hands on. -/
theorem stepKeepsTheInvariant : Obligations.StepKeepsTheInvariant := by
  intro s t h hst
  obtain ⟨hk, ha, hr⟩ := (inv_iff s).1 h
  refine (inv_iff t).2 ⟨stepKeepsTheSequencerConsistent s t hk hst, stepKeepsTheArraysInRange s t ha hst, ?_⟩
  obtain ⟨rest, hs | ⟨m, -, hm⟩⟩ := step_ways_pop hst
  · exact rangesOk_sequencerStep (w := s.pop rest) ha (rangesOk_congr hr rfl rfl rfl rfl rfl) hs
  · exact rangesOk_hostStep (s := s.pop rest) hk (rangesOk_congr hr rfl rfl rfl rfl rfl) hm

end Sys2Proof.Machine
end

section
/-! The geometry check (42_compositor.md R200, R201), and the places in the buffers that a step can write (20_memory.md R61 to R63, R78;
70_reset_and_hazards.md R266). -/

namespace Sys2Proof.Machine

/-! ## The destinations -/

/-- In both modes a row of the frame is shown in the frame (R204, R205). -/
theorem displayRow_lt {g : Regs} {r : Nat} (h : r < g.frameH.toNat) : g.displayRow r < g.frameH.toNat := by
  unfold Regs.displayRow
  split
  · exact rowmap_lt h
  · exact h

/-- In both modes every display row shows a row of the frame. -/
theorem exists_displayRow_eq {g : Regs} {y : Nat} (h : y < g.frameH.toNat) : ∃ r, r < g.frameH.toNat ∧ g.displayRow r = y := by
  unfold Regs.displayRow
  split
  · exact exists_rowmap_eq h
  · exact ⟨y, h, rfl⟩

theorem geometryOk_iff {g : Regs} : g.geometryOk = true ↔ g.frameW.toNat = 0 ∨ g.frameH.toNat = 0 ∨
    (g.offY.toNat + g.frameH.toNat - 1) * g.imgW.toNat + g.offX.toNat + g.frameW.toNat - 1 < g.canvas := by
  have hzero (x : BitVec 16) : x = 0 ↔ x.toNat = 0 := ⟨fun h => by rw [h]; rfl, fun h => BitVec.eq_of_toNat_eq h⟩
  simp only [Regs.geometryOk, Bool.or_eq_true, beq_iff_eq, decide_eq_true_eq, hzero, or_assoc]

/-- The row and the column of a position lie in the frame (R203). -/
theorem position_in_frame {g : Regs} {i : Nat} (hi : i < g.positions) :
    i / g.frameW.toNat < g.frameH.toNat ∧ i % g.frameW.toNat < g.frameW.toNat := by
  have hpos : 0 < g.frameW.toNat := Nat.pos_of_ne_zero fun h => by simp [Regs.positions, h] at hi
  exact ⟨Nat.div_lt_of_lt_mul hi, Nat.mod_lt _ hpos⟩

/-- No destination lies beyond the last row's last column. -/
theorem destOf_lt_of_geometryOk {g : Regs} (hg : g.geometryOk = true) {i : Nat} (hi : i < g.positions) : g.destOf i < g.canvas := by
  obtain ⟨hrow, hcol⟩ := position_in_frame hi
  have hshown := displayRow_lt hrow
  rcases geometryOk_iff.1 hg with h | h | hlast
  · omega
  · omega
  · have hrows : (g.displayRow (i / g.frameW.toNat) + g.offY.toNat) * g.imgW.toNat ≤
        (g.offY.toNat + g.frameH.toNat - 1) * g.imgW.toNat := Nat.mul_le_mul_right _ (by omega)
    unfold Regs.destOf Regs.dest
    omega

/-- Settles O48: the position shown in the last row's last column has the largest destination. -/
theorem geometryCheckIsExact : Obligations.GeometryCheckIsExact := by
  intro g
  refine ⟨fun hg i => destOf_lt_of_geometryOk hg, fun hall => geometryOk_iff.2 ?_⟩
  by_cases hw : g.frameW.toNat = 0
  · exact .inl hw
  by_cases hh : g.frameH.toNat = 0
  · exact .inr (.inl hh)
  obtain ⟨r, hr, hlast⟩ := exists_displayRow_eq (g := g) (y := g.frameH.toNat - 1) (by omega)
  have hdiv : (g.frameW.toNat * r + (g.frameW.toNat - 1)) / g.frameW.toNat = r := by
    rw [Nat.mul_add_div (by omega), Nat.div_eq_of_lt (by omega), Nat.add_zero]
  have hmod : (g.frameW.toNat * r + (g.frameW.toNat - 1)) % g.frameW.toNat = g.frameW.toNat - 1 := by
    rw [Nat.mul_add_mod, Nat.mod_eq_of_lt (by omega)]
  have hin : g.frameW.toNat * r + (g.frameW.toNat - 1) < g.frameW.toNat * g.frameH.toNat := by
    have hrows : g.frameW.toNat * (r + 1) ≤ g.frameW.toNat * g.frameH.toNat := Nat.mul_le_mul_left _ hr
    rw [Nat.mul_add, Nat.mul_one] at hrows
    omega
  have hdest := hall _ hin
  have hrow : g.frameH.toNat - 1 + g.offY.toNat = g.offY.toNat + g.frameH.toNat - 1 := by omega
  rw [Regs.destOf, hdiv, hmod, hlast, Regs.dest, hrow] at hdest
  exact .inr (.inr (by rw [Regs.canvas]; omega))

/-- A destination of the running walk is in the footprint the host must leave alone (R214, R266). -/
theorem inFootprint_destOf {g : Regs} {i : Nat} (hi : i < g.positions) : g.inFootprint (g.destOf i) = true := by
  obtain ⟨hrow, hcol⟩ := position_in_frame hi
  refine List.any_eq_true.2 ⟨g.displayRow (i / g.frameW.toNat), List.mem_range.2 (displayRow_lt hrow), decide_eq_true ?_⟩
  unfold Regs.destOf Regs.dest
  omega

/-! ## IN and CT -/

/-- IN and CT are as before. -/
def SameInputs (s t : State) : Prop := t.buf.inp = s.buf.inp ∧ t.buf.ct = s.buf.ct

theorem SameInputs.of_buf {s t : State} (h : t.buf = s.buf) : SameInputs s t := by
  unfold SameInputs
  rw [h]
  exact ⟨rfl, rfl⟩

theorem Started.buf {s t : State} (h : Started s t) : t.buf = s.buf := by
  cases h with
  | ended _ _ _ _ ht => subst ht; simp
  | decoding _ _ _ _ _ _ _ ht => subst ht; simp
  | compositing _ _ _ _ _ _ ht => subst ht; simp

/-- No CMD or BUS row accesses a buffer (R70). -/
theorem HostEffect.buf {s t : State} (h : HostEffect s t) : t.buf = s.buf := by
  cases h with
  | started _ h' => exact h'.buf
  | turnedAway _ ht => subst ht; rfl
  | acknowledged _ ht => subst ht; rfl
  | configured _ _ _ ht => subst ht; rfl
  | ignored ht => subst ht; rfl
  | answered _ ht => subst ht; rfl

/-- The decode phase writes IDX only (R62). -/
theorem DecodeEffect.buf {s t : State} (h : DecodeEffect s t) : SameInputs s t ∧ t.buf.pix = s.buf.pix := by
  obtain ⟨u, hu, rfl | ⟨r, rfl⟩⟩ := h
  · exact ⟨⟨hu.inp, hu.ct⟩, hu.pix⟩
  · rw [SameInputs, stopDecode_buf]
    exact ⟨⟨hu.inp, hu.ct⟩, hu.pix⟩

/-- The composite phase writes PIX only, at the destination of CPOS (R208). -/
theorem CompositeEffect.buf {s t : State} (h : CompositeEffect s t) : SameInputs s t ∧ t.buf.idx = s.buf.idx ∧
    ∀ k, k ≠ s.regs.destOf s.cmp.cpos.toNat → Memory.readWord t.buf.pix k = Memory.readWord s.buf.pix k := by
  cases h with
  | finished ht => subst ht; exact ⟨.of_buf rfl, rfl, fun _ _ => rfl⟩
  | skipped ht => subst ht; exact ⟨.of_buf rfl, rfl, fun _ _ => rfl⟩
  | failed ht => subst ht; exact ⟨.of_buf rfl, rfl, fun _ _ => rfl⟩
  | painted c ht => subst ht; exact ⟨⟨rfl, rfl⟩, rfl, fun k hk => Memory.readWord_writeWord_other _ _ hk⟩

theorem sameInputs_sequencerStep {w t : State} (h : SequencerStep w t) : SameInputs w t := by
  rcases sequencer_effect h with ⟨-, rfl⟩ | ⟨-, he⟩ | ⟨-, he⟩
  · exact .of_buf rfl
  · exact he.buf.1
  · exact he.buf.1

/-- Settles O54: of all moves only a put reaches IN or CT; while BUSY = 1 a put that is not forbidden goes to PIX. -/
theorem blockNeverWritesItsInputs : Obligations.BlockNeverWritesItsInputs := by
  constructor
  · intro s t hst hcase
    obtain ⟨rest, hs | ⟨m, hhost, hm⟩⟩ := step_ways_pop hst
    · exact sameInputs_sequencerStep (w := s.pop rest) hs
    rcases hostMove_effect hm with ⟨-, rfl⟩ | ⟨sp, k, v, rfl, hput, rfl⟩ | ⟨u, hu, he⟩
    · exact ⟨buffersAfterReset_inp _, buffersAfterReset_ct _⟩
    · rcases hcase with hno | hb
      · exact absurd hhost (hno sp k v rest)
      · have hbusy : (s.pop rest).status.busy = true := hb
        cases sp with
        | pix => exact ⟨rfl, rfl⟩
        | inp | idx | ct => simp [forbiddenPut, hbusy] at hput
    · rcases hu with rfl | rfl <;> exact SameInputs.of_buf he.buf
  · intro s sp k v rest hhost hb hk hpix
    have hforbidden : forbiddenPut (s.pop rest) sp k = true := by
      have hbusy : (s.pop rest).status.busy = true := hb
      cases sp with
      | inp | idx | ct => simp [forbiddenPut, hbusy]
      | pix =>
        obtain ⟨hop, i, hi, rfl⟩ := hpix rfl
        have hop' : (s.pop rest).op ≠ .decode := hop
        have hfoot : (s.pop rest).regs.inFootprint (s.regs.destOf i) = true := inFootprint_destOf hi
        simp [forbiddenPut, mayWritePix, hbusy, hop', hfoot]
    have hfetch : fetch s = .refused .bufferWhileBusy := by
      rw [fetch, hhost]
      show hostMove (.put sp k v) (s.pop rest) = _
      rw [hostMove, if_neg hk.not_ge, if_pos hforbidden]
    rw [step, hfetch]
    rfl

/-! ## IDX and PIX -/

/-- An emission changes IDX between the old and the new OCNT only. -/
theorem Emitted.idx_changed {s t : State} {bs : List Byte} (h : Emitted s t bs) (hw : Memory.wf s.buf.idx) {a : Nat}
    (ha : Memory.read t.buf.idx a ≠ Memory.read s.buf.idx a) : s.dec.ocnt.toNat ≤ a ∧ a < t.dec.ocnt.toNat := by
  obtain ⟨-, -, hframe⟩ := h.idx hw
  rw [h.ocnt]
  by_contra hout
  exact ha (hframe a (by omega))

theorem expandCode_idx_changed {c p : BitVec 12} {s : State} (hk : StackOk s.dec) (hw : Memory.wf s.buf.idx)
    (ho : s.dec.ocnt.toNat < s.dec.npix.toNat) {a : Nat}
    (ha : Memory.read (expandCode c p s).buf.idx a ≠ Memory.read s.buf.idx a) : s.dec.ocnt.toNat ≤ a ∧ a < s.dec.npix.toNat := by
  rcases expandCode_cases c p s hk ho with ⟨e, -, -, h⟩ | ⟨e, f, t, bs, he, -, -, hem, -, hend⟩
  · rw [h, stopDecode_buf] at ha
    exact absurd rfl ha
  · have hle : t.dec.ocnt.toNat ≤ t.dec.npix.toNat := by
      rcases hend with ⟨heq, -⟩ | ⟨hlt, -⟩
      · rw [heq]
      · exact hlt.le
    have hbuf : (expandCode c p s).buf = t.buf := by
      rcases hend with ⟨-, h⟩ | ⟨-, h⟩ <;> rw [h]
      · exact stopDecode_buf _ _
      · rfl
    rw [hbuf] at ha
    obtain ⟨hlow, hhigh⟩ := hem.idx_changed hw ha
    have hocnt : (e.withFirst f).ocnt = s.dec.ocnt := he.ocnt
    have hnpix : t.dec.npix = s.dec.npix := hem.dec_npix.trans he.npix
    rw [State.withDec_dec, hocnt] at hlow
    exact ⟨hlow, hhigh.trans_le (hnpix ▸ hle)⟩

/-- A code changes IDX from OCNT on and below NPIX (R167, R179). -/
theorem code_idx_changed {i : Instr} {s t : State} (hf : i.format = .code) (hk : s.arraysOk) (ho : s.dec.ocnt.toNat < s.dec.npix.toNat)
    (h : exec i s = .next t) {a : Nat} (ha : Memory.read t.buf.idx a ≠ Memory.read s.buf.idx a) :
    s.dec.ocnt.toNat ≤ a ∧ a < s.dec.npix.toNat := by
  obtain ⟨hstack, hentries, -⟩ := stackOk_of hk
  obtain ⟨-, hidx, -⟩ := hk
  have hempty : StackOk s.dec.emptyStack := ⟨hstack, hentries, Nat.zero_le _⟩
  cases i with
  | clear c => cases h; exact absurd rfl ha
  | endCode c => cases h; rw [stopDecode_buf] at ha; exact absurd rfl ha
  | range c => cases h; rw [stopDecode_buf] at ha; exact absurd rfl ha
  | first c =>
    cases h
    have hem := Emitted.emit (s := s) (s.dec.suffixAt c.toNat) (by have := s.dec.npix.isLt; omega)
    obtain ⟨hlow, hhigh⟩ := hem.idx_changed hidx ha
    rw [hem.ocnt, List.length_singleton] at hhigh
    exact ⟨hlow, by omega⟩
  | defined c => cases h; exact expandCode_idx_changed (s := s.withDec s.dec.emptyStack) hempty hidx ho ha
  | kwkwk c =>
    cases h
    exact expandCode_idx_changed (s := s.withDec (s.dec.emptyStack.push (s.dec.first.setWidth 8)))
      (hempty.push _ (by simp [Config.stackCap])) hidx ho ha
  | _ => cases hf

theorem sequencerStep_idx_changed {w t : State} (h : SequencerStep w t) (hk : w.arraysOk) {a : Nat}
    (ha : Memory.read t.buf.idx a ≠ Memory.read w.buf.idx a) :
    w.seq = .decode ∧ w.dec.ocnt.toNat ≤ a ∧ a < w.dec.npix.toNat := by
  cases h with
  | idle _ ht => rw [ht] at ha; exact absurd rfl ha
  | count _ _ ht => rw [ht, stopDecode_buf] at ha; exact absurd rfl ha
  | exhausted _ _ _ _ ht => rw [ht, stopDecode_buf] at ha; exact absurd rfl ha
  | byte _ _ _ _ ht =>
    obtain ⟨u, -, hbuf, rfl | ⟨r, rfl⟩⟩ := byte_ends (decodeStream_format _ _) ht
    · rw [hbuf] at ha; exact absurd rfl ha
    · rw [stopDecode_buf, hbuf] at ha; exact absurd rfl ha
  | code hs ho _ _ _ ht => exact ⟨hs, code_idx_changed (s := w.withDec w.dec.consume) (classifyCode_format _ _) hk ho ht ha⟩
  | finished _ _ ht => rw [ht, finish_buf] at ha; exact absurd rfl ha
  | index _ _ ht =>
    rw [(compositeEffect_of_exec (classifyIndex_format _ _) ht).buf.2.1] at ha
    exact absurd rfl ha

theorem sequencerStep_pix_changed {w t : State} (h : SequencerStep w t) {k : Nat}
    (hk : Memory.readWord t.buf.pix k ≠ Memory.readWord w.buf.pix k) :
    w.seq = .composite ∧ w.cmp.cpos.toNat < w.regs.positions ∧ k = w.regs.destOf w.cmp.cpos.toNat := by
  rcases sequencer_effect h with ⟨-, rfl⟩ | ⟨-, he⟩ | ⟨hs, he⟩
  · exact absurd rfl hk
  · rw [he.buf.2] at hk
    exact absurd rfl hk
  · refine ⟨hs, ?_, by_contra fun hne => hk (he.buf.2.2 k hne)⟩
    cases h with
    | finished _ _ ht => rw [ht, finish_buf] at hk; exact absurd rfl hk
    | index _ hpos _ => exact hpos
    | idle hs' | count hs' | exhausted hs' | byte hs' | code hs' => exact absurd (hs.symm.trans hs') (by decide)

/-- Settles O55: the cursors' range (O52) and the geometry check (O48) bound what a step can write. -/
theorem noWriteLeavesABuffer : Obligations.NoWriteLeavesABuffer := by
  intro s t u hinv hturn hst
  obtain ⟨-, hk, -, hd, hc⟩ := (inv_iff s).1 hinv
  obtain ⟨useq, -, -, uregs, -, udec, ucmp, ubuf⟩ := turn_groups hturn
  have hs := sequencerStep_of_step hturn hst
  have hku : u.arraysOk := arraysOk_congr hk ubuf (by rw [udec]) (by rw [udec]) (by rw [udec]) (by rw [udec])
  constructor
  · intro a ha
    rw [← ubuf] at ha
    obtain ⟨hseq, hlow, hhigh⟩ := sequencerStep_idx_changed hs hku ha
    rw [udec] at hlow hhigh
    rw [useq] at hseq
    obtain ⟨-, hlen, -⟩ := (hd hseq).cursors
    exact ⟨hseq, hlow, hhigh, hhigh.trans_le hlen⟩
  · intro k hne
    rw [← ubuf] at hne
    obtain ⟨hseq, hpos, rfl⟩ := sequencerStep_pix_changed hs hne
    rw [ucmp, uregs] at hpos ⊢
    rw [useq] at hseq
    obtain ⟨-, hg, -⟩ := hc hseq
    exact ⟨hseq, rfl, destOf_lt_of_geometryOk hg hpos⟩

end Sys2Proof.Machine
end

section
/-! Every instruction completes (60_exceptions.md R233), every command ends (70_reset_and_hazards.md R269), and what a reset keeps or undoes
(R261). -/

namespace Sys2Proof.Machine

/-! ## No traps -/

/-- Only a register access can be refused (R68, R233). -/
theorem exec_completes {i : Instr} (hf : i.format ≠ .bus) (s : State) : ∃ t, exec i s = .next t := by
  cases i with
  | wr | rd => exact absurd rfl hf
  | _ => exact ⟨_, rfl⟩

/-- Settles O59: a well-formed register access is aligned. -/
theorem noInstructionTraps : Obligations.NoInstructionTraps := by
  intro i s hw
  cases i with
  | wr off d => exact ⟨_, exec_wr_aligned (regOffset_iff.1 hw) d s⟩
  | rd off => exact ⟨_, exec_rd_aligned (regOffset_iff.1 hw) s⟩
  | _ => exact exec_completes (by simp [Instr.format]) s

/-! ## The sequencer goes on, and ends -/

/-- With a legal width the sequencer's word decodes, and runs (R92, R233). -/
theorem perform_sequencer {s : State} (hw : s.seq = .decode → WidthOk s.dec) : perform s.ctx (sequencer s) = .next (advance s) := by
  suffices h : ∃ t, perform s.ctx (sequencer s) = .next t by
    obtain ⟨t, ht⟩ := h
    rw [advance, ht]
  rcases sequencer_cases s with ⟨-, h⟩ | ⟨-, -, h⟩ | ⟨-, -, -, -, h⟩ | ⟨-, -, -, -, h⟩ | ⟨hs, -, -, h⟩ |
    ⟨-, -, h⟩ | ⟨-, -, h⟩ <;> rw [h]
  · exact ⟨_, rfl⟩
  · exact ⟨_, rfl⟩
  · exact ⟨_, rfl⟩
  · rw [perform_word (i := decodeStream s.ctx _) rfl]
    exact exec_completes (by rw [decodeStream_format]; decide) s
  · obtain ⟨h1, h12, -⟩ := hw hs
    rw [perform_word (decode_codeBits s h1 h12)]
    exact exec_completes (by rw [classifyCode_format]; decide) _
  · exact ⟨_, rfl⟩
  · rw [perform_word (i := classifyIndex s.ctx _) rfl]
    exact exec_completes (by rw [classifyIndex_format]; decide) s

/-- What is left of the command goes down with every step of its sequencer (R269): a byte of IN is taken, bits of the accumulator are, the
decode phase is left, or a position is passed. -/
theorem work_decreases {w t : State} (hr : RangesOk w) (hne : w.seq ≠ .idle) (h : SequencerStep w t) : t.work < w.work := by
  obtain ⟨-, hd, hc⟩ := hr
  have stop_work {r : DecStop} {u : State} (hregs : u.regs = w.regs) (hs : w.seq = .decode) : (stopDecode r u).work < w.work := by
    have hwork : w.work = 9 * (w.regs.inLen.toNat - w.dec.ipos.toNat) + w.dec.nbits.toNat + w.regs.positions + 2 := by
      rw [State.work, hs]
    cases stopped_stopDecode r u with
    | ended _ _ ht =>
      rw [ht, hwork]
      exact Nat.succ_pos _
    | compositing ds _ _ _ ht =>
      have hcomp : (u.compositeAfter ds).work = u.regs.positions + 1 := rfl
      rw [ht, hcomp, hwork, hregs]
      omega
  cases h with
  | idle hs _ => exact absurd hs hne
  | count hs _ ht => exact ht ▸ stop_work rfl hs
  | exhausted hs _ _ _ ht => exact ht ▸ stop_work rfl hs
  | byte hs _ hn hi ht =>
    have hnbits : w.dec.nbits.toNat ≤ 11 := by
      obtain ⟨-, h12, -⟩ := (hd hs).width
      omega
    have hipos := toNat_ipos_succ hi
    have hnbits' : (w.dec.nbits + 8#5).toNat = w.dec.nbits.toNat + 8 := BitVec.toNat_add_of_lt (by simp; omega)
    unfold decodeStream at ht
    split at ht
    · by_cases hl : Memory.read w.buf.inp w.dec.ipos.toNat = 0
      · rw [hl, exec_blockHeader_zero hi] at ht
        cases ht
        exact stop_work rfl hs
      · rw [exec_blockHeader_opens hi hl] at ht
        cases ht
        simp only [State.work, State.withDec_seq, hs, State.withDec_dec, State.withDec_regs, hipos]
        omega
    · rw [exec_dataByte_ok hi] at ht
      cases ht
      simp only [State.work, State.withDec_seq, hs, State.withDec_dec, State.withDec_regs, hipos, hnbits']
      omega
  | code hs _ hn h1 _ ht =>
    obtain ⟨u, hu, hacc, rfl | ⟨r, rfl⟩⟩ := code_ends (classifyCode_format _ _) ht
    · have hseq : t.seq = .decode := hu.seq.trans hs
      simp only [State.work, hseq, hs, hu.regs, hacc.nbits, hacc.ipos, State.withDec_regs, State.withDec_dec, consume_nbits_toNat,
        Decoder.consume_ipos]
      omega
    · exact stop_work hu.regs hs
  | finished hs _ ht =>
    rw [ht, State.work, State.work, hs, finish_seq]
    exact Nat.succ_pos _
  | index hs hpos ht =>
    have hlt := positions_lt w.regs
    have hcpos := counter_succ_toNat (w := w.cmp.cpos) (by omega)
    have hwork : w.work = w.regs.positions - w.cmp.cpos.toNat + 1 := by rw [State.work, hs]
    cases compositeEffect_of_exec (classifyIndex_format _ _) ht with
    | finished ht => rw [ht, hwork]; exact Nat.succ_pos _
    | failed ht => rw [ht, hwork]; exact Nat.succ_pos _
    | skipped ht =>
      simp only [ht, State.work, nextPosition_seq, hs, nextPosition_regs, nextPosition_cmp, hcpos]
      omega
    | painted c ht =>
      simp only [ht, State.work, nextPosition_seq, writePixel_seq, hs, nextPosition_regs, writePixel_regs, nextPosition_cmp,
        writePixel_cmp, hcpos]
      omega

/-! ## The command brought to its end -/

/-- The script is the host's: no step of the sequencer touches it. -/
theorem sequencerStep_host {w t : State} (h : SequencerStep w t) : t.env.host = w.env.host := by
  rcases sequencer_effect h with ⟨-, rfl⟩ | ⟨-, u, hu, rfl | ⟨r, rfl⟩⟩ | ⟨-, he⟩
  · rfl
  · exact hu.host
  · rw [stopDecode_env, hu.host]
  · cases he with
    | finished ht => rw [ht, finish_env]
    | skipped ht => rw [ht, nextPosition_env]
    | failed ht => rw [ht, raiseError_env]
    | painted c ht => rw [ht, nextPosition_env, writePixel_host]

theorem inv_sequencerStep {w t : State} (h : w.Inv) (hs : SequencerStep w t) : t.Inv := by
  obtain ⟨hk, ha, hr⟩ := (inv_iff w).1 h
  exact (inv_iff t).2 ⟨controlOk_sequencerStep hk hs, arraysOk_sequencerStep ha hs, rangesOk_sequencerStep ha hr hs⟩

/-- A state with no host move to make, from which the sequencer runs the command to its end. -/
def Unattended (s : State) : Prop := s.Inv ∧ s.env.host = []

theorem Unattended.sequencerStep {w t : State} (h : Unattended w) (hs : SequencerStep w t) : Unattended t :=
  ⟨inv_sequencerStep h.1 hs, (sequencerStep_host hs).trans h.2⟩

theorem Unattended.perform {s : State} (h : Unattended s) : perform s.ctx (sequencer s) = .next (advance s) := by
  obtain ⟨-, -, -, hd, -⟩ := (inv_iff s).1 h.1
  exact perform_sequencer fun hs => (hd hs).width

theorem Unattended.sequencerStep_advance {s : State} (h : Unattended s) : SequencerStep s (advance s) :=
  sequencerStep_of_perform h.perform

theorem Unattended.step {s : State} (h : Unattended s) : step s = .next (advance s) := by
  rw [Machine.step, fetch_of_turn (.inl ⟨h.2, rfl⟩), h.perform]

theorem runOut_idle {s : State} (h : s.seq = .idle) (n : Nat) : runOut n s = s := by
  cases n with
  | zero => rfl
  | succ n => rw [runOut, if_pos h]

theorem runOut_running {s : State} (h : s.seq ≠ .idle) (n : Nat) : runOut (n + 1) s = runOut n (advance s) := by
  rw [runOut, if_neg h]

/-- Without host moves the machine runs as `runOut` does, and then waits (R263). -/
theorem run_eq_runOut {s : State} (h : Unattended s) (n : Nat) : Sys2Proof.core.run n s = .next (runOut n s) := by
  induction n generalizing s with
  | zero => rfl
  | succ n ih =>
    have hrun : Sys2Proof.core.run (n + 1) s = Sys2Proof.core.run n (advance s) := by
      have hcore : Sys2Proof.core.step s = .next (advance s) := h.step
      simp only [Host.Core.run, hcore]
    have hadv := h.sequencerStep_advance
    rw [hrun, ih (h.sequencerStep hadv)]
    by_cases hs : s.seq = .idle
    · have hsame : advance s = s := by
        rcases sequencer_effect hadv with ⟨-, heq⟩ | ⟨hs', -⟩ | ⟨hs', -⟩
        · exact heq
        · rw [hs] at hs'; cases hs'
        · rw [hs] at hs'; cases hs'
      rw [hsame, runOut_idle hs, runOut_idle hs]
    · rw [runOut_running hs]

theorem runOut_seq {s : State} (h : Unattended s) (n : Nat) (hn : s.work ≤ n) : (runOut n s).seq = .idle := by
  induction n generalizing s with
  | zero =>
    by_contra hs
    have hdec := work_decreases ((inv_iff s).1 h.1).2.2 hs h.sequencerStep_advance
    omega
  | succ n ih =>
    by_cases hs : s.seq = .idle
    · rw [runOut_idle hs, hs]
    · have hadv := h.sequencerStep_advance
      have hdec := work_decreases ((inv_iff s).1 h.1).2.2 hs hadv
      rw [runOut_running hs]
      exact ih (h.sequencerStep hadv) (by omega)

/-- A command that runs, or has ended with DONE set, does so after a step of the sequencer. -/
theorem busy_or_done_sequencerStep {w t : State} (hk : w.controlOk) (h : w.status.busy = true ∨ w.status.done = true)
    (hs : SequencerStep w t) : t.status.busy = true ∨ t.status.done = true := by
  cases hb : t.status.busy with
  | true => exact .inl rfl
  | false =>
    right
    cases hwb : w.status.busy with
    | true => exact ((endsWithDone_sequencerStep hs).1 hwb hb).1
    | false =>
      obtain ⟨hbusy, -⟩ := hk
      have hidle : w.seq = .idle := by
        by_contra hne
        rw [hbusy.2 hne] at hwb
        cases hwb
      rcases sequencer_effect hs with ⟨-, rfl⟩ | ⟨hs', -⟩ | ⟨hs', -⟩
      · simpa [hwb] using h
      · rw [hidle] at hs'; cases hs'
      · rw [hidle] at hs'; cases hs'

/-- Settles O57: `work` bounds the steps left, the invariant makes each of them answer, and only finish() lets BUSY fall. -/
theorem everyCommandEnds : Obligations.EveryCommandEnds := by
  intro s hinv hhost
  have h : Unattended s := ⟨hinv, hhost⟩
  refine ⟨completed s, run_eq_runOut h _, rfl, ?_, fun hb => ?_⟩
  · have hend : (completed s).Inv := runOut_keeps (P := State.Inv) (fun _ _ => inv_sequencerStep) _ hinv
    have hidle := runOut_seq h _ le_rfl
    obtain ⟨⟨hbusy, -⟩, -⟩ := hend
    exact Bool.eq_false_iff.2 fun hb => hbusy.1 hb hidle
  · have hend : (completed s).controlOk ∧ ((completed s).status.busy = true ∨ (completed s).status.done = true) :=
      runOut_keeps (P := fun w => w.controlOk ∧ (w.status.busy = true ∨ w.status.done = true))
        (fun _ _ hw hs => ⟨controlOk_sequencerStep hw.1 hs, busy_or_done_sequencerStep hw.1 hw.2 hs⟩) _ ⟨hinv.1, .inl hb⟩
    obtain ⟨⟨hbusy, -⟩, hdone⟩ := hend
    exact hdone.resolve_left fun hb => hbusy.1 hb (runOut_seq h _ le_rfl)

/-! ## Reset -/

/-- Settles O31: the event is `resetBlock`, which leaves the host's script alone. -/
theorem resetEventClearsTheBlock : Obligations.ResetEventClearsTheBlock :=
  fun _ _ hhost => ⟨_, step_reset hhost, rfl, rfl, rfl, rfl, rfl, rfl⟩

/-- A byte of IDX after a reset that aborts a command: the one of the command's end, or one its log holds (R261). -/
theorem buffersAfterReset_idx {s : State} (hb : s.status.busy = true) (hk : s.arraysOk) (a : Nat) :
    Memory.read (buffersAfterReset s).idx a = Memory.read (completed s).buf.idx a ∨
      (a, Memory.read (buffersAfterReset s).idx a) ∈ (completed s).env.idxLog := by
  obtain ⟨-, hidx, -⟩ := arraysOk_completed hk
  rw [buffersAfterReset_busy hb]
  exact read_rollBackIdx _ _ _ hidx a

theorem buffersAfterReset_pix {s : State} (hb : s.status.busy = true) (hk : s.arraysOk) (k : Nat) :
    Memory.readWord (buffersAfterReset s).pix k = Memory.readWord (completed s).buf.pix k ∨
      (k, Memory.readWord (buffersAfterReset s).pix k) ∈ (completed s).env.pixLog := by
  obtain ⟨-, -, -, hpix, -⟩ := arraysOk_completed hk
  rw [buffersAfterReset_busy hb]
  exact read_rollBackPix _ _ _ hpix k

/-- A command starts with both logs empty (R122). -/
theorem Started.logs {s t : State} (h : Started s t) : t.env.idxLog = [] ∧ t.env.pixLog = [] := by
  cases h with
  | ended _ _ _ _ ht => subst ht; simp
  | decoding _ _ _ _ _ _ _ ht => subst ht; simp [decoderRuns, startDecoder]
  | compositing _ _ _ _ _ _ ht => subst ht; simp

/-- Settles O60: the aborted command is brought to its end, whose logs hold every write it makes; a reset undoes some of them. -/
theorem resetKeepsOrUndoesTheWritesOfACommand : Obligations.ResetKeepsOrUndoesTheWritesOfACommand := by
  refine ⟨fun s rest hhost => ⟨_, step_reset hhost, buffersAfterReset_inp _, buffersAfterReset_ct _,
    fun hb => buffersAfterReset_idle (s := s.pop rest) hb, ?_⟩, ?_, ?_⟩
  · intro hb hk
    have hw : (s.pop rest).arraysOk := hk
    obtain ⟨-, hidx, -, hpix, -⟩ := hk
    obtain ⟨-, -, hlogs⟩ := logged_completed (s.pop rest) hidx hpix
    have hbyte := buffersAfterReset_idx (s := s.pop rest) hb hw
    have hword := buffersAfterReset_pix (s := s.pop rest) hb hw
    refine ⟨hbyte, hword, fun a ha => ?_, fun k hk => ?_⟩
    · exact ((hbyte a).resolve_right (ha _)).trans (hlogs.idx ha)
    · exact ((hword k).resolve_right (hk _)).trans (hlogs.pix hk)
  · rintro i s t (rfl | rfl | rfl) hb ht
    · rw [exec_decode_idle hb] at ht
      cases ht
      exact (started_commandDecode s).logs
    · rw [exec_composite_idle hb] at ht
      cases ht
      exact (started_runComposite s).logs
    · rw [exec_decodeComposite_idle hb] at ht
      cases ht
      exact (started_commandDecodeComposite s).logs
  · intro s t u hk hturn hst
    obtain ⟨-, hidx, -, hpix, -⟩ := hk
    have hlog := logged_sequencerStep (sequencerStep_of_step hturn hst)
    rcases hturn with ⟨-, rfl⟩ | ⟨rest, -, rfl⟩
    · exact (hlog hidx hpix).2.2
    · exact (hlog hidx hpix).2.2

end Sys2Proof.Machine
end

section
/-! What a step fetches and runs (30_encoding.md R97, R101; 41_lzw_decoder.md R155 to R157; 42_compositor.md R202, R210), the ends of the
decode phase, and the bit accumulator. -/

namespace Sys2Proof.Machine

/-! ## The host's moves -/

theorem fetch_access {s : State} {a : BusAccess} {rest : List HostMove} (h : s.env.host = .access a :: rest) :
    fetch s = .word (rawOfAccess s.status.busy a) (s.pop rest) := by
  rw [fetch, h]
  rfl

theorem fetch_wait {s : State} {rest : List HostMove} (h : s.env.host = .wait :: rest) :
    fetch s = .word (.bus (.rd 4)) (if s.status.doneSeen then s.pop rest else s.pop (.tick :: .wait :: rest)) := by
  rw [fetch, h]
  rfl

/-- Only a 32-bit write to CMD of an idle block hands over a command word (R96, R97). -/
theorem rawOfAccess_cmd (w : Word) : rawOfAccess false ⟨.write, 0, 4, w⟩ = .cmd w := rfl

theorem rawOfAccess_bus {busy : Bool} {a : BusAccess} (h : busy = true ∨ a.dir = .read ∨ a.offset ≠ 0) : rawOfAccess busy a = .bus a := by
  refine if_neg ?_
  rintro ⟨hb, hd, -, ho⟩
  rcases h with h | h | h
  · rw [hb] at h; cases h
  · rw [hd] at h; cases h
  · exact h ho

/-- Settles O8. -/
theorem stepRunsTheHostsAccess : Obligations.StepRunsTheHostsAccess := by
  refine ⟨fun s w rest i hhost hb hd => step_word ?_ hd, fun s a rest i hhost h hd => step_word ?_ hd⟩
  · rw [fetch_access hhost, hb, rawOfAccess_cmd]
  · rw [fetch_access hhost, rawOfAccess_bus h]

/-- Settles O14: WAIT is the read of STATUS, from the script without it when DONE reads 1, else with it behind a tick. -/
theorem waitPollsStatus : Obligations.WaitPollsStatus := by
  intro s rest hhost
  have hrun (hseen : Bool) (h : s.status.doneSeen = hseen) :
      step s = exec (.rd 4) (if hseen then s.pop rest else s.pop (.tick :: .wait :: rest)) := by
    rw [← h]
    exact step_word (fetch_wait hhost) rfl
  constructor
  · rintro ⟨hb, hd⟩
    exact hrun true (by simp [Status.doneSeen, hb, hd])
  · intro h
    exact hrun false (by rcases h with h | h <;> simp [Status.doneSeen, h])

/-! ## The sequencer's moves -/

theorem sequencer_idle {s : State} (hs : s.seq = .idle) : sequencer s = .move s := by
  simp [sequencer, hs]

/-- The count stop at the loop top (R155). -/
theorem sequencer_count {s : State} (hs : s.seq = .decode) (ho : s.dec.npix.toNat ≤ s.dec.ocnt.toNat) :
    sequencer s = .move (stopDecode .count s) := by
  simp [sequencer, hs, ho]

/-- No byte of IN is left for refill (R156, R157). -/
theorem sequencer_exhausted {s : State} (hs : s.seq = .decode) (ho : s.dec.ocnt.toNat < s.dec.npix.toNat)
    (hn : s.dec.nbits.toNat < s.dec.csize.toNat) (hi : s.regs.inLen.toNat ≤ s.dec.ipos.toNat) :
    sequencer s = .move (stopDecode .inExhausted s) := by
  simp [sequencer, hs, ho.not_ge, hn, hi]

/-- The byte refill needs (R156, R157). -/
theorem sequencer_byte {s : State} (hs : s.seq = .decode) (ho : s.dec.ocnt.toNat < s.dec.npix.toNat)
    (hn : s.dec.nbits.toNat < s.dec.csize.toNat) (hi : s.dec.ipos.toNat < s.regs.inLen.toNat) :
    sequencer s = .word (.stream (Memory.read s.buf.inp s.dec.ipos.toNat)) s := by
  simp [sequencer, hs, ho.not_ge, hn, hi.not_ge]

/-- The end of the walk (R210). -/
theorem sequencer_finished {s : State} (hs : s.seq = .composite) (hc : s.regs.positions ≤ s.cmp.cpos.toNat) :
    sequencer s = .move (finish s) := by
  simp [sequencer, hs, hc]

/-- The next index byte (R202). -/
theorem sequencer_index {s : State} (hs : s.seq = .composite) (hc : s.cmp.cpos.toNat < s.regs.positions) :
    sequencer s = .word (.index (Memory.read s.buf.idx s.cmp.cpos.toNat)) s := by
  simp [sequencer, hs, hc.not_ge]

/-- On its turn, the sequencer's step is made from `s` with its script advanced. -/
theorem turn_eq_pop {s u : State} (h : SequencerTurn s u) : ∃ rest, u = s.pop rest := by
  rcases h with ⟨-, rfl⟩ | ⟨rest, -, rfl⟩
  · exact ⟨u.env.host, rfl⟩
  · exact ⟨rest, rfl⟩

theorem step_turn_move {s u t : State} (h : SequencerTurn s u) (hm : sequencer u = .move t) : step s = .next t :=
  step_move ((fetch_of_turn h).trans hm)

/-- Settles O10: BREM decides the row of the byte. -/
theorem stepFetchesTheByteRefillNeeds : Obligations.StepFetchesTheByteRefillNeeds := by
  intro s t hturn hs ho hn hi
  have hf := fetch_of_turn hturn
  obtain ⟨rest, rfl⟩ := turn_eq_pop hturn
  rw [sequencer_byte (s := s.pop rest) hs ho hn hi] at hf
  refine ⟨fun hbrem => step_word hf ?_, fun hbrem => step_word hf ?_⟩
  · exact congrArg Except.ok (if_pos (congrArg BitVec.toNat hbrem))
  · exact congrArg Except.ok (if_neg fun h => hbrem (BitVec.eq_of_toNat_eq h))

/-- Settles O11. -/
theorem stepTakesTheNextIndexByte : Obligations.StepTakesTheNextIndexByte := by
  intro s t hturn hs hc
  have hf := fetch_of_turn hturn
  obtain ⟨rest, rfl⟩ := turn_eq_pop hturn
  rw [sequencer_index (s := s.pop rest) hs hc] at hf
  exact step_word hf rfl

/-- Settles O13. -/
theorem idleBlockWaits : Obligations.IdleBlockWaits := by
  intro s t hturn hs
  have hseq := (turn_groups hturn).1
  exact step_turn_move hturn (sequencer_idle (hseq.trans hs))

/-! ## Stops of a DECODE -/

/-- A stop of a DECODE finishes it, with the reason recorded and the counters latched (R171, R127). -/
theorem finished_stopDecode {s : State} (h : s.op = .decode) (r : DecStop) :
    Finished s (stopDecode r s) r s.status.errCode s.counters := by
  rw [stopDecode_decode h]
  exact finished_finish (s.withStatus { s.status with decStop := r })

/-- `Finished` does not speak of the script. -/
theorem finished_stopDecode_pop {s : State} (h : s.op = .decode) (r : DecStop) (rest : List HostMove) :
    Finished s (stopDecode r (s.pop rest)) r s.status.errCode s.counters := finished_stopDecode (s := s.pop rest) h r

/-- Settles O12: the loop tops make the stop of R155 and those of R156 and R157, and the walk's end is finish(). -/
theorem phasesEndAtTheLoopTop : Obligations.PhasesEndAtTheLoopTop := by
  intro s t hturn
  obtain ⟨rest, rfl⟩ := turn_eq_pop hturn
  refine ⟨fun hs hop ho => ?_, fun hs hop ho hn hi => ?_, fun hs hc => ?_⟩
  · exact ⟨_, step_turn_move hturn (sequencer_count (s := s.pop rest) hs ho), finished_stopDecode_pop hop _ rest, stopDecode_buf _ _⟩
  · exact ⟨_, step_turn_move hturn (sequencer_exhausted (s := s.pop rest) hs ho hn hi), finished_stopDecode_pop hop _ rest,
      stopDecode_buf _ _⟩
  · refine ⟨_, step_turn_move hturn (sequencer_finished (s := s.pop rest) hs hc), finished_finish (s.pop rest), finish_buf _, ?_⟩
    rintro ⟨hbusy, -, herr, -⟩
    exact herr (hbusy.2 (by rw [hs]; decide))

/-- Settles O33. -/
theorem endAndRangeStopADecode : Obligations.EndAndRangeStopADecode :=
  fun s _ hop => ⟨⟨_, rfl, finished_stopDecode hop .endCode, stopDecode_buf _ s⟩, _, rfl, finished_stopDecode hop .codeRange,
    stopDecode_buf _ s⟩

/-! ## Bytes of the stream -/

/-- Settles O42. -/
theorem lengthByteOpensASubBlock : Obligations.LengthByteOpensASubBlock := by
  intro s len
  refine ⟨fun hi hl => ⟨_, exec_blockHeader_opens hi hl, toNat_ipos_succ hi, rfl⟩, fun hi hop => ⟨_, exec_blockHeader_zero hi, ?_, ?_⟩,
    fun hi hop => ⟨_, (exec_byte_exhausted hi len).1, stopDecode_buf _ s, finished_stopDecode hop _⟩⟩
  · exact stopDecode_buf _ _
  · exact finished_stopDecode (s := s.withDec { s.dec with brem := 0, ipos := s.dec.ipos + 1#32 }) hop .zeroBlock

/-- Settles O43: `toNat_acc_or` (used for O52) is the sum; none of the three counters wraps. -/
theorem dataByteGoesAboveTheBufferedBits : Obligations.DataByteGoesAboveTheBufferedBits := by
  intro s b
  refine ⟨fun hi hbrem hn hacc => ⟨_, exec_dataByte_ok hi b, toNat_acc_or hn hacc, ?_, toNat_ipos_succ hi, ?_, rfl⟩,
    fun hi hop => ⟨_, (exec_byte_exhausted hi b).2, stopDecode_buf _ s, finished_stopDecode hop _⟩⟩
  · exact BitVec.toNat_add_of_lt (show s.dec.nbits.toNat + 8 < 2 ^ 5 by omega)
  · have hpos : 1 ≤ s.dec.brem.toNat := Nat.one_le_iff_ne_zero.2 fun h => hbrem (BitVec.eq_of_toNat_eq h)
    show (s.dec.brem - 1#8).toNat + 1 = s.dec.brem.toNat
    rw [BitVec.toNat_sub_of_le (show (1#8).toNat ≤ s.dec.brem.toNat from hpos)]
    exact Nat.sub_add_cancel hpos

end Sys2Proof.Machine
end

section
/-! The codes that walk a chain, DEFINED and KWKWK (41_lzw_decoder.md R164 to R171, R175): the whole effect, the count stop inside the
expansion, and the overflow of the pixel stack. -/

namespace Sys2Proof.Machine

/-! ## Inside an expansion -/

/-- `u` is `s` within the expansion of a code that has emitted `bs` so far: the pixel stack and FIRST aside, only IDX and OCNT have
changed. -/
structure Expanding (s u : State) (bs : List Byte) : Prop where
  outside : OutsideEmission s u
  accumulator : SameAccumulator s u
  table : SameTable s u
  prev : u.dec.prev = s.dec.prev
  prevV : u.dec.prevV = s.dec.prevV
  prefixAt : ∀ c, u.dec.prefixAt c = s.dec.prefixAt c
  suffixAt : ∀ c, u.dec.suffixAt c = s.dec.suffixAt c
  ocnt : u.dec.ocnt.toNat = s.dec.ocnt.toNat + bs.length
  idx : Memory.wf s.buf.idx → IdxAppended s u s.dec.ocnt.toNat bs

/-- A walk, the setting of FIRST and an emission. -/
theorem Expanding.of_emitted {s u : State} {e : Decoder} {f : BitVec 12} {bs : List Byte} (he : SameButStack s.dec e)
    (h : Emitted (s.withDec (e.withFirst f)) u bs) : Expanding s u bs where
  outside :=
    { seq := h.seq, op := h.op, status := h.status, regs := h.regs, results := h.results, cmp := h.cmp, inp := h.inp, ct := h.ct
      pix := h.pix, host := by rw [h.env]; rfl, mcs := h.dec_mcs.trans he.mcs, clear := h.dec_clear.trans he.clear
      endCode := h.dec_endCode.trans he.endCode, npix := h.dec_npix.trans he.npix, tableDraw := h.dec_tableDraw.trans he.tableDraw }
  accumulator := ⟨h.dec_acc.trans he.acc, h.dec_nbits.trans he.nbits, h.dec_brem.trans he.brem, h.dec_ipos.trans he.ipos⟩
  table := ⟨h.dec_pfx.trans he.pfx, h.dec_sfx.trans he.sfx, h.dec_avail.trans he.avail, h.dec_csize.trans he.csize,
    h.dec_mask.trans he.mask⟩
  prev := h.dec_prev.trans he.prev
  prevV := h.dec_prevV.trans he.prevV
  prefixAt c := (h.prefixAt c).trans (he.prefixAt c)
  suffixAt c := (h.suffixAt c).trans (he.suffixAt c)
  ocnt := h.ocnt.trans (by rw [State.withDec_dec, Decoder.withFirst_ocnt, he.ocnt])
  idx hw := by
    obtain ⟨-, happended⟩ := h.idx hw
    rw [State.withDec_dec, Decoder.withFirst_ocnt, he.ocnt] at happended
    exact happended

/-- What a DEFINED or KWKWK code `i` with the output `out` does: all of it and then the definition when NPIX lies beyond the output, else the
count stop at NPIX (R164, R165, R167). -/
def Expands (s : State) (i : Instr) (code : BitVec 12) (out : List Byte) : Prop :=
  (s.dec.ocnt.toNat + out.length < s.dec.npix.toNat →
    ∃ u, Expanding s u out ∧ u.dec.first.toNat = (out.headD 0).toNat ∧ exec i s = .next (u.withDec (u.dec.define.withPrev code))) ∧
  (s.dec.npix.toNat ≤ s.dec.ocnt.toNat + out.length →
    ∃ u, Expanding s u (out.take (s.dec.npix.toNat - s.dec.ocnt.toNat)) ∧ u.dec.ocnt = u.dec.npix ∧
      exec i s = .next (stopDecode .count u))

/-- `expandCode_spells` from a stack `d` of the state's own decoder, for the instruction `i` that prepares it. -/
theorem expands_of_spells {s : State} {i : Instr} {start code : BitVec 12} {d : Decoder} {bs : List Byte}
    (hi : exec i s = .next (expandCode start code (s.withDec d))) (hd : SameButStack s.dec d) (hs : Spells s.dec start bs)
    (hw : Memory.wf d.stack) (hl : d.top.toNat + bs.length ≤ 4098) (ho : s.dec.ocnt.toNat < s.dec.npix.toNat) :
    Expands s i code (bs ++ stackList d.stack d.top.toNat) := by
  obtain ⟨e, f, he, hf, hall, hcut⟩ := expandCode_spells start code (s.withDec d) bs (hs.congr hd) hw hl (by
    rw [State.withDec_dec, hd.ocnt, hd.npix]
    exact ho)
  simp only [State.withDec_dec, State.withDec_withDec, hd.ocnt, hd.npix] at he hall hcut
  have hse := hd.trans he
  have hhead : (bs ++ stackList d.stack d.top.toNat).headD 0 = bs.headD 0 := by
    cases bs with
    | nil => exact absurd rfl hs.ne_nil
    | cons b bs => rfl
  refine ⟨fun hlt => ?_, fun hle => ?_⟩
  · obtain ⟨u, hu, hx⟩ := hall hlt
    exact ⟨u, .of_emitted hse hu, by rw [hu.dec_first, hhead, ← hf]; rfl, by rw [hi, hx]⟩
  · obtain ⟨u, hu, hstop, hx⟩ := hcut hle
    exact ⟨u, .of_emitted hse hu, hstop, by rw [hi, hx]⟩

/-- DEFINED empties the stack and walks from the code (R164). -/
theorem defined_expands {s : State} {c : BitVec 12} {bs : List Byte} (hs : Spells s.dec c bs) (hw : Memory.wf s.dec.stack)
    (hl : bs.length ≤ 4098) (ho : s.dec.ocnt.toNat < s.dec.npix.toNat) : Expands s (.defined c) c bs := by
  have h := expands_of_spells (i := .defined c) (code := c) (d := s.dec.emptyStack) rfl rfl hs hw (by simpa using hl) ho
  rwa [Decoder.emptyStack_top, show (0#13).toNat = 0 from rfl, stackList, List.append_nil] at h

/-- The stack with FIRST's low byte on it, from which KWKWK walks (R165). -/
def kwkwkStack (d : Decoder) : Decoder := d.emptyStack.push (d.first.setWidth 8)

theorem kwkwkStack_top (d : Decoder) : (kwkwkStack d).top.toNat = 1 := push_top _ (Nat.zero_le _)

theorem sameButStack_kwkwkStack (d : Decoder) : SameButStack d (kwkwkStack d) := rfl

theorem stackList_kwkwkStack {d : Decoder} (hw : Memory.wf d.stack) :
    stackList (kwkwkStack d).stack (kwkwkStack d).top.toNat = [d.first.setWidth 8] :=
  stackList_push (d := d.emptyStack) hw _ (Nat.zero_le _)

/-- KWKWK walks from PREV (R165). -/
theorem kwkwk_expands {s : State} (c : BitVec 12) {bs : List Byte} (hs : Spells s.dec s.dec.prev bs) (hw : Memory.wf s.dec.stack)
    (hl : bs.length ≤ 4097) (ho : s.dec.ocnt.toNat < s.dec.npix.toNat) :
    Expands s (.kwkwk c) c (bs ++ [s.dec.first.setWidth 8]) := by
  have h := expands_of_spells (i := .kwkwk c) (code := c) (d := kwkwkStack s.dec) rfl (sameButStack_kwkwkStack _) hs
    (Memory.wf_write hw _ _) (by rw [kwkwkStack_top]; omega) ho
  rwa [stackList_kwkwkStack hw] at h

/-! ## The whole effect -/

/-- The definition, as `Defines` reads it, made in the decoder an expansion leaves (R168). -/
theorem Expanding.defines {s u : State} {bs : List Byte} (h : Expanding s u bs) {b : Byte} (hf : u.dec.first.toNat = b.toNat)
    (p : BitVec 12) : Defines s (u.withDec (u.dec.define.withPrev p)) b := by
  obtain ⟨-, -, havail, -, -⟩ := h.table
  have hb : u.dec.first.setWidth 8 = b := by
    apply BitVec.eq_of_toNat_eq
    rw [BitVec.toNat_setWidth, hf, Nat.mod_eq_of_lt b.isLt]
  refine ⟨fun hlt => ?_, fun hge => ?_, fun c hc => ?_⟩ <;>
    simp only [State.withDec_dec, Decoder.withPrev_prefixAt, Decoder.withPrev_suffixAt, Decoder.withPrev_avail] <;>
    rw [← havail] at *
  · rw [define_prefixAt hlt, define_suffixAt hlt, if_pos rfl, if_pos rfl, hb, h.prev]
    exact ⟨rfl, rfl, define_avail hlt⟩
  · rw [define_full hge]
  · rcases Nat.lt_or_ge u.dec.avail.toNat 4096 with hlt | hge
    · have hne := hc.resolve_right hlt.not_ge
      rw [define_prefixAt hlt, define_suffixAt hlt, if_neg hne, if_neg hne]
      exact ⟨h.prefixAt c, h.suffixAt c⟩
    · rw [define_full hge]
      exact ⟨h.prefixAt c, h.suffixAt c⟩

theorem Expands.codeExpanded {s : State} {i : Instr} {code : BitVec 12} {out : List Byte} (h : Expands s i code out)
    (hw : Memory.wf s.buf.idx) (ho : s.dec.ocnt.toNat + out.length < s.dec.npix.toNat) :
    ∃ t, exec i s = .next t ∧ CodeExpanded s t code out := by
  obtain ⟨u, hu, hf, hx⟩ := h.1 ho
  obtain ⟨hacc, hnbits, hbrem, hipos⟩ := hu.accumulator
  have hout := hu.outside
  refine ⟨_, hx, hu.idx hw, ?_, ?_, rfl, hu.defines hf code, ?_, ⟨hout.inp, hout.ct, hout.pix⟩,
    ⟨hout.seq, hout.op, hout.status, hout.regs, hout.results, hout.cmp⟩⟩
  · simpa using hu.ocnt
  · simpa using hf
  · simp [SameFixedDecoder, hout.mcs, hout.clear, hout.endCode, hacc, hnbits, hbrem, hipos, hout.npix, hu.prevV, hout.tableDraw]

/-- Settles O36. -/
theorem definedCodeEmitsItsString : Obligations.DefinedCodeEmitsItsString :=
  fun _ _ _ hidx hstack hs hl ho => (defined_expands hs hstack hl (by omega)).codeExpanded hidx ho

/-- Settles O37. -/
theorem kwkwkCodeEmitsPrevAndFirst : Obligations.KwkwkCodeEmitsPrevAndFirst := by
  intro s c bs hidx hstack hs hl ho
  refine (kwkwk_expands c hs hstack hl (by omega)).codeExpanded hidx ?_
  rw [List.length_append, List.length_singleton]
  omega

theorem Expands.widthAfterDefinition {s : State} {i : Instr} {code : BitVec 12} {out : List Byte} (h : Expands s i code out)
    (ho : s.dec.ocnt.toNat + out.length < s.dec.npix.toNat) (hav : s.dec.avail.toNat < 4096) (hcs : s.dec.csize.toNat ≤ 12)
    (hm : s.dec.mask.toNat = 2 ^ s.dec.csize.toNat - 1) : ∃ t, exec i s = .next t ∧ WidthAfterDefinition s t := by
  obtain ⟨u, hu, -, hx⟩ := h.1 ho
  obtain ⟨-, -, havail, hcsize, hmask⟩ := hu.table
  refine ⟨_, hx, ?_⟩
  simp only [WidthAfterDefinition, State.withDec_dec, Decoder.withPrev_avail, Decoder.withPrev_csize, Decoder.withPrev_mask]
  rw [← havail] at hav
  rw [define_avail hav, ← havail, ← hcsize, ← hmask]
  refine ⟨rfl, ?_⟩
  rcases define_width hav with ⟨hc', hm', hgrow, hroom⟩ | ⟨hc', hm', hstay⟩
  · have hpow : 2 ^ s.dec.csize.toNat < 2 ^ 12 := by
      rw [hmask] at hgrow
      omega
    have hlt : s.dec.csize.toNat < 12 := (Nat.pow_lt_pow_iff_right (by decide)).1 hpow
    have hcs' : (u.dec.csize + 1#4).toNat = u.dec.csize.toNat + 1 := by
      rw [hcsize]
      exact BitVec.toNat_add_of_lt (show s.dec.csize.toNat + 1 < 2 ^ 4 by omega)
    rw [hc', hm', hcs', if_pos ⟨hgrow, hroom⟩, maskOf_toNat (by rw [hcs', hcsize]; omega), hcs']
    exact ⟨rfl, rfl⟩
  · rw [hc', hm', if_neg hstay, hmask, hcsize]
    exact ⟨rfl, hm⟩

/-- Settles O40. -/
theorem codeWidthGrowsAtTheMask : Obligations.CodeWidthGrowsAtTheMask := by
  intro s c bs hstack hav hcs hm
  refine ⟨fun hs hl ho => ?_, fun hs hl ho => ?_⟩
  · exact (defined_expands hs hstack hl (by omega)).widthAfterDefinition ho hav hcs hm
  · refine (kwkwk_expands c hs hstack hl (by omega)).widthAfterDefinition ?_ hav hcs hm
    rw [List.length_append, List.length_singleton]
    omega

/-! ## The overflow of the pixel stack -/

/-- A walk whose string is longer than what the stack has left, or that spells none, overflows (R166). -/
theorem expandCode_overflow {s : State} {start code : BitVec 12} (ht : s.dec.top.toNat ≤ Config.stackCap)
    (h : ∀ bs, Spells s.dec start bs → 4098 < s.dec.top.toNat + bs.length) :
    ∃ e, SameButStack s.dec e ∧ expandCode start code s = stopDecode .stackOverflow (s.withDec e) := by
  have hcap : Config.stackCap = 4097 := rfl
  unfold expandCode
  cases hw : expand Config.stackCap start s.dec with
  | root r e =>
    obtain ⟨bs, hs, -, hlen⟩ := spells_of_expand hw ht
    have := h bs hs
    omega
  | overflow e => exact ⟨e, expand_frame hw, rfl⟩

/-- The instruction `i` overflows the pixel stack: nothing is emitted, and the decode stops (R166). -/
def Overflows (s : State) (i : Instr) : Prop :=
  ∃ e, SameButStack s.dec e ∧ exec i s = .next (stopDecode .stackOverflow (s.withDec e))

theorem overflows_of_spells {s : State} {i : Instr} {start code : BitVec 12} {d : Decoder}
    (hi : exec i s = .next (expandCode start code (s.withDec d))) (hd : SameButStack s.dec d) (ht : d.top.toNat ≤ Config.stackCap)
    (h : ∀ bs, Spells s.dec start bs → 4098 < d.top.toNat + bs.length) : Overflows s i := by
  have hback : SameButStack d s.dec := by
    unfold SameButStack at *
    rw [hd]
  obtain ⟨e, he, hx⟩ := expandCode_overflow (s := s.withDec d) (code := code) ht fun bs hs => h bs (hs.congr hback)
  exact ⟨e, hd.trans he, by rw [hi, hx, State.withDec_withDec]⟩

theorem defined_overflows {s : State} {c : BitVec 12} (h : ∀ bs, Spells s.dec c bs → 4098 < bs.length) : Overflows s (.defined c) :=
  overflows_of_spells (code := c) (d := s.dec.emptyStack) rfl rfl (Nat.zero_le _) (by simpa using h)

theorem kwkwk_overflows {s : State} (c : BitVec 12) (h : ∀ bs, Spells s.dec s.dec.prev bs → 4097 < bs.length) :
    Overflows s (.kwkwk c) := by
  refine overflows_of_spells (code := c) (d := kwkwkStack s.dec) rfl (sameButStack_kwkwkStack _) ?_ fun bs hs => ?_ <;> rw [kwkwkStack_top]
  · decide
  · have := h bs hs
    omega

/-- The overflow of a DECODE ends it (R166, R171). -/
theorem Overflows.finished {s : State} {i : Instr} (h : Overflows s i) (hop : s.op = .decode) :
    ∃ t, exec i s = .next t ∧ Finished s t .stackOverflow s.status.errCode s.counters ∧ SameTable s t ∧ t.dec.prev = s.dec.prev ∧
      t.buf = s.buf := by
  obtain ⟨e, he, hx⟩ := h
  have hcounters : (s.withDec e).counters = s.counters := by simp [State.counters, he.ocnt, he.ipos]
  refine ⟨_, hx, hcounters ▸ finished_stopDecode (s := s.withDec e) hop .stackOverflow, ?_, ?_, stopDecode_buf _ _⟩
  · simp [SameTable, he.pfx, he.sfx, he.avail, he.csize, he.mask]
  · rw [stopDecode_dec, State.withDec_dec, he.prev]

/-- Settles O39. -/
theorem unendingWalkOverflowsTheStack : Obligations.UnendingWalkOverflowsTheStack :=
  fun _ c hop => ⟨fun h => (defined_overflows h).finished hop, fun h => (kwkwk_overflows c h).finished hop⟩

/-! ## The count stop inside an expansion -/

/-- The count stop of a DECODE: NPIX bytes stand in IDX, nothing is defined and PREV stays (R167). -/
theorem Expands.cut {s : State} {i : Instr} {code : BitVec 12} {out : List Byte} (h : Expands s i code out) (hop : s.op = .decode)
    (hw : Memory.wf s.buf.idx) (ho : s.dec.npix.toNat ≤ s.dec.ocnt.toNat + out.length) :
    ∃ t, exec i s = .next t ∧ IdxAppended s t s.dec.ocnt.toNat (out.take (s.dec.npix.toNat - s.dec.ocnt.toNat)) ∧
      Finished s t .count s.status.errCode ⟨s.dec.npix, s.dec.ipos, s.cmp.cpos, s.cmp.pwr⟩ ∧ SameTable s t ∧
      t.dec.prev = s.dec.prev ∧ t.buf.pix = s.buf.pix := by
  obtain ⟨u, hu, hstop, hx⟩ := h.2 ho
  have hout := hu.outside
  have hcounters : u.counters = ⟨s.dec.npix, s.dec.ipos, s.cmp.cpos, s.cmp.pwr⟩ := by
    simp [State.counters, hstop, hout.npix, hu.accumulator.ipos, hout.cmp]
  have hfin := finished_stopDecode (hout.op.trans hop) .count
  rw [hcounters] at hfin
  refine ⟨_, hx, ?_, ?_, ?_, ?_, ?_⟩
  · unfold IdxAppended
    rw [stopDecode_buf]
    exact hu.idx hw
  · unfold Finished at hfin ⊢
    rwa [hout.status, hout.regs, hout.inp, hout.ct] at hfin
  · unfold SameTable
    rw [stopDecode_dec]
    exact hu.table
  · rw [stopDecode_dec, hu.prev]
  · rw [stopDecode_buf, hout.pix]

/-- Settles O38. -/
theorem countStopCutsAnExpansion : Obligations.CountStopCutsAnExpansion := by
  intro s c bs hidx hstack hop ho
  refine ⟨fun hs hl hle => (defined_expands hs hstack hl ho).cut hop hidx hle, fun hs hl hle => ?_⟩
  refine (kwkwk_expands c hs hstack hl ho).cut hop hidx ?_
  rw [List.length_append, List.length_singleton]
  omega

/-! ## Stops of a DECODE_COMPOSITE -/

/-- A state within a code that has changed only what `EntersComposite` allows enters the composite phase (R125, R171). -/
theorem Expanding.entersComposite {s u : State} {bs : List Byte} (h : Expanding s u bs) (r : DecStop) :
    EntersComposite s (u.compositeAfter r) r := by
  have hout := h.outside
  refine ⟨rfl, hout.op, ?_, hout.regs, hout.results, ?_, h.accumulator.ipos, h.prev, h.table, hout.inp, hout.ct, hout.pix⟩
  · simp [State.compositeAfter, hout.status]
  · simp [State.compositeAfter, hout.cmp]

theorem Overflows.entersComposite {s : State} {i : Instr} (h : Overflows s i) (hop : s.op = .decodeComposite)
    (hn : s.regs.positions ≤ s.regs.idxLen.toNat) (hg : s.regs.geometryOk = true) :
    ∃ t, exec i s = .next t ∧ EntersComposite s t .stackOverflow ∧ t.buf.idx = s.buf.idx ∧ t.dec.ocnt = s.dec.ocnt := by
  obtain ⟨e, he, hx⟩ := h
  rw [stopDecode_goesOn (s := s.withDec e) _ hop hn hg] at hx
  have hexp : Expanding s (s.withDec e) [] := .of_emitted (f := e.first) he (.nil _)
  exact ⟨_, hx, hexp.entersComposite _, rfl, he.ocnt⟩

theorem Expands.entersComposite {s : State} {i : Instr} {code : BitVec 12} {out : List Byte} (h : Expands s i code out)
    (hop : s.op = .decodeComposite) (hn : s.regs.positions ≤ s.regs.idxLen.toNat) (hg : s.regs.geometryOk = true)
    (hw : Memory.wf s.buf.idx) (ho : s.dec.npix.toNat ≤ s.dec.ocnt.toNat + out.length) :
    ∃ t, exec i s = .next t ∧ EntersComposite s t .count ∧ t.dec.ocnt = s.dec.npix ∧
      IdxAppended s t s.dec.ocnt.toNat (out.take (s.dec.npix.toNat - s.dec.ocnt.toNat)) := by
  obtain ⟨u, hu, hstop, hx⟩ := h.2 ho
  have hout := hu.outside
  rw [stopDecode_goesOn _ (hout.op.trans hop) (by rwa [hout.regs]) (by rwa [hout.regs])] at hx
  exact ⟨_, hx, hu.entersComposite _, hstop.trans hout.npix, hu.idx hw⟩

/-- Settles O34: every stop is `stopDecode`, and the checks of the composite phase pass. -/
theorem stopGoesOnToTheCompositePhase : Obligations.StopGoesOnToTheCompositePhase := by
  intro s hop hn hg
  have goesOn (r : DecStop) : stopDecode r s = s.compositeAfter r := stopDecode_goesOn r hop hn hg
  refine ⟨fun c => ⟨congrArg Host.Outcome.next (goesOn .endCode), congrArg Host.Outcome.next (goesOn .codeRange)⟩, fun hi b => ?exhausted,
    fun hi => ?zero, fun u hturn hs => ?loopTop, fun c h => (defined_overflows h).entersComposite hop hn hg,
    fun c h => (kwkwk_overflows c h).entersComposite hop hn hg, fun c bs hidx hstack ho => ?cut⟩
  case exhausted =>
    obtain ⟨hheader, hdata⟩ := exec_byte_exhausted hi b
    rw [goesOn] at hheader hdata
    exact ⟨hheader, hdata⟩
  case zero =>
    rw [exec_blockHeader_zero hi]
    exact congrArg Host.Outcome.next (stopDecode_goesOn (s := s.withDec _) .zeroBlock hop hn hg)
  case loopTop =>
    obtain ⟨rest, rfl⟩ := turn_eq_pop hturn
    have goesOn' (r : DecStop) : stopDecode r (s.pop rest) = (s.pop rest).compositeAfter r :=
      stopDecode_goesOn (s := s.pop rest) r hop hn hg
    refine ⟨fun ho => ?_, fun ho hn hi => ?_⟩ <;> rw [← goesOn']
    · exact step_turn_move hturn (sequencer_count (s := s.pop rest) hs ho)
    · exact step_turn_move hturn (sequencer_exhausted (s := s.pop rest) hs ho hn hi)
  case cut =>
    refine ⟨fun hs hl hle => (defined_expands hs hstack hl ho).entersComposite hop hn hg hidx hle, fun hs hl hle => ?_⟩
    refine (kwkwk_expands c hs hstack hl ho).entersComposite hop hn hg hidx ?_
    rw [List.length_append, List.length_singleton]
    omega

/-! ## The full table -/

theorem SameTable.trans {s t u : State} (h1 : SameTable s t) (h2 : SameTable t u) : SameTable s u := by
  obtain ⟨p1, x1, a1, c1, m1⟩ := h1
  obtain ⟨p2, x2, a2, c2, m2⟩ := h2
  exact ⟨p2.trans p1, x2.trans x1, a2.trans a1, c2.trans c1, m2.trans m1⟩

theorem sameTable_emit (v : Byte) (s : State) : SameTable s (emit v s) := ⟨rfl, rfl, rfl, rfl, rfl⟩

/-- No emission touches the table or the width, whatever the stack and the counters hold. -/
theorem sameTable_popAll (n : Nat) (s : State) : SameTable s (popAll n s).1 := by
  induction n generalizing s with
  | zero => exact ⟨rfl, rfl, rfl, rfl, rfl⟩
  | succ n ih =>
    have hemit : SameTable s (emit s.dec.pop.poppedByte (s.withDec s.dec.pop)) := sameTable_emit _ (s.withDec s.dec.pop)
    simp only [popAll]
    split
    · exact hemit
    · exact hemit.trans (ih _)

theorem sameTable_emitExpansion (s : State) : SameTable s (emitExpansion s).1 := by
  have hemit := sameTable_emit (s.dec.first.setWidth 8) s
  simp only [emitExpansion]
  split
  · exact hemit
  · exact hemit.trans (sameTable_popAll _ _)

theorem sameTable_stopDecode (r : DecStop) (s : State) : SameTable s (stopDecode r s) := by
  simp [SameTable]

theorem sameTable_walk {s : State} {e : Decoder} (he : SameButStack s.dec e) (f : BitVec 12) :
    SameTable s (s.withDec (e.withFirst f)) := ⟨he.pfx, he.sfx, he.avail, he.csize, he.mask⟩

/-- With the table full the definition of a DEFINED or KWKWK code is none (R168, R175). -/
theorem sameTable_expandCode {s : State} (hfull : s.dec.avail.toNat = 4096) (start code : BitVec 12) :
    SameTable s (expandCode start code s) := by
  unfold expandCode
  cases hw : expand Config.stackCap start s.dec with
  | overflow e => exact (sameTable_walk (expand_frame hw) e.first).trans (sameTable_stopDecode _ _)
  | root r e =>
    have hemitted := (sameTable_walk (expand_frame hw).1 ((e.suffixAt r.toNat).setWidth 12)).trans (sameTable_emitExpansion _)
    simp only
    generalize emitExpansion (s.withDec (e.withFirst ((e.suffixAt r.toNat).setWidth 12))) = x at hemitted
    obtain ⟨t, stopped⟩ := x
    cases stopped with
    | true => exact hemitted.trans (sameTable_stopDecode _ _)
    | false =>
      obtain ⟨-, -, havail, -, -⟩ := id hemitted
      have hdef : t.dec.define = t.dec := define_full (by rw [havail, hfull])
      simp only [hdef]
      exact hemitted.trans ⟨rfl, rfl, rfl, rfl, rfl⟩

/-- Settles O41: no code of 12 bits reaches 4096, and a full table takes no definition. -/
theorem fullTableIsFrozen : Obligations.FullTableIsFrozen := by
  intro s hfull
  refine ⟨fun bits c => ⟨fun hd => ?_, fun hd => ?_⟩, fun c t ht => ?_⟩
  · have hrange : s.dec.avail.toNat < c.toNat := fits_range (decode_code_fits hd)
    have := c.isLt
    omega
  · have hkwkwk : c.toNat = s.dec.avail.toNat := (fits_kwkwk (decode_code_fits hd)).2
    have := c.isLt
    omega
  · rcases ht with ht | ht <;> cases ht
    · exact sameTable_emit (s.dec.suffixAt c.toNat) s
    · exact sameTable_expandCode (s := s.withDec s.dec.emptyStack) hfull c c

end Sys2Proof.Machine
end

section
/-! PIX is write-only to the block (42_compositor.md R215): each operation does the same to a state and to that state without PIX, and the one
word of PIX a step may write is told by the state without PIX. -/

namespace Sys2Proof.Machine

/-! ## The operations on a state without PIX -/

theorem erasePix_runComposite (s : State) : runComposite s.erasePix = (runComposite s).erasePix := by
  unfold runComposite
  simp only [apply_ite State.erasePix]
  rfl

theorem erasePix_stopDecode (r : DecStop) (s : State) : stopDecode r s.erasePix = (stopDecode r s).erasePix := by
  have hop : s.erasePix.op = s.op := rfl
  cases h : s.op with
  | decodeComposite =>
    rw [stopDecode_decodeComposite h, stopDecode_decodeComposite (hop.trans h)]
    exact erasePix_runComposite (s.withStatus { s.status with decStop := r })
  | decode | composite =>
    simp only [stopDecode, hop, h]
    rfl

theorem erasePix_runDecode (s : State) : runDecode s.erasePix = (runDecode s).erasePix := by
  unfold runDecode
  simp only [apply_ite State.erasePix, ← erasePix_stopDecode]
  rfl

theorem erasePix_commandDecode (s : State) : commandDecode s.erasePix = (commandDecode s).erasePix := by
  unfold commandDecode
  simp only [apply_ite State.erasePix, ← erasePix_runDecode]
  rfl

theorem erasePix_commandDecodeComposite (s : State) : commandDecodeComposite s.erasePix = (commandDecodeComposite s).erasePix := by
  unfold commandDecodeComposite
  simp only [apply_ite State.erasePix, ← erasePix_runDecode]
  rfl

theorem erasePix_startLegal (op : Command) (s : State) : startLegal op s.erasePix = (startLegal op s).erasePix := rfl

theorem erasePix_startBad (s : State) : startBad s.erasePix = (startBad s).erasePix := rfl

theorem erasePix_startCommand (w : Word) (s : State) : startCommand w s.erasePix = (startCommand w s).erasePix := by
  unfold startCommand
  simp only [apply_ite State.erasePix, erasePix_startBad, erasePix_startLegal, erasePix_commandDecode, commandComposite,
    erasePix_runComposite, erasePix_commandDecodeComposite]

theorem erasePix_cmdWrite {body : State → State} {s : State} (hbody : body s.erasePix = (body s).erasePix) :
    cmdWrite body s.erasePix = (cmdWrite body s).erasePix := by
  unfold cmdWrite
  rw [hbody, apply_ite State.erasePix]
  rfl

theorem erasePix_writeRegister (n : RegName) (d : Word) (s : State) : writeRegister n d s.erasePix = (writeRegister n d s).erasePix := by
  rcases n.kinds with rfl | rfl | hn | hn
  · exact erasePix_cmdWrite (erasePix_startCommand d s)
  · rfl
  · rw [writeRegister_config hn, writeRegister_config hn, configWrite, configWrite, apply_ite State.erasePix]
    rfl
  · rw [writeRegister_readOnly hn, writeRegister_readOnly hn]

theorem erasePix_readRegister (n : RegName) (s : State) : readRegister n s.erasePix = readRegister n s := by
  cases n <;> rfl

theorem erasePix_popAll (n : Nat) (s : State) : popAll n s.erasePix = (popAll n s).map State.erasePix id := by
  induction n generalizing s with
  | zero => rfl
  | succ n ih =>
    simp only [popAll, apply_ite (Prod.map State.erasePix id), ← ih]
    rfl

theorem erasePix_emitExpansion (s : State) : emitExpansion s.erasePix = (emitExpansion s).map State.erasePix id := by
  simp only [emitExpansion, apply_ite (Prod.map State.erasePix id), ← erasePix_popAll]
  rfl

theorem erasePix_expandCode (start incode : BitVec 12) (s : State) :
    expandCode start incode s.erasePix = (expandCode start incode s).erasePix := by
  have hdec : s.erasePix.dec = s.dec := rfl
  unfold expandCode
  rw [hdec]
  cases expand Config.stackCap start s.dec with
  | overflow d => exact erasePix_stopDecode _ (s.withDec d)
  | root r d =>
    have hemit (e : Decoder) : emitExpansion (s.erasePix.withDec e) = (emitExpansion (s.withDec e)).map State.erasePix id :=
      erasePix_emitExpansion (s.withDec e)
    simp only [hemit]
    rcases emitExpansion (s.withDec (d.withFirst ((d.suffixAt r.toNat).setWidth 12))) with ⟨t, _ | _⟩
    · rfl
    · exact erasePix_stopDecode _ t

theorem erasePix_takeByte {effect : State → State} {s : State} (he : effect s.erasePix = (effect s).erasePix) :
    takeByte effect s.erasePix = (takeByte effect s).erasePix := by
  unfold takeByte
  rw [he, erasePix_stopDecode, apply_ite State.erasePix]
  rfl

/-! ## Instructions -/

/-- The outcome without PIX in the next state. -/
def outcomeErasePix : Host.Outcome State Fault Refusal → Host.Outcome State Fault Refusal
  | .next t => .next t.erasePix
  | .fault r => .fault r
  | .refused r => .refused r

theorem outcomeErasePix_next {t u : State} (h : t = u.erasePix) : outcomeErasePix (.next t) = outcomeErasePix (.next u) := by
  rw [h]
  rfl

/-- PIX is no input of an instruction: WRITE alone accesses PIX, and only overwrites it (R208). -/
theorem exec_erasePix (i : Instr) (s : State) : outcomeErasePix (exec i s.erasePix) = outcomeErasePix (exec i s) := by
  cases i with
  | decode => exact outcomeErasePix_next (erasePix_cmdWrite (erasePix_commandDecode (startLegal .decode s)))
  | composite => exact outcomeErasePix_next (erasePix_cmdWrite (erasePix_runComposite (startLegal .composite s)))
  | decodeComposite => exact outcomeErasePix_next (erasePix_cmdWrite (erasePix_commandDecodeComposite (startLegal .decodeComposite s)))
  | badCmd => exact outcomeErasePix_next (erasePix_cmdWrite (erasePix_startBad s))
  | wr off d =>
    simp only [exec, execWr]
    split
    · rfl
    · exact outcomeErasePix_next (erasePix_writeRegister _ d s)
  | rd off =>
    simp only [exec, execRd, erasePix_readRegister]
    split <;> rfl
  | endCode | range => exact outcomeErasePix_next (erasePix_stopDecode _ s)
  | defined code => exact outcomeErasePix_next (erasePix_expandCode code code (s.withDec s.dec.emptyStack))
  | kwkwk code =>
    exact outcomeErasePix_next
      (erasePix_expandCode s.dec.prev code (s.withDec (Decoder.push s.dec.emptyStack (s.dec.first.setWidth 8))))
  | blockHeader len =>
    refine outcomeErasePix_next (erasePix_takeByte ?_)
    simp only [apply_ite State.erasePix, ← erasePix_stopDecode]
    rfl
  | dataByte => exact outcomeErasePix_next (erasePix_takeByte rfl)
  | clear | first | transparent | ctRange | write => rfl

/-! ## Steps -/

/-- What happens next, without PIX in the state. -/
def Fetched.erasePix : Fetched → Fetched
  | .word raw s => .word raw s.erasePix
  | .move s => .move s.erasePix
  | .fault r => .fault r
  | .refused r => .refused r

theorem Fetched.erasePix_move (s : State) : (Fetched.move s).erasePix = .move s.erasePix := rfl

theorem Fetched.erasePix_erasePix (f : Fetched) : f.erasePix.erasePix = f.erasePix := by cases f <;> rfl

theorem perform_erasePix (ctx : Ctx) (f : Fetched) : outcomeErasePix (perform ctx f.erasePix) = outcomeErasePix (perform ctx f) := by
  cases f with
  | word raw u =>
    simp only [perform, Fetched.erasePix]
    cases decode ctx raw with
    | ok i => exact exec_erasePix i u
    | error e => rfl
  | move | fault | refused => rfl

theorem sequencer_erasePix (s : State) : sequencer s.erasePix = (sequencer s).erasePix := by
  have hseq : s.erasePix.seq = s.seq := rfl
  unfold sequencer
  rw [hseq]
  cases s.seq with
  | idle => rfl
  | decode =>
    simp only [apply_ite Fetched.erasePix, Fetched.erasePix_move, ← erasePix_stopDecode]
    rfl
  | composite =>
    simp only [apply_ite Fetched.erasePix]
    rfl

/-- A host move but reset and a read of PIX: it does not depend on PIX, and a put to PIX overwrites a word of it. -/
theorem hostMove_erasePix {m : HostMove} (hreset : m ≠ .reset) (hget : ∀ k, m ≠ .get .pix k) (s : State) :
    (hostMove m s.erasePix).erasePix = (hostMove m s).erasePix := by
  cases m with
  | access a => rfl
  | tick => exact (congrArg Fetched.erasePix (sequencer_erasePix s)).trans (sequencer s).erasePix_erasePix
  | wait =>
    simp only [hostMove, Fetched.erasePix, apply_ite State.erasePix]
    rfl
  | reset => exact absurd rfl hreset
  | put sp k v =>
    simp only [hostMove, apply_ite Fetched.erasePix]
    cases sp <;> rfl
  | get sp k =>
    simp only [hostMove, apply_ite Fetched.erasePix]
    cases sp with
    | pix => exact absurd rfl (hget k)
    | inp | idx | ct => rfl

/-- The next move is not one through which PIX tells: a read of PIX by the host, or reset, which undoes PIX writes. -/
def PixBlindMove (s : State) : Prop := (∀ k rest, s.env.host ≠ .get .pix k :: rest) ∧ ∀ rest, s.env.host ≠ .reset :: rest

theorem fetch_erasePix {s : State} (h : PixBlindMove s) : (fetch s.erasePix).erasePix = (fetch s).erasePix := by
  obtain ⟨hget, hreset⟩ := h
  have hhost : s.erasePix.env.host = s.env.host := rfl
  unfold fetch
  rw [hhost]
  cases hms : s.env.host with
  | nil => exact (congrArg Fetched.erasePix (sequencer_erasePix s)).trans (sequencer s).erasePix_erasePix
  | cons m rest => exact hostMove_erasePix (fun hm => hreset rest (hm ▸ hms)) (fun k hm => hget k rest (hm ▸ hms)) (s.pop rest)

theorem step_erasePix {s : State} (h : PixBlindMove s) : outcomeErasePix (step s.erasePix) = outcomeErasePix (step s) := by
  unfold step
  rw [← perform_erasePix _ (fetch s.erasePix), ← perform_erasePix _ (fetch s), fetch_erasePix h]
  rfl

/-! ## The word of PIX a step writes -/

/-- The word of PIX that an instruction writes and what it writes there (R208), if any. -/
def execPixWrite (i : Instr) (s : State) : Option (Nat × Word) :=
  match i with
  | .write v => some (s.regs.destOf s.cmp.cpos.toNat, Memory.readWord s.buf.ct v.toNat)
  | _ => none

/-- The same for the sequencer's next step: IDX[CPOS] of a position still to come may be a WRITE (R202). -/
def sequencerPixWrite (s : State) : Option (Nat × Word) :=
  if s.seq = .composite ∧ s.cmp.cpos.toNat < s.regs.positions then
    execPixWrite (classifyIndex s.ctx (Memory.read s.buf.idx s.cmp.cpos.toNat)) s
  else none

/-- The same for the machine's next step: the sequencer's write, or the host's own. -/
def stepPixWrite (s : State) : Option (Nat × Word) :=
  match s.env.host with
  | [] | .tick :: _ => sequencerPixWrite s
  | .put .pix k v :: _ => some (k, v)
  | _ => none

theorem stepPixWrite_erasePix (s : State) : stepPixWrite s.erasePix = stepPixWrite s := rfl

/-- PIX after such a write. -/
def afterPixWrite (w : Option (Nat × Word)) (m : Memory) : Memory := w.elim m fun e => Memory.writeWord m e.1 e.2

theorem exec_index_pix {i : Instr} {s t : State} (hf : i.format = .index) (h : exec i s = .next t) :
    t.buf.pix = afterPixWrite (execPixWrite i s) s.buf.pix := by
  cases i with
  | transparent | ctRange | write => cases h; rfl
  | _ => cases hf

theorem sequencerStep_pix {w t : State} (h : SequencerStep w t) : t.buf.pix = afterPixWrite (sequencerPixWrite w) w.buf.pix := by
  have hnone (hno : ¬ (w.seq = .composite ∧ w.cmp.cpos.toNat < w.regs.positions)) : sequencerPixWrite w = none := if_neg hno
  rcases sequencer_effect h with ⟨hs, rfl⟩ | ⟨hs, he⟩ | ⟨hs, -⟩
  · rw [hnone (by simp [hs])]
    rfl
  · rw [hnone (by simp [hs])]
    exact he.buf.2
  cases h with
  | finished _ hc ht =>
    rw [hnone (by omega), ht]
    rfl
  | index _ hc ht =>
    rw [sequencerPixWrite, if_pos ⟨hs, hc⟩]
    exact exec_index_pix (classifyIndex_format _ _) ht
  | idle hs' | count hs' | exhausted hs' | byte hs' | code hs' => cases hs.symm.trans hs'

/-- Reset aside, a step leaves PIX as it is but for that one write. -/
theorem step_pix {s t : State} (hreset : ∀ rest, s.env.host ≠ .reset :: rest) (h : step s = .next t) :
    t.buf.pix = afterPixWrite (stepPixWrite s) s.buf.pix := by
  rcases step_ways h with ⟨w, ⟨hhost, rfl⟩ | ⟨rest, hhost, rfl⟩, hw⟩ | ⟨m, rest, htick, hhost, hm⟩
  · rw [stepPixWrite, hhost]
    exact sequencerStep_pix hw
  · rw [stepPixWrite, hhost]
    exact sequencerStep_pix (w := s.pop rest) hw
  · rw [stepPixWrite, hhost]
    cases hm with
    | reset hm => exact absurd hhost (hm ▸ hreset rest)
    | put sp k v hm _ _ ht =>
      subst hm ht
      cases sp <;> rfl
    | get sp k hm ht =>
      subst hm ht
      rfl
    | command w hm _ ht =>
      subst hm
      exact congrArg Buffers.pix (hostEffect_of_exec (.inl (decodeCmd_format w)) ht).buf
    | write _ _ hm _ _ _ ht | read _ _ hm _ _ ht =>
      subst hm
      exact congrArg Buffers.pix (hostEffect_of_exec (.inr rfl) ht).buf
    | wait u hm hu ht =>
      subst hm
      rcases hu with rfl | rfl <;> exact congrArg Buffers.pix (hostEffect_of_exec (.inr rfl) ht).buf

theorem readWord_afterPixWrite (w : Option (Nat × Word)) {m m' : Memory} (hm : Memory.wf m) (hm' : Memory.wf m') (k : Nat) :
    Memory.readWord (afterPixWrite w m) k = Memory.readWord (afterPixWrite w m') k ∨
      (Memory.readWord (afterPixWrite w m) k = Memory.readWord m k ∧ Memory.readWord (afterPixWrite w m') k = Memory.readWord m' k) := by
  cases w with
  | none => exact .inr ⟨rfl, rfl⟩
  | some e =>
    by_cases hk : k = e.1
    · subst hk
      exact .inl ((Memory.readWord_writeWord_same hm _ _).trans (Memory.readWord_writeWord_same hm' _ _).symm)
    · exact .inr ⟨Memory.readWord_writeWord_other m _ hk, Memory.readWord_writeWord_other m' _ hk⟩

/-- Settles O56: erasing PIX from both states gives one state, whose step and PIX write both share. -/
theorem pixIsWriteOnly : Obligations.PixIsWriteOnly := by
  intro s t s' hget hreset hwf hwf' heq hst
  have hhost : s.env.host = s'.env.host := congrArg (fun u => u.env.host) heq
  have hblind : PixBlindMove s' := ⟨hhost ▸ hget, hhost ▸ hreset⟩
  have hwrite : stepPixWrite s = stepPixWrite s' := by
    rw [← stepPixWrite_erasePix s, heq, stepPixWrite_erasePix]
  have hsame : outcomeErasePix (step s') = .next t.erasePix := by
    rw [← step_erasePix hblind, ← heq, step_erasePix ⟨hget, hreset⟩, hst]
    rfl
  cases hst' : step s' with
  | next t' =>
    rw [hst'] at hsame
    refine ⟨t', rfl, (Host.Outcome.next.inj hsame).symm, fun k => ?_⟩
    rw [step_pix hreset hst, step_pix hblind.2 hst', hwrite]
    exact readWord_afterPixWrite _ hwf hwf' k
  | fault | refused => rw [hst'] at hsame; cases hsame

end Sys2Proof.Machine
end
